-- ==== Sys2Proof/Word.lean ====
section
/-! DEFINITION. The words of the block: 32-bit data and command words, 16-bit indices, bytes (spec/00_scope.md R6, R7, R11). -/

namespace Sys2Proof

/-- A 32-bit register, `CMD` or `DATA` word (R6). -/
abbrev Word := BitVec 32

/-- A 16-bit node or entry index (R7). -/
abbrev Half := BitVec 16

/-- One byte of `BUF`, or the `f` field of a command (R34, R90). -/
abbrev Byte := BitVec 8

end Sys2Proof
end

