-- ==== Sys2Proof/Syntax.lean ====
section
/-! DEFINITION. The thirty commands of spec/30_encoding.md R92, one constructor per row of spec/opcode_table.json.
A command carries its live fields and all 32 bits of `DATA`, also where R91 says `DATA` is ignored: such a `DATA` has no
effect, but a fault copies it to `FDATA` (R91, 60_exceptions.md R279). Log 6. -/

namespace Sys2Proof

/-- The twenty scalar registers, `x[0]` to `x[19]` in order (10_state.md R20). `recn` is the spec's `REC`. -/
inductive Reg where
  | orig | pred | res | sym | apx | recn | maxerr | out | wptr | rptr | rlim | ctn
  | status | finfo | fdata | cmdcnt | bufBytes | ctEntries | treeNodes | meEps
  deriving DecidableEq, Repr

/-- The field selector of `CTRD`: 0 `LEN`, 1 `SYM`, 2 `CODE` (R193). -/
inductive CtField where
  | len | sym | code
  deriving DecidableEq, Repr

/-- The field selector of `TRD`: 0 `KIND`, 1 `SYM`, 2 `KIDS` (R197). -/
inductive TreeField where
  | kind | sym | kids
  deriving DecidableEq, Repr

/-- One command, that is one (`CMD`, `DATA`) pair that decodes (R92). An operand named `ignored` is a `DATA` that the
command does not look at. -/
inductive Instr where
  | nop (ignored : Word)
  | srst (ignored : Word)
  | rd (sel : Reg) (ignored : Word)
  | setme (v : Word)
  | setorig (v : Word)
  | setpred (v : Word)
  | setsym (v : Word)
  | resid (ignored : Word)
  | quant (ignored : Word)
  | dequant (ignored : Word)
  | recon (ignored : Word)
  | setwp (v : Word)
  | setrp (v : Word)
  | setrl (v : Word)
  | putbits (n : Byte) (v : Word)
  | getbits (n : Byte) (ignored : Word)
  | stb (byte : Byte) (addr : Word)
  | ldb (addr : Word)
  | ctclr (ignored : Word)
  | ctset (len : Byte) (code : Word)
  | ctrd (field : CtField) (idx : Half) (ignored : Word)
  | tclr (ignored : Word)
  | tleaf (idx : Half) (sym : Word)
  | tint (idx : Half) (left right : Half)
  | trd (field : TreeField) (idx : Half) (ignored : Word)
  | cgen (ignored : Word)
  | enc (ignored : Word)
  | dec (ignored : Word)
  | tser (ignored : Word)
  | tdes (ignored : Word)
  deriving DecidableEq, Repr

end Sys2Proof
end

