-- ==== Sys2Proof/WellFormed.lean ====
section
/-! DEFINITION. The range checks of spec/30_encoding.md R93 (c) that the types of Syntax.lean do not already make. -/

namespace Sys2Proof

/-- A bit count of `PUTBITS` or `GETBITS` is 0 to 32 (R93 (c)). -/
def wellFormedCount (n : Byte) : Bool := n.toNat ≤ 32

/-- A codeword length is 1 to 32 and the code bits at and above it are 0 (R93 (c)). -/
def wellFormedCode (len : Byte) (code : Word) : Bool :=
  1 ≤ len.toNat && len.toNat ≤ 32 && code.toNat < 2 ^ len.toNat

/-- The instruction has an encoding: every live field is in its range (R93 (c)). -/
def Instr.wellFormed : Instr → Bool
  | .putbits n _ => wellFormedCount n
  | .getbits n _ => wellFormedCount n
  | .ctset len code => wellFormedCode len code
  | .nop _ | .srst _ | .rd _ _ | .setme _ | .setorig _ | .setpred _ | .setsym _ => true
  | .resid _ | .quant _ | .dequant _ | .recon _ => true
  | .setwp _ | .setrp _ | .setrl _ | .stb _ _ | .ldb _ => true
  | .ctclr _ | .ctrd _ _ _ | .tclr _ | .tleaf _ _ | .tint _ _ _ | .trd _ _ _ => true
  | .cgen _ | .enc _ | .dec _ | .tser _ | .tdes _ => true

end Sys2Proof
end

