-- ==== Sys2Proof/Decode.lean ====
section
/-! DEFINITION. Decoding a (`CMD`, `DATA`) pair, and encoding one (spec/30_encoding.md R90 to R98). -/

namespace Sys2Proof

/-- The mnemonics of R92, in the order of its table. -/
inductive Mnemonic where
  | nop | srst | rd | setme | setorig | setpred | setsym | resid | quant | dequant | recon
  | setwp | setrp | setrl | putbits | getbits | stb | ldb
  | ctclr | ctset | ctrd | tclr | tleaf | tint | trd | cgen | enc | dec | tser | tdes
  deriving DecidableEq, Repr

/-- One row of the opcode map (R92): `w` spells the command when `w & mask = pattern`. -/
structure OpcodeRow where
  mnemonic : Mnemonic
  mask : Word
  pattern : Word
  deriving DecidableEq, Repr

/-- `op = CMD[31:24]` (R13, R90). -/
def opField (cmd : Word) : Byte := cmd.extractLsb' 24 8

/-- `f = CMD[23:16]` (R13, R90). -/
def fField (cmd : Word) : Byte := cmd.extractLsb' 16 8

/-- `idx = CMD[15:0]` (R13, R90). -/
def idxField (cmd : Word) : Half := cmd.extractLsb' 0 16

/-- The rows of R92 with `op` 0x00 to 0x13: control, operand loads, arithmetic. -/
def scalarRows : List OpcodeRow :=
  [ ⟨.nop, 0xFFFFFFFF#32, 0x00000000#32⟩,
    ⟨.srst, 0xFFFFFFFF#32, 0x01000000#32⟩,
    ⟨.rd, 0xFFFF0000#32, 0x02000000#32⟩,
    ⟨.setme, 0xFFFFFFFF#32, 0x08000000#32⟩,
    ⟨.setorig, 0xFFFFFFFF#32, 0x09000000#32⟩,
    ⟨.setpred, 0xFFFFFFFF#32, 0x0A000000#32⟩,
    ⟨.setsym, 0xFFFFFFFF#32, 0x0B000000#32⟩,
    ⟨.resid, 0xFFFFFFFF#32, 0x10000000#32⟩,
    ⟨.quant, 0xFFFFFFFF#32, 0x11000000#32⟩,
    ⟨.dequant, 0xFFFFFFFF#32, 0x12000000#32⟩,
    ⟨.recon, 0xFFFFFFFF#32, 0x13000000#32⟩ ]

/-- The rows of R92 with `op` 0x20 to 0x26: the bit-stream packer and unpacker. -/
def bitstreamRows : List OpcodeRow :=
  [ ⟨.setwp, 0xFFFFFFFF#32, 0x20000000#32⟩,
    ⟨.setrp, 0xFFFFFFFF#32, 0x21000000#32⟩,
    ⟨.setrl, 0xFFFFFFFF#32, 0x22000000#32⟩,
    ⟨.putbits, 0xFF00FFFF#32, 0x23000000#32⟩,
    ⟨.getbits, 0xFF00FFFF#32, 0x24000000#32⟩,
    ⟨.stb, 0xFF00FFFF#32, 0x25000000#32⟩,
    ⟨.ldb, 0xFFFFFFFF#32, 0x26000000#32⟩ ]

/-- The rows of R92 with `op` 0x30 to 0x41: code table, tree, serializer. -/
def treeRows : List OpcodeRow :=
  [ ⟨.ctclr, 0xFFFFFFFF#32, 0x30000000#32⟩,
    ⟨.ctset, 0xFF00FFFF#32, 0x31000000#32⟩,
    ⟨.ctrd, 0xFF000000#32, 0x32000000#32⟩,
    ⟨.tclr, 0xFFFFFFFF#32, 0x33000000#32⟩,
    ⟨.tleaf, 0xFFFF0000#32, 0x34000000#32⟩,
    ⟨.tint, 0xFFFF0000#32, 0x35000000#32⟩,
    ⟨.trd, 0xFF000000#32, 0x36000000#32⟩,
    ⟨.cgen, 0xFFFFFFFF#32, 0x37000000#32⟩,
    ⟨.enc, 0xFFFFFFFF#32, 0x38000000#32⟩,
    ⟨.dec, 0xFFFFFFFF#32, 0x39000000#32⟩,
    ⟨.tser, 0xFFFFFFFF#32, 0x40000000#32⟩,
    ⟨.tdes, 0xFFFFFFFF#32, 0x41000000#32⟩ ]

/-- The opcode map (R92). -/
def opcodeTable : List OpcodeRow := scalarRows ++ bitstreamRows ++ treeRows

/-- Why a pair spells no command: the three checks of R93, in its order. All three raise `IllegalCommand` (R271). -/
inductive DecodeError where
  /-- (a) `op` is not one of the thirty values of R92. -/
  | unassignedOp
  /-- (b) a field the command does not use is non-zero. -/
  | unusedFieldNonZero
  /-- (c) a live field is out of its range. -/
  | fieldOutOfRange
  deriving DecidableEq, Repr

/-- The register of a number, the selector of `RD` (10_state.md R20); there are no registers above 19. -/
def regOfNumber (n : Nat) : Option Reg :=
  [Reg.orig, .pred, .res, .sym, .apx, .recn, .maxerr, .out, .wptr, .rptr, .rlim, .ctn,
   .status, .finfo, .fdata, .cmdcnt, .bufBytes, .ctEntries, .treeNodes, .meEps][n]?

/-- The number of a register (10_state.md R20). -/
def regNumber : Reg → Nat
  | .orig => 0 | .pred => 1 | .res => 2 | .sym => 3 | .apx => 4 | .recn => 5 | .maxerr => 6 | .out => 7
  | .wptr => 8 | .rptr => 9 | .rlim => 10 | .ctn => 11 | .status => 12 | .finfo => 13 | .fdata => 14
  | .cmdcnt => 15 | .bufBytes => 16 | .ctEntries => 17 | .treeNodes => 18 | .meEps => 19

/-- The `CTRD` field of a selector (R91, R193). -/
def ctFieldOfNumber : Nat → Option CtField
  | 0 => some .len | 1 => some .sym | 2 => some .code | _ => none

/-- The selector of a `CTRD` field (R96). -/
def ctFieldNumber : CtField → Byte
  | .len => 0#8 | .sym => 1#8 | .code => 2#8

/-- The `TRD` field of a selector (R91, R197). -/
def treeFieldOfNumber : Nat → Option TreeField
  | 0 => some .kind | 1 => some .sym | 2 => some .kids | _ => none

/-- The selector of a `TRD` field (R96). -/
def treeFieldNumber : TreeField → Byte
  | .kind => 0#8 | .sym => 1#8 | .kids => 2#8

/-- The command of a mnemonic with its live fields (R91). `none`: a selector out of its range (R93 (c)). -/
def operandsOf (m : Mnemonic) (f : Byte) (idx : Half) (data : Word) : Option Instr :=
  match m with
  | .nop => some (.nop data)
  | .srst => some (.srst data)
  | .rd => (regOfNumber idx.toNat).map (.rd · data)
  | .setme => some (.setme data)
  | .setorig => some (.setorig data)
  | .setpred => some (.setpred data)
  | .setsym => some (.setsym data)
  | .resid => some (.resid data)
  | .quant => some (.quant data)
  | .dequant => some (.dequant data)
  | .recon => some (.recon data)
  | .setwp => some (.setwp data)
  | .setrp => some (.setrp data)
  | .setrl => some (.setrl data)
  | .putbits => some (.putbits f data)
  | .getbits => some (.getbits f data)
  | .stb => some (.stb f data)
  | .ldb => some (.ldb data)
  | .ctclr => some (.ctclr data)
  | .ctset => some (.ctset f data)
  | .ctrd => (ctFieldOfNumber f.toNat).map (.ctrd · idx data)
  | .tclr => some (.tclr data)
  | .tleaf => some (.tleaf idx data)
  | .tint => some (.tint idx (data.extractLsb' 16 16) (data.extractLsb' 0 16))
  | .trd => (treeFieldOfNumber f.toNat).map (.trd · idx data)
  | .cgen => some (.cgen data)
  | .enc => some (.enc data)
  | .dec => some (.dec data)
  | .tser => some (.tser data)
  | .tdes => some (.tdes data)

/-- Decoding, total on every pair (R93, R98): look `op` up; then `CMD & mask = match`; then the ranges. -/
def decode (cmd data : Word) : Except DecodeError Instr :=
  match opcodeTable.find? (fun row => opField row.pattern == opField cmd) with
  | none => .error .unassignedOp
  | some row =>
    if cmd &&& row.mask ≠ row.pattern then .error .unusedFieldNonZero
    else
      match operandsOf row.mnemonic (fField cmd) (idxField cmd) data with
      | none => .error .fieldOutOfRange
      | some i => if i.wellFormed then .ok i else .error .fieldOutOfRange

/-- A `CMD` word from its three fields (R90). -/
def cmdWord (op f : Byte) (idx : Half) : Word := op ++ f ++ idx

/-- The (`CMD`, `DATA`) pair of a command (R91, R92, R96). -/
def encode : Instr → Word × Word
  | .nop d => (cmdWord 0x00#8 0#8 0#16, d)
  | .srst d => (cmdWord 0x01#8 0#8 0#16, d)
  | .rd sel d => (cmdWord 0x02#8 0#8 (BitVec.ofNat 16 (regNumber sel)), d)
  | .setme v => (cmdWord 0x08#8 0#8 0#16, v)
  | .setorig v => (cmdWord 0x09#8 0#8 0#16, v)
  | .setpred v => (cmdWord 0x0A#8 0#8 0#16, v)
  | .setsym v => (cmdWord 0x0B#8 0#8 0#16, v)
  | .resid d => (cmdWord 0x10#8 0#8 0#16, d)
  | .quant d => (cmdWord 0x11#8 0#8 0#16, d)
  | .dequant d => (cmdWord 0x12#8 0#8 0#16, d)
  | .recon d => (cmdWord 0x13#8 0#8 0#16, d)
  | .setwp v => (cmdWord 0x20#8 0#8 0#16, v)
  | .setrp v => (cmdWord 0x21#8 0#8 0#16, v)
  | .setrl v => (cmdWord 0x22#8 0#8 0#16, v)
  | .putbits n v => (cmdWord 0x23#8 n 0#16, v)
  | .getbits n d => (cmdWord 0x24#8 n 0#16, d)
  | .stb byte addr => (cmdWord 0x25#8 byte 0#16, addr)
  | .ldb addr => (cmdWord 0x26#8 0#8 0#16, addr)
  | .ctclr d => (cmdWord 0x30#8 0#8 0#16, d)
  | .ctset len code => (cmdWord 0x31#8 len 0#16, code)
  | .ctrd field idx d => (cmdWord 0x32#8 (ctFieldNumber field) idx, d)
  | .tclr d => (cmdWord 0x33#8 0#8 0#16, d)
  | .tleaf idx sym => (cmdWord 0x34#8 0#8 idx, sym)
  | .tint idx left right => (cmdWord 0x35#8 0#8 idx, left ++ right)
  | .trd field idx d => (cmdWord 0x36#8 (treeFieldNumber field) idx, d)
  | .cgen d => (cmdWord 0x37#8 0#8 0#16, d)
  | .enc d => (cmdWord 0x38#8 0#8 0#16, d)
  | .dec d => (cmdWord 0x39#8 0#8 0#16, d)
  | .tser d => (cmdWord 0x40#8 0#8 0#16, d)
  | .tdes d => (cmdWord 0x41#8 0#8 0#16, d)

/-- The pair whose bits are `w`, numbered as spec/opcode_table.json numbers them: `CMD` in bits 31 to 0, `DATA` in bits
63 to 32; bits at and above `nbits` are 0. -/
def tablePair (nbits w : Nat) : Word × Word :=
  (BitVec.ofNat 32 (w % 2 ^ nbits), BitVec.ofNat 32 (w % 2 ^ nbits / 2 ^ 32))

/-- What the decoder reads from an instruction whose bits are `w`. -/
def decodeTableWord (nbits w : Nat) : Option Instr :=
  match decode (tablePair nbits w).1 (tablePair nbits w).2 with
  | .ok i => some i
  | .error _ => none

end Sys2Proof
end

