-- ==== Sys2Proof/Config.lean ====
section
/-! DEFINITION. What one block fixes: the parameters of spec/00_scope.md R8 and the free value of spec/10_state.md R38. -/

namespace Sys2Proof.Config

/-- The named parameters (R8). They are the read-only registers `x[16]` to `x[19]` (10_state.md R28). -/
structure Params where
  /-- bytes in `BUF` -/
  bufBytes : Word
  /-- entries in `CT` -/
  ctEntries : Word
  /-- nodes in `TREE` -/
  treeNodes : Word
  /-- near-zero threshold for `maxError`, a binary32 pattern (R9) -/
  meEps : Word
  deriving DecidableEq, Repr

/-- The defaults that every test vector of the spec uses (R8). Log 5. -/
def Params.default : Params where
  bufBytes := 4096#32
  ctEntries := 256#32
  treeNodes := 511#32
  meEps := 0x26901D7D#32

/-- The constraints of R8: the three sizes are in range, and `ME_EPS` is finite and greater than zero. -/
def Params.wf (p : Params) : Bool :=
  (1 ≤ p.bufBytes.toNat && p.bufBytes.toNat ≤ 2 ^ 28) &&
  (1 ≤ p.ctEntries.toNat && p.ctEntries.toNat ≤ 65536) &&
  (1 ≤ p.treeNodes.toNat && p.treeNodes.toNat ≤ 65536) &&
  (0 < p.meEps.toNat && p.meEps.toNat < 0x7F800000)

/-- `CODE_MAX`, the greatest codeword length (R7). -/
def codeMax : Nat := 32

/-- FREE VALUE. What byte `a` of `BUF` holds after power-on until it is first written: "some fixed 8-bit value that no
rule names, the same on every read until the byte is written" (10_state.md R38). It has no body: nothing can be proved
about its value. Log 3. -/
opaque powerOnByte : Nat → Byte

end Sys2Proof.Config
end

