-- ==== Sys2Proof/Machine/State.lean ====
section
/-! DEFINITION. The state of the block (spec/10_state.md R20 to R41) as plain data, and its state after power-on reset. -/

namespace Sys2Proof.Machine

/-- `BUF`: the bytes written since power-on, by address, addresses strictly rising. An address that is not listed has not
been written since power-on; what it reads as is `Config.powerOnByte` (R34, R38). Log 3. -/
abbrev Memory := List Host.Cell

/-- A valid entry of `CT` (R35). An entry with `valid = 0` is one that `State.ct` does not list. -/
structure CtEntry where
  sym : Word
  len : BitVec 6
  code : Word
  deriving DecidableEq, Repr

/-- A valid node of `TREE` (R36). A node of kind `Invalid` is one that `State.tree` does not list. -/
inductive Node where
  | leaf (sym : Word)
  | internal (left right : Half)
  deriving DecidableEq, Repr

/-- What the host does to the block (R5, R41, 70_reset_and_hazards.md R300). -/
inductive Delivery where
  /-- A (`CMD`, `DATA`) pair is delivered. -/
  | command (cmd data : Word)
  /-- The `reset` input is asserted. -/
  | reset
  deriving DecidableEq, Repr

/-- The causes of a fault of the block (60_exceptions.md R270). They are the block's exceptions, which it takes (R279):
no reason for the model to stop. -/
inductive Cause where
  | illegalCommand | emptyAlphabet | capacityExceeded | malformedContainer | quantRange | unknownSymbol | badTree
  deriving DecidableEq, Repr

/-- The complete state of the block between commands (R39), and the deliveries it has not taken yet.
`STATUS.WARN` is "not stored: a function of `MAXERR`" (R30, R33); it and the status word are in Flags.lean. -/
structure State where
  /-- `x[0]` `ORIG` -/
  orig : Word
  /-- `x[1]` `PRED` -/
  pred : Word
  /-- `x[2]` `RES` -/
  res : Word
  /-- `x[3]` `SYM` -/
  sym : Word
  /-- `x[4]` `APX` -/
  apx : Word
  /-- `x[5]` `REC` -/
  recn : Word
  /-- `x[6]` `MAXERR` -/
  maxerr : Word
  /-- `x[7]` `OUT` -/
  out : Word
  /-- `x[8]` `WPTR` -/
  wptr : Word
  /-- `x[9]` `RPTR` -/
  rptr : Word
  /-- `x[10]` `RLIM` -/
  rlim : Word
  /-- `x[11]` `CTN` -/
  ctn : Word
  /-- `x[12]` `STATUS[0]`, `FAULTED` -/
  faulted : Bool
  /-- `x[12]` `STATUS[7:4]`, `FCODE` -/
  fcode : BitVec 4
  /-- `x[13]` `FINFO` -/
  finfo : Word
  /-- `x[14]` `FDATA` -/
  fdata : Word
  /-- `x[15]` `CMDCNT` -/
  cmdcnt : Word
  /-- `x[16]` to `x[19]`, the read-only parameter registers (R28) -/
  params : Config.Params
  /-- `BUF` (R34) -/
  buf : Memory
  /-- `CT`, its valid entries by index, indices strictly rising (R35). Log 4. -/
  ct : List (Nat × CtEntry)
  /-- `TREE`, its valid nodes by index, indices strictly rising (R36). Log 4. -/
  tree : List (Nat × Node)
  /-- The model's own: what the host has delivered and the block not yet taken, oldest first. Log 1. -/
  inbox : List Delivery
  deriving DecidableEq, Repr

/-- Reasons for the machine to stop with a fault: none. "There is no fourth outcome: every (CMD, DATA) pair in every state
has exactly one of the three" (00_scope.md R15), and all three are next states. Log 7. -/
inductive Fault where
  deriving DecidableEq, Repr

/-- Reasons for the model to refuse. -/
inductive Refusal where
  /-- Raised by `exec`'s arm of an instruction that has no meaning yet; no arm raises it now. Safe: the model stops. -/
  | notModelled (mnemonic : String)
  deriving DecidableEq, Repr

/-- The state after power-on reset of a block with parameters `p` (R37, R38, R301): registers 0, `CT` and `TREE` empty,
nothing written in `BUF`, nothing delivered. -/
def State.powerOn (p : Config.Params) : State where
  orig := 0#32
  pred := 0#32
  res := 0#32
  sym := 0#32
  apx := 0#32
  recn := 0#32
  maxerr := 0#32
  out := 0#32
  wptr := 0#32
  rptr := 0#32
  rlim := 0#32
  ctn := 0#32
  faulted := false
  fcode := 0#4
  finfo := 0#32
  fdata := 0#32
  cmdcnt := 0#32
  params := p
  buf := []
  ct := []
  tree := []
  inbox := []

/-- The machine right after reset, with the default parameters (R8). Log 5. -/
def State.reset : State := State.powerOn Config.Params.default

end Sys2Proof.Machine
end

