-- ==== Sys2Proof/Machine/Cells.lean ====
section
/-! DEFINITION. Lists of (address, content) pairs in canonical form: the storage of `BUF`, `CT` and `TREE`. -/

namespace Sys2Proof.Machine

/-- What a list of cells holds at address `a`; `none` where it lists nothing. -/
def cellAt {α : Type} : List (Nat × α) → Nat → Option α
  | [], _ => none
  | (k, v) :: rest, a => if k = a then some v else cellAt rest a

/-- Put `v` at address `a`, in the place of what was there, keeping the addresses strictly rising. -/
def putCell {α : Type} : List (Nat × α) → Nat → α → List (Nat × α)
  | [], a, v => [(a, v)]
  | (k, w) :: rest, a, v =>
    if a < k then (a, v) :: (k, w) :: rest
    else if a = k then (a, v) :: rest
    else (k, w) :: putCell rest a v

/-- Every address listed is at least `low`, and addresses strictly rise. -/
def risingFrom {α : Type} : Nat → List (Nat × α) → Bool
  | _, [] => true
  | low, (k, _) :: rest => low ≤ k && risingFrom (k + 1) rest

/-- The canonical form of a list of cells: addresses strictly rising, hence none listed twice. -/
def cellsWf {α : Type} (cells : List (Nat × α)) : Bool := risingFrom 0 cells

/-- The canonical form of `BUF`'s memory. An unlisted address holds no written byte, so no listed entry can equal what an
unlisted address holds. Log 3. -/
def Memory.wf (m : Memory) : Bool := cellsWf m

/-- The least address from `i` on, among the next `n`, that is not listed. -/
def leastFree {α : Type} (cells : List (Nat × α)) : (n i : Nat) → Option Nat
  | 0, _ => none
  | n + 1, i =>
    match cellAt cells i with
    | none => some i
    | some _ => leastFree cells n (i + 1)

/-- Number a list of contents from `i` on: content `k` at address `i + k`. -/
def numberedFrom {α : Type} : Nat → List α → List (Nat × α)
  | _, [] => []
  | i, v :: rest => (i, v) :: numberedFrom (i + 1) rest

end Sys2Proof.Machine
end

