-- ==== Sys2Proof/Machine/Float.lean ====
section
/-! DEFINITION. The binary32 primitives of spec/41_residual_and_quantizer.md R140 to R148.

Every finite binary32 value is an integer multiple of 2^-149, the least subnormal. `valUnits w` is that integer:
`val(w) = valUnits w · 2^-149` (R140). A real number to be rounded is a fraction `r / d` of such units. Log 8. -/

namespace Sys2Proof.Machine

/-- binary32 2.0 (R14). -/
def two32 : Word := 0x40000000#32

/-- The canonical NaN (R14, R144). -/
def qnan : Word := 0x7FC00000#32

/-- Sign `s = w[31]` (R140). -/
def fsign (w : Word) : Bool := w.getLsbD 31

/-- Exponent `e = w[30:23]` (R140). -/
def fexp (w : Word) : Nat := (w.extractLsb' 23 8).toNat

/-- Fraction `m = w[22:0]` (R140). -/
def ffrac (w : Word) : Nat := (w.extractLsb' 0 23).toNat

/-- `e = 255 ∧ m ≠ 0` (R147). -/
def isNan32 (w : Word) : Bool := fexp w == 255 && ffrac w != 0

/-- `e = 255 ∧ m = 0` (R147). -/
def isInf32 (w : Word) : Bool := fexp w == 255 && ffrac w == 0

/-- `e = 0 ∧ m = 0` (R140). -/
def isZero32 (w : Word) : Bool := fexp w == 0 && ffrac w == 0

/-- `w AND 0x7FFFFFFF` (R147). -/
def fabs32 (w : Word) : Word := w &&& 0x7FFFFFFF#32

/-- The magnitude `|val(w)|` of a finite `w` in units of 2^-149 (R140): `m` when `e = 0`, else `(2^23 + m) · 2^(e-1)`. -/
def magUnits (w : Word) : Nat :=
  if fexp w = 0 then ffrac w else (2 ^ 23 + ffrac w) * 2 ^ (fexp w - 1)

/-- `val(w)` of a finite `w` in units of 2^-149 (R140). -/
def valUnits (w : Word) : Int := if fsign w then -(magUnits w : Int) else (magUnits w : Int)

/-- The pattern with sign `neg` and the bits 30 to 0 of `mag`. -/
def signedPattern (neg : Bool) (mag : Nat) : Word :=
  BitVec.ofBool neg ++ BitVec.ofNat 31 mag

/-- The zero with a sign (R140). -/
def zero32 (neg : Bool) : Word := signedPattern neg 0

/-- The infinity with a sign (R140). -/
def inf32 (neg : Bool) : Word := signedPattern neg 0x7F800000

/-- The integer nearest to `p / d`, ties to the even one (R141). -/
def nearestEven (p d : Nat) : Nat :=
  if 2 * (p % d) < d then p / d
  else if 2 * (p % d) > d then p / d + 1
  else p / d + p / d % 2

/-- `round32` (R141) of the real `r / d` units, `z` the sign of an exact zero. Magnitudes of at least
`(2^24 - 1/2) · 2^104` overflow to the infinity. Otherwise the grid at `r / d` has steps of `2^k` units, and patterns of
one sign count the grid points upwards from zero: the pattern of `n · 2^k` units is `k · 2^23 + n`. Its bit 0 is the parity
of `n`, so ties to even `n` are ties to `m[0] = 0`. -/
def round32 (r : Int) (d : Nat) (z : Bool) : Word :=
  if r = 0 then zero32 z
  else if 2 * r.natAbs ≥ (2 ^ 25 - 1) * 2 ^ 253 * d then inf32 (decide (r < 0))
  else
    let k := Nat.log2 (r.natAbs / d) - 23
    signedPattern (decide (r < 0)) (k * 2 ^ 23 + nearestEven r.natAbs (d * 2 ^ k))

/-- binary32 addition (R142). -/
def fadd32 (a b : Word) : Word :=
  if isNan32 a || isNan32 b then qnan
  else if isInf32 a && isInf32 b then (if fsign a = fsign b then a else qnan)
  else if isInf32 a then a
  else if isInf32 b then b
  else if isZero32 a && isZero32 b then zero32 (fsign a && fsign b)
  else round32 (valUnits a + valUnits b) 1 false

/-- binary32 subtraction (R142). -/
def fsub32 (a b : Word) : Word :=
  if isNan32 b then qnan else fadd32 a (b ^^^ 0x80000000#32)

/-- binary32 multiplication (R143). -/
def fmul32 (a b : Word) : Word :=
  if isNan32 a || isNan32 b then qnan
  else if (isZero32 a && isInf32 b) || (isInf32 a && isZero32 b) then qnan
  else if isInf32 a || isInf32 b then inf32 (fsign a != fsign b)
  else round32 (valUnits a * valUnits b) (2 ^ 149) (fsign a != fsign b)

/-- binary32 division (R145). -/
def fdiv32 (a b : Word) : Word :=
  if isNan32 a || isNan32 b then qnan
  else if (isZero32 a && isZero32 b) || (isInf32 a && isInf32 b) then qnan
  else if isInf32 a || isZero32 b then inf32 (fsign a != fsign b)
  else if isZero32 a || isInf32 b then zero32 (fsign a != fsign b)
  else
    round32 ((if fsign a = fsign b then 1 else -1) * ((magUnits a * 2 ^ 149 : Nat) : Int)) (magUnits b)
      (fsign a != fsign b)

/-- Conversion of a two's-complement word to binary32 (R146). -/
def i2f32 (w : Word) : Word := round32 (w.toInt * 2 ^ 149) 1 false

/-- The integer nearest to `val(w)`, halves away from zero: `sign · floor(|val(w)| + 1/2)` (R147). -/
def roundHalfAway (w : Word) : Int :=
  let n : Nat := (2 * magUnits w + 2 ^ 149) / 2 ^ 150
  if fsign w then -(n : Int) else (n : Int)

/-- `val(a) < val(b)`, false on a NaN, with -0 = +0 (R147). An infinity's `valUnits`, ±2^277, lies beyond every finite
value, so one comparison serves the extended reals. -/
def flt32 (a b : Word) : Bool :=
  !isNan32 a && !isNan32 b && decide (valUnits a < valUnits b)

end Sys2Proof.Machine
end

