-- ==== Sys2Proof/Machine/Flags.lean ====
section
/-! DEFINITION. The status register and the two output signals (spec/10_state.md R30 to R33, R41). -/

namespace Sys2Proof.Machine

/-- `FCODE` of a cause (60_exceptions.md R270, 10_state.md R32). -/
def causeCode : Cause → BitVec 4
  | .illegalCommand => 1#4
  | .emptyAlphabet => 2#4
  | .capacityExceeded => 3#4
  | .malformedContainer => 4#4
  | .quantRange => 5#4
  | .unknownSymbol => 6#4
  | .badTree => 7#4

/-- `STATUS.WARN`: `flt32(fabs32(MAXERR), ME_EPS)`, recomputed whenever read (R33). -/
def warn (s : State) : Bool := flt32 (fabs32 s.maxerr) s.params.meEps

/-- The `STATUS` word: bit 0 `FAULTED`, bit 1 `WARN`, bits 7:4 `FCODE`, the rest 0 (R30). -/
def statusWord (s : State) : Word :=
  0#24 ++ s.fcode ++ 0#2 ++ BitVec.ofBool (warn s) ++ BitVec.ofBool s.faulted

/-- The output `fault_o = STATUS[0]` (R30, R41). -/
def faultO (s : State) : Bool := (statusWord s).getLsbD 0

/-- The output `warn_o = STATUS[1]` (R30, R41). -/
def warnO (s : State) : Bool := (statusWord s).getLsbD 1

end Sys2Proof.Machine
end

