-- ==== Sys2Proof/Machine/Operands.lean ====
section
/-! DEFINITION. Every operand a command reads: registers, sizes, entries and nodes (spec/10_state.md R20, R28, R35, R36). -/

namespace Sys2Proof.Machine

/-- `x[sel]`, as `RD` reads it (R20, 40_control_and_data_movement.md R122). -/
def readReg (s : State) : Reg → Word
  | .orig => s.orig
  | .pred => s.pred
  | .res => s.res
  | .sym => s.sym
  | .apx => s.apx
  | .recn => s.recn
  | .maxerr => s.maxerr
  | .out => s.out
  | .wptr => s.wptr
  | .rptr => s.rptr
  | .rlim => s.rlim
  | .ctn => s.ctn
  | .status => statusWord s
  | .finfo => s.finfo
  | .fdata => s.fdata
  | .cmdcnt => s.cmdcnt
  | .bufBytes => s.params.bufBytes
  | .ctEntries => s.params.ctEntries
  | .treeNodes => s.params.treeNodes
  | .meEps => s.params.meEps

/-- `BUF_BYTES` as a number. -/
def bufBytes (s : State) : Nat := s.params.bufBytes.toNat

/-- `8*BUF_BYTES`, the number of bits of `BUF`. -/
def bufBits (s : State) : Nat := 8 * bufBytes s

/-- `CT_ENTRIES` as a number. -/
def ctEntries (s : State) : Nat := s.params.ctEntries.toNat

/-- `TREE_NODES` as a number. -/
def treeNodes (s : State) : Nat := s.params.treeNodes.toNat

/-- The valid node at index `n`: `none` when `n ≥ TREE_NODES` or `TREE[n].kind = Invalid`. -/
def nodeAt (s : State) (n : Nat) : Option Node :=
  if n < treeNodes s then cellAt s.tree n else none

/-- The valid entry of `CT` with symbol `y`, with its index (R35: there is at most one). -/
def entryOf (s : State) (y : Word) : Option (Nat × CtEntry) :=
  s.ct.find? (fun cell => cell.2.sym == y)

/-- What `CTRD` reads of an entry (43_huffman_table.md R193): 0 for an invalid one. -/
def ctFieldValue (e : Option CtEntry) (field : CtField) : Word :=
  match e, field with
  | none, _ => 0#32
  | some e, .len => e.len.setWidth 32
  | some e, .sym => e.sym
  | some e, .code => e.code

/-- What `TRD` reads of a node (43_huffman_table.md R197): 0 for a field that does not belong to the node's kind. -/
def treeFieldValue (n : Option Node) (field : TreeField) : Word :=
  match n, field with
  | none, .kind => 0#32
  | some (.leaf _), .kind => 1#32
  | some (.internal _ _), .kind => 2#32
  | some (.leaf sym), .sym => sym
  | some (.internal left right), .kids => left ++ right
  | none, .sym => 0#32
  | some (.internal _ _), .sym => 0#32
  | none, .kids => 0#32
  | some (.leaf _), .kids => 0#32

end Sys2Proof.Machine
end

