-- ==== Sys2Proof/Machine/Ops.lean ====
section
/-! DEFINITION. The shared operations: byte and bit accesses of `BUF` (spec/20_memory.md), fault entry and the common
behaviour of every command (spec/60_exceptions.md, spec/40_control_and_data_movement.md R119), reset. -/

namespace Sys2Proof.Machine

/-! ### `BUF` by byte and by bit -/

/-- `BUF[a]`: the byte last written there, else its power-on value (20_memory.md R72, 10_state.md R38). Log 3. -/
def byteAt (m : Memory) (a : Nat) : Byte := (cellAt m a).getD (Config.powerOnByte a)

/-- `MemWrite(a, 1, v)` (00_scope.md R12). -/
def putByte (m : Memory) (a : Nat) (v : Byte) : Memory := putCell m a v

/-- The bit at bit offset `q`: bit `q mod 8` of byte `q div 8` (20_memory.md R61). -/
def bitAt (m : Memory) (q : Nat) : Bool := (byteAt m (q / 8)).getLsbD (q % 8)

/-- `BUF[q div 8] & ((1 << (q mod 8)) - 1)`, the bits of the byte below offset `q`: none at the start of a byte, where
the byte's content is not looked at. -/
def keptBits (m : Memory) (q : Nat) : Byte :=
  if q % 8 = 0 then 0#8 else byteAt m (q / 8) &&& BitVec.ofNat 8 (2 ^ (q % 8) - 1)

/-- `Put1(q, b)` (20_memory.md R65): lower bits of the byte kept, bit `q mod 8` becomes `b`, higher bits become 0. -/
def putBit (m : Memory) (q : Nat) (b : Bool) : Memory :=
  putByte m (q / 8) (keptBits m q ||| ((BitVec.ofBool b).setWidth 8 <<< (q % 8)))

/-- Write the bits of a list at `p`, `p + 1`, … in that order (20_memory.md R65). -/
def writeBits (m : Memory) (p : Nat) : List Bool → Memory
  | [] => m
  | b :: rest => writeBits (putBit m p b) (p + 1) rest

/-- Bits 0 to `n - 1` of a word, least significant first (20_memory.md R62). -/
def bitsOf (n : Nat) (v : Word) : List Bool := (List.range n).map v.getLsbD

/-- `BitWrite(p, n, v)` (20_memory.md R65). -/
def bitWrite (m : Memory) (p n : Nat) (v : Word) : Memory := writeBits m p (bitsOf n v)

/-- The `n` bits at bit offsets `p`, `p + 1`, … in that order. -/
def readBits (m : Memory) (p n : Nat) : List Bool := (List.range n).map (fun k => bitAt m (p + k))

/-- The number whose binary digits are the list, least significant first. -/
def natOfBits : List Bool → Nat
  | [] => 0
  | b :: rest => b.toNat + 2 * natOfBits rest

/-- `BitRead(p, n)`: the bit at `p + k` becomes bit `k` of the result, the bits from `n` up are 0 (20_memory.md R64). -/
def bitRead (m : Memory) (p n : Nat) : Word := BitVec.ofNat 32 (natOfBits (readBits m p n))

/-! ### Faults, completion, reset -/

/-- Fault entry (60_exceptions.md R279): exactly these four writes. -/
def raiseFault (c : Cause) (cmd data : Word) (s : State) : State :=
  { s with faulted := true, fcode := causeCode c, finfo := cmd, fdata := data }

/-- Completion while not faulted: `CMDCNT <- u32(CMDCNT + 1)` (10_state.md R27, R119). -/
def complete (s : State) : State := { s with cmdcnt := s.cmdcnt + 1#32 }

/-- The common behaviour of every command but `SRST` and `RD` (R119): discarded while faulted (60_exceptions.md R280);
else its rule either answers the state after its writes, and the command completes, or a cause, and the command changes
nothing but the fault registers (R279). -/
def runCommand (i : Instr) (rule : State → Except Cause State) (s : State) : Host.Outcome State Fault Refusal :=
  if s.faulted then .next s
  else
    match rule s with
    | .ok t => .next (complete t)
    | .error c => .next (raiseFault c (encode i).1 (encode i).2 s)

/-- The reset of 10_state.md R37 (also 70_reset_and_hazards.md R300, R301): registers and fault state 0, `CT` and `TREE`
empty; `BUF` and the parameters unchanged. It is also the only return from the faulted state (60_exceptions.md R281). -/
def resetBlock (s : State) : State :=
  { s with
    orig := 0#32, pred := 0#32, res := 0#32, sym := 0#32, apx := 0#32, recn := 0#32, maxerr := 0#32, out := 0#32,
    wptr := 0#32, rptr := 0#32, rlim := 0#32, ctn := 0#32,
    faulted := false, fcode := 0#4, finfo := 0#32, fdata := 0#32, cmdcnt := 0#32,
    ct := [], tree := [] }

/-- A delivered pair that spells no command: `IllegalCommand` (30_encoding.md R93, 60_exceptions.md R271), discarded while
faulted (R280, 30_encoding.md R94). -/
def illegalCommand (cmd data : Word) (s : State) : State :=
  if s.faulted then s else raiseFault .illegalCommand cmd data s

end Sys2Proof.Machine
end

