-- ==== Sys2Proof/Machine/Arithmetic.lean ====
section
/-! DEFINITION. The residual calculator and the bounded-error quantizer (spec/41_residual_and_quantizer.md R150 to R153). -/

namespace Sys2Proof.Machine

/-- The bucket width `t = fmul32(TWO, MAXERR)` of `QUANT` and `DEQUANT` (R151, R152). -/
def bucketWidth (s : State) : Word := fmul32 two32 s.maxerr

/-- The symbol of a quotient `d`: `round_half_away(val(d))` if `d` is finite and the integer fits 32 bits, else
`QuantRange` (R151, 60_exceptions.md R275). -/
def bucketOf (d : Word) : Except Cause Word :=
  if isNan32 d || isInf32 d then .error .quantRange
  else if roundHalfAway d < -2 ^ 31 ∨ roundHalfAway d > 2 ^ 31 - 1 then .error .quantRange
  else .ok (BitVec.ofInt 32 (roundHalfAway d))

/-- `RESID` (R150). -/
def execResid (ignored : Word) (s : State) : Host.Outcome State Fault Refusal :=
  runCommand (.resid ignored) (fun s => .ok { s with res := fsub32 s.orig s.pred }) s

/-- The rule of `QUANT` (R151). -/
def quantRule (s : State) : Except Cause State :=
  match bucketOf (fdiv32 s.res (bucketWidth s)) with
  | .ok q => .ok { s with sym := q }
  | .error c => .error c

/-- `QUANT` (R151). -/
def execQuant (ignored : Word) (s : State) : Host.Outcome State Fault Refusal :=
  runCommand (.quant ignored) quantRule s

/-- `DEQUANT` (R152). -/
def execDequant (ignored : Word) (s : State) : Host.Outcome State Fault Refusal :=
  runCommand (.dequant ignored) (fun s => .ok { s with apx := fmul32 (i2f32 s.sym) (bucketWidth s) }) s

/-- `RECON` (R153). -/
def execRecon (ignored : Word) (s : State) : Host.Outcome State Fault Refusal :=
  runCommand (.recon ignored) (fun s => .ok { s with recn := fadd32 s.pred s.apx }) s

end Sys2Proof.Machine
end

