-- ==== Sys2Proof/Machine/Bitstream.lean ====
section
/-! DEFINITION. The bit-stream packer and unpacker (spec/42_bitstream.md R170 to R176). -/

namespace Sys2Proof.Machine

/-- The rule of `SETWP v` (R170). -/
def setwpRule (v : Word) (s : State) : Except Cause State :=
  if v.toNat > bufBits s then .error .capacityExceeded else .ok { s with wptr := v }

/-- `SETWP v` (R170). -/
def execSetwp (v : Word) (s : State) : Host.Outcome State Fault Refusal := runCommand (.setwp v) (setwpRule v) s

/-- The rule of `SETRP v` (R171). -/
def setrpRule (v : Word) (s : State) : Except Cause State :=
  if v.toNat > bufBits s then .error .capacityExceeded else .ok { s with rptr := v }

/-- `SETRP v` (R171). -/
def execSetrp (v : Word) (s : State) : Host.Outcome State Fault Refusal := runCommand (.setrp v) (setrpRule v) s

/-- The rule of `SETRL v` (R172). -/
def setrlRule (v : Word) (s : State) : Except Cause State :=
  if v.toNat > bufBits s then .error .capacityExceeded else .ok { s with rlim := v }

/-- `SETRL v` (R172). -/
def execSetrl (v : Word) (s : State) : Host.Outcome State Fault Refusal := runCommand (.setrl v) (setrlRule v) s

/-- The rule of `PUTBITS n, v` (R173). -/
def putbitsRule (n : Byte) (v : Word) (s : State) : Except Cause State :=
  if s.wptr.toNat + n.toNat > bufBits s then .error .capacityExceeded
  else .ok { s with
    buf := bitWrite s.buf s.wptr.toNat n.toNat v
    wptr := BitVec.ofNat 32 (s.wptr.toNat + n.toNat) }

/-- `PUTBITS n, v` (R173). -/
def execPutbits (n : Byte) (v : Word) (s : State) : Host.Outcome State Fault Refusal :=
  runCommand (.putbits n v) (putbitsRule n v) s

/-- The rule of `GETBITS n` (R174). -/
def getbitsRule (n : Byte) (s : State) : Except Cause State :=
  if s.rptr.toNat + n.toNat > s.rlim.toNat then .error .malformedContainer
  else .ok { s with
    out := bitRead s.buf s.rptr.toNat n.toNat
    rptr := BitVec.ofNat 32 (s.rptr.toNat + n.toNat) }

/-- `GETBITS n` (R174). -/
def execGetbits (n : Byte) (ignored : Word) (s : State) : Host.Outcome State Fault Refusal :=
  runCommand (.getbits n ignored) (getbitsRule n) s

/-- The rule of `STB addr, byte` (R175). -/
def stbRule (byte : Byte) (addr : Word) (s : State) : Except Cause State :=
  if addr.toNat ≥ bufBytes s then .error .capacityExceeded
  else .ok { s with buf := putByte s.buf addr.toNat byte }

/-- `STB addr, byte` (R175). -/
def execStb (byte : Byte) (addr : Word) (s : State) : Host.Outcome State Fault Refusal :=
  runCommand (.stb byte addr) (stbRule byte addr) s

/-- The rule of `LDB addr` (R176). -/
def ldbRule (addr : Word) (s : State) : Except Cause State :=
  if addr.toNat ≥ bufBytes s then .error .capacityExceeded
  else .ok { s with out := (byteAt s.buf addr.toNat).setWidth 32 }

/-- `LDB addr` (R176). -/
def execLdb (addr : Word) (s : State) : Host.Outcome State Fault Refusal := runCommand (.ldb addr) (ldbRule addr) s

end Sys2Proof.Machine
end

