-- ==== Sys2Proof/Machine/Control.lean ====
section
/-! DEFINITION. Control and operand-load commands (spec/40_control_and_data_movement.md R120 to R126). -/

namespace Sys2Proof.Machine

/-- `NOP` (R120). -/
def execNop (ignored : Word) (s : State) : Host.Outcome State Fault Refusal :=
  runCommand (.nop ignored) .ok s

/-- `SRST` (R121): executes in the faulted state too, and leaves `CMDCNT = 0`. -/
def execSrst (_ignored : Word) (s : State) : Host.Outcome State Fault Refusal := .next (resetBlock s)

/-- `RD sel` (R122): executes in the faulted state too, where it does not change `CMDCNT`. -/
def execRd (sel : Reg) (_ignored : Word) (s : State) : Host.Outcome State Fault Refusal :=
  if s.faulted then .next { s with out := readReg s sel }
  else .next (complete { s with out := readReg s sel })

/-- `SETME v` (R123): any pattern is stored. -/
def execSetme (v : Word) (s : State) : Host.Outcome State Fault Refusal :=
  runCommand (.setme v) (fun s => .ok { s with maxerr := v }) s

/-- `SETORIG v` (R124). -/
def execSetorig (v : Word) (s : State) : Host.Outcome State Fault Refusal :=
  runCommand (.setorig v) (fun s => .ok { s with orig := v }) s

/-- `SETPRED v` (R125). -/
def execSetpred (v : Word) (s : State) : Host.Outcome State Fault Refusal :=
  runCommand (.setpred v) (fun s => .ok { s with pred := v }) s

/-- `SETSYM v` (R126). -/
def execSetsym (v : Word) (s : State) : Host.Outcome State Fault Refusal :=
  runCommand (.setsym v) (fun s => .ok { s with sym := v }) s

end Sys2Proof.Machine
end

