-- ==== Sys2Proof/Machine/Huffman.lean ====
section
/-! DEFINITION. The Huffman code table and decision tree (spec/43_huffman_table.md R190 to R200). -/

namespace Sys2Proof.Machine

/-- `CTCLR` (R191). -/
def execCtclr (ignored : Word) (s : State) : Host.Outcome State Fault Refusal :=
  runCommand (.ctclr ignored) (fun s => .ok { s with ct := [], ctn := 0#32 }) s

/-- The entry that `CTSET len, code` makes for a symbol (R192). -/
def ctsetEntry (sym : Word) (len : Byte) (code : Word) : CtEntry :=
  { sym := sym, len := len.setWidth 6, code := code }

/-- The rule of `CTSET len, code` (R192): replace the entry of `SYM`, else take the least invalid one. -/
def ctsetRule (len : Byte) (code : Word) (s : State) : Except Cause State :=
  match entryOf s s.sym with
  | some (i, _) => .ok { s with ct := putCell s.ct i (ctsetEntry s.sym len code) }
  | none =>
    match leastFree s.ct (ctEntries s) 0 with
    | some i => .ok { s with ct := putCell s.ct i (ctsetEntry s.sym len code), ctn := s.ctn + 1#32 }
    | none => .error .capacityExceeded

/-- `CTSET len, code` (R192). -/
def execCtset (len : Byte) (code : Word) (s : State) : Host.Outcome State Fault Refusal :=
  runCommand (.ctset len code) (ctsetRule len code) s

/-- The rule of `CTRD i, field` (R193). -/
def ctrdRule (field : CtField) (i : Half) (s : State) : Except Cause State :=
  if i.toNat ≥ ctEntries s then .error .capacityExceeded
  else .ok { s with out := ctFieldValue (cellAt s.ct i.toNat) field }

/-- `CTRD i, field` (R193). -/
def execCtrd (field : CtField) (i : Half) (ignored : Word) (s : State) : Host.Outcome State Fault Refusal :=
  runCommand (.ctrd field i ignored) (ctrdRule field i) s

/-- `TCLR` (R194). -/
def execTclr (ignored : Word) (s : State) : Host.Outcome State Fault Refusal :=
  runCommand (.tclr ignored) (fun s => .ok { s with tree := [] }) s

/-- Store a node at an operand index (R195, R196; 20_memory.md R71 (e)). -/
def putNodeRule (i : Half) (n : Node) (s : State) : Except Cause State :=
  if i.toNat ≥ treeNodes s then .error .capacityExceeded
  else .ok { s with tree := putCell s.tree i.toNat n }

/-- `TLEAF i, sym` (R195). -/
def execTleaf (i : Half) (sym : Word) (s : State) : Host.Outcome State Fault Refusal :=
  runCommand (.tleaf i sym) (putNodeRule i (.leaf sym)) s

/-- `TINT i, left, right` (R196): the child indices are not checked. -/
def execTint (i : Half) (left right : Half) (s : State) : Host.Outcome State Fault Refusal :=
  runCommand (.tint i left right) (putNodeRule i (.internal left right)) s

/-- The rule of `TRD i, field` (R197). -/
def trdRule (field : TreeField) (i : Half) (s : State) : Except Cause State :=
  if i.toNat ≥ treeNodes s then .error .capacityExceeded
  else .ok { s with out := treeFieldValue (cellAt s.tree i.toNat) field }

/-- `TRD i, field` (R197). -/
def execTrd (field : TreeField) (i : Half) (ignored : Word) (s : State) : Host.Outcome State Fault Refusal :=
  runCommand (.trd field i ignored) (trdRule field i) s

/-! ### `CGEN` -/

/-- One child of R198's `walk`, at index `c` with path `p` to it: `depth` is the length of `p`. `descend` is the walk of an
internal child. The checks are in R198's order: valid node, duplicate symbol, table room. -/
def cgenChild (s : State) (depth : Nat) (descend : Half → Half → Word → List CtEntry → Except Cause (List CtEntry))
    (c : Half) (p : Word) (rows : List CtEntry) : Except Cause (List CtEntry) :=
  match nodeAt s c.toNat with
  | none => .error .badTree
  | some (.leaf sym) =>
    if rows.any (fun r => r.sym == sym) then .error .badTree
    else if rows.length = ctEntries s then .error .capacityExceeded
    else .ok (rows ++ [{ sym := sym, len := BitVec.ofNat 6 depth, code := p }])
  | some (.internal left right) => descend left right p rows

/-- R198's `walk(n, depth, path)` of an internal node with children `left` and `right`; `room = 32 - depth` is how much
longer a codeword may get. A child at depth 33 is `CapacityExceeded`. Left before right. -/
def cgenWalk (s : State) : (room : Nat) → Half → Half → Word → List CtEntry → Except Cause (List CtEntry)
  | 0, _, _, _, _ => .error .capacityExceeded
  | room + 1, left, right, path, rows =>
    match cgenChild s (Config.codeMax - room) (cgenWalk s room) left path rows with
    | .error c => .error c
    | .ok rows' =>
      cgenChild s (Config.codeMax - room) (cgenWalk s room) right
        (path ||| (1#32 <<< (Config.codeMax - 1 - room))) rows'

/-- The rows of the table `CGEN` makes, in preorder of the leaves (R198); a lone leaf has the one-bit code "0" (R201). -/
def cgenRows (s : State) : Except Cause (List CtEntry) :=
  match nodeAt s 0 with
  | none => .error .emptyAlphabet
  | some (.leaf sym) => .ok [{ sym := sym, len := 1#6, code := 0#32 }]
  | some (.internal left right) => cgenWalk s Config.codeMax left right 0#32 []

/-- The rule of `CGEN` (R198): `CT` is replaced only on success. -/
def cgenRule (s : State) : Except Cause State :=
  match cgenRows s with
  | .error c => .error c
  | .ok rows => .ok { s with ct := numberedFrom 0 rows, ctn := BitVec.ofNat 32 rows.length }

/-- `CGEN` (R198). -/
def execCgen (ignored : Word) (s : State) : Host.Outcome State Fault Refusal := runCommand (.cgen ignored) cgenRule s

/-! ### `ENC` and `DEC` -/

/-- The rule of `ENC` (R199). -/
def encRule (s : State) : Except Cause State :=
  if s.ctn = 0#32 then .error .emptyAlphabet
  else
    match entryOf s s.sym with
    | none => .error .unknownSymbol
    | some (_, e) =>
      if s.wptr.toNat + e.len.toNat > bufBits s then .error .capacityExceeded
      else .ok { s with
        buf := bitWrite s.buf s.wptr.toNat e.len.toNat e.code
        wptr := BitVec.ofNat 32 (s.wptr.toNat + e.len.toNat) }

/-- `ENC` (R199). -/
def execEnc (ignored : Word) (s : State) : Host.Outcome State Fault Refusal := runCommand (.enc ignored) encRule s

/-- R200's loop at an internal node with children `left` and `right` and read position `p`; `avail = RLIM - p` bits are
left. Answers the symbol and the position after its codeword. -/
def decWalk (s : State) : (avail : Nat) → (p : Nat) → Half → Half → Except Cause (Word × Nat)
  | 0, _, _, _ => .error .malformedContainer
  | avail + 1, p, left, right =>
    match nodeAt s (if bitAt s.buf p then right else left).toNat with
    | none => .error .badTree
    | some (.leaf sym) => .ok (sym, p + 1)
    | some (.internal l r) => decWalk s avail (p + 1) l r

/-- The symbol `DEC` decodes at `RPTR` and the position after it (R200). -/
def decSymbol (s : State) : Except Cause (Word × Nat) :=
  match nodeAt s 0 with
  | none => .error .emptyAlphabet
  | some (.leaf sym) =>
    if s.rptr.toNat + 1 > s.rlim.toNat then .error .malformedContainer else .ok (sym, s.rptr.toNat + 1)
  | some (.internal left right) => decWalk s (s.rlim.toNat - s.rptr.toNat) s.rptr.toNat left right

/-- The rule of `DEC` (R200): registers are written only at the end. -/
def decRule (s : State) : Except Cause State :=
  match decSymbol s with
  | .error c => .error c
  | .ok (sym, p) => .ok { s with sym := sym, rptr := BitVec.ofNat 32 p }

/-- `DEC` (R200). -/
def execDec (ignored : Word) (s : State) : Host.Outcome State Fault Refusal := runCommand (.dec ignored) decRule s

end Sys2Proof.Machine
end

