-- ==== Sys2Proof/Machine/Serializer.lean ====
section
/-! DEFINITION. The tree serializer and deserializer (spec/44_tree_serialization.md R220 to R222). -/

namespace Sys2Proof.Machine

/-- A serialized leaf: the marker 1, then the 32 bits of the symbol, least significant first (R220). -/
def leafBits (sym : Word) : List Bool := true :: bitsOf 32 sym

/-- R221's `emit` of the nodes of `pending`, in order, with `room` bits of the budget left: the bits appended to `S`.
An internal node puts its two children before the rest, so the order is preorder, left before right.
`visits` bounds the number of nodes visited; as every node takes a bit of the budget, `room + 1` visits are never used up
with nodes pending, and running out of visits is running out of room. Log 13. -/
def emitNodes (s : State) : (visits : Nat) → (room : Nat) → (pending : List Nat) → Except Cause (List Bool)
  | _, _, [] => .ok []
  | 0, _, _ :: _ => .error .capacityExceeded
  | visits + 1, room, n :: pending =>
    match nodeAt s n with
    | none => .error .badTree
    | some (.leaf sym) =>
      if room < 33 then .error .capacityExceeded
      else
        match emitNodes s visits (room - 33) pending with
        | .error c => .error c
        | .ok bits => .ok (leafBits sym ++ bits)
    | some (.internal left right) =>
      if room < 1 then .error .capacityExceeded
      else
        match emitNodes s visits (room - 1) (left.toNat :: right.toNat :: pending) with
        | .error c => .error c
        | .ok bits => .ok (false :: bits)

/-- The bits `TSER` writes (R221). -/
def tserBits (s : State) : Except Cause (List Bool) :=
  match nodeAt s 0 with
  | none => .error .emptyAlphabet
  | some _ => emitNodes s (bufBits s - s.wptr.toNat + 1) (bufBits s - s.wptr.toNat) [0]

/-- The rule of `TSER` (R221): `BUF` is written only on success; `OUT` receives the number of bits. -/
def tserRule (s : State) : Except Cause State :=
  match tserBits s with
  | .error c => .error c
  | .ok bits => .ok { s with
      buf := writeBits s.buf s.wptr.toNat bits
      out := BitVec.ofNat 32 bits.length
      wptr := BitVec.ofNat 32 (s.wptr.toNat + bits.length) }

/-- `TSER` (R221). -/
def execTser (ignored : Word) (s : State) : Host.Outcome State Fault Refusal := runCommand (.tser ignored) tserRule s

/-- The scratch of `TDES` (R222): the read position, the next node to fill, the nodes filled so far. -/
structure DesScratch where
  p : Nat
  next : Nat
  nodes : List (Nat × Node)
  deriving DecidableEq, Repr

/-- R222's `des()`: it fills node `next` and, for an internal node, then its subtrees; the index filled is the `next` it
was called with. `depth` bounds the nesting: a call nested `TREE_NODES` deep finds no free node, so at 0 the marker is
checked against `RLIM` and the node is `CapacityExceeded`, as on the other path with `next ≥ TREE_NODES`. Log 13. -/
def desNode (s : State) : (depth : Nat) → DesScratch → Except Cause DesScratch
  | 0, k => if k.p + 1 > s.rlim.toNat then .error .malformedContainer else .error .capacityExceeded
  | depth + 1, k =>
    if k.p + 1 > s.rlim.toNat then .error .malformedContainer
    else if k.next ≥ treeNodes s then .error .capacityExceeded
    else if bitAt s.buf k.p then
      if k.p + 1 + 32 > s.rlim.toNat then .error .malformedContainer
      else .ok
        { p := k.p + 33, next := k.next + 1, nodes := putCell k.nodes k.next (.leaf (bitRead s.buf (k.p + 1) 32)) }
    else
      match desNode s depth { p := k.p + 1, next := k.next + 1, nodes := k.nodes } with
      | .error c => .error c
      | .ok kl =>
        match desNode s depth kl with
        | .error c => .error c
        | .ok kr => .ok { kr with
            nodes := putCell kr.nodes k.next
              (.internal (BitVec.ofNat 16 (k.next + 1)) (BitVec.ofNat 16 kl.next)) }

/-- The rule of `TDES` (R222): `TREE` is replaced only on success; `OUT` receives the number of bits consumed. -/
def tdesRule (s : State) : Except Cause State :=
  match desNode s (treeNodes s) { p := s.rptr.toNat, next := 0, nodes := [] } with
  | .error c => .error c
  | .ok k => .ok { s with
      tree := k.nodes
      out := BitVec.ofNat 32 (k.p - s.rptr.toNat)
      rptr := BitVec.ofNat 32 k.p }

/-- `TDES` (R222). -/
def execTdes (ignored : Word) (s : State) : Host.Outcome State Fault Refusal := runCommand (.tdes ignored) tdesRule s

end Sys2Proof.Machine
end

