-- ==== Sys2Proof/Machine/Dispatch.lean ====
section
/-! DEFINITION. The meaning of every command: one arm per constructor of `Instr` (spec/30_encoding.md R92). -/

namespace Sys2Proof.Machine

def exec (i : Instr) (s : State) : Host.Outcome State Fault Refusal :=
  match i with
  | .nop ignored => Sys2Proof.Machine.execNop ignored s
  | .srst ignored => Sys2Proof.Machine.execSrst ignored s
  | .rd sel ignored => Sys2Proof.Machine.execRd sel ignored s
  | .setme v => Sys2Proof.Machine.execSetme v s
  | .setorig v => Sys2Proof.Machine.execSetorig v s
  | .setpred v => Sys2Proof.Machine.execSetpred v s
  | .setsym v => Sys2Proof.Machine.execSetsym v s
  | .resid ignored => Sys2Proof.Machine.execResid ignored s
  | .quant ignored => Sys2Proof.Machine.execQuant ignored s
  | .dequant ignored => Sys2Proof.Machine.execDequant ignored s
  | .recon ignored => Sys2Proof.Machine.execRecon ignored s
  | .setwp v => Sys2Proof.Machine.execSetwp v s
  | .setrp v => Sys2Proof.Machine.execSetrp v s
  | .setrl v => Sys2Proof.Machine.execSetrl v s
  | .putbits n v => Sys2Proof.Machine.execPutbits n v s
  | .getbits n ignored => Sys2Proof.Machine.execGetbits n ignored s
  | .stb byte addr => Sys2Proof.Machine.execStb byte addr s
  | .ldb addr => Sys2Proof.Machine.execLdb addr s
  | .ctclr ignored => Sys2Proof.Machine.execCtclr ignored s
  | .ctset len code => Sys2Proof.Machine.execCtset len code s
  | .ctrd field idx ignored => Sys2Proof.Machine.execCtrd field idx ignored s
  | .tclr ignored => Sys2Proof.Machine.execTclr ignored s
  | .tleaf idx sym => Sys2Proof.Machine.execTleaf idx sym s
  | .tint idx left right => Sys2Proof.Machine.execTint idx left right s
  | .trd field idx ignored => Sys2Proof.Machine.execTrd field idx ignored s
  | .cgen ignored => Sys2Proof.Machine.execCgen ignored s
  | .enc ignored => Sys2Proof.Machine.execEnc ignored s
  | .dec ignored => Sys2Proof.Machine.execDec ignored s
  | .tser ignored => Sys2Proof.Machine.execTser ignored s
  | .tdes ignored => Sys2Proof.Machine.execTdes ignored s

end Sys2Proof.Machine
end

