-- ==== Sys2Proof/Machine/Step.lean ====
section
/-! DEFINITION. One step: the block takes the oldest delivery (spec/00_scope.md R5, R15; spec/10_state.md R29). -/

namespace Sys2Proof.Machine

/-- Take the oldest delivery. With none the block is idle, "state constant" (60_exceptions.md R283, R292). A pair that
decodes runs; one that does not is `IllegalCommand` (R93). The `reset` input resets (70_reset_and_hazards.md R300).
Logs 1 and 2. -/
def step (s : State) : Host.Outcome State Fault Refusal :=
  match s.inbox with
  | [] => .next s
  | .reset :: rest => .next (resetBlock { s with inbox := rest })
  | .command cmd data :: rest =>
    match decode cmd data with
    | .ok i => exec i { s with inbox := rest }
    | .error _ => .next (illegalCommand cmd data { s with inbox := rest })

/-- `s` with the command whose bits are `w` (as spec/opcode_table.json numbers them) delivered, so that the next step takes
it. -/
def State.withFetchWord (s : State) (nbits w : Nat) : State :=
  { s with inbox := .command (tablePair nbits w).1 (tablePair nbits w).2 :: s.inbox }

end Sys2Proof.Machine
end

