-- ==== Sys2Proof/Machine/TreeShape.lean ====
section
/-! DEFINITION. Huffman trees as trees (spec/00_scope.md R16, spec/44_tree_serialization.md R220): what `TREE` holds when it
is well formed (spec/43_huffman_table.md R203), the codes of a tree and its serialized form. The machine does not use them;
the host's contracts and the claims do. -/

namespace Sys2Proof.Machine

/-- "a binary tree over symbols": `Leaf{symbol}` or `Internal{left, right}` (R16, R220). -/
inductive HTree where
  | leaf (sym : Word)
  | node (left right : HTree)
  deriving DecidableEq, Repr

/-- The leaves' symbols, left to right. -/
def treeSyms : HTree → List Word
  | .leaf sym => [sym]
  | .node l r => treeSyms l ++ treeSyms r

/-- The number of nodes. -/
def treeSize : HTree → Nat
  | .leaf _ => 1
  | .node l r => treeSize l + treeSize r + 1

/-- The number of edges on the longest root-to-leaf path. -/
def treeDepth : HTree → Nat
  | .leaf _ => 0
  | .node l r => max (treeDepth l) (treeDepth r) + 1

/-- `TREE` holds the tree at node `n`: every index reached names a valid node below `TREE_NODES` (R203). -/
def holdsTree (s : State) : Nat → HTree → Prop
  | n, .leaf sym => nodeAt s n = some (.leaf sym)
  | n, .node l r => ∃ a b : Half, nodeAt s n = some (.internal a b) ∧ holdsTree s a.toNat l ∧ holdsTree s b.toNat r

/-- Symbols with the path to their leaf, 0 = left, 1 = right, left to right; `path` leads to the tree (R190). -/
def codesFrom (path : List Bool) : HTree → List (Word × List Bool)
  | .leaf sym => [(sym, path)]
  | .node l r => codesFrom (path ++ [false]) l ++ codesFrom (path ++ [true]) r

/-- The document's `codes(tree)`; a lone leaf has the one-bit code "0" (R198, R201). -/
def treeCodes : HTree → List (Word × List Bool)
  | .leaf sym => [(sym, [false])]
  | .node l r => codesFrom [] (.node l r)

/-- The table entry of a symbol and its bitstring: `code[k] = b_k` (R190). -/
def codeEntry (c : Word × List Bool) : CtEntry :=
  { sym := c.1, len := BitVec.ofNat 6 c.2.length, code := BitVec.ofNat 32 (natOfBits c.2) }

/-- The serialized form of a tree (R220): 33 bits a leaf, 1 bit an internal node, preorder. -/
def treeBits : HTree → List Bool
  | .leaf sym => true :: bitsOf 32 sym
  | .node l r => false :: (treeBits l ++ treeBits r)

/-- The tree's nodes numbered in preorder from `i` on: the left child of `i` is `i + 1`, its right child follows its left
subtree (R222). -/
def preorderNodes (i : Nat) : HTree → List (Nat × Node)
  | .leaf sym => [(i, .leaf sym)]
  | .node l r =>
    (i, .internal (BitVec.ofNat 16 (i + 1)) (BitVec.ofNat 16 (i + 1 + treeSize l))) ::
      (preorderNodes (i + 1) l ++ preorderNodes (i + 1 + treeSize l) r)

/-! ### Where a walk stands

A walk in preorder that has come to some node has passed whole trees on the left of its way and has everything on the right
still before it. -/

/-- The way of a walk in preorder to a node, with what the walk has passed: it goes left at an internal node, or, past the
whole left subtree `passed`, right (R198, R221, R222). -/
inductive Way where
  | here
  | left (rest : Way)
  | right (passed : HTree) (rest : Way)
  deriving DecidableEq, Repr

/-- In `TREE` the way leads from node `n` to index `m`, and what it passes is there. Nothing is said of index `m` itself. -/
def leadsTo (s : State) : Way → Nat → Nat → Prop
  | .here, n, m => n = m
  | .left w, n, m => ∃ a b : Half, nodeAt s n = some (.internal a b) ∧ leadsTo s w a.toNat m
  | .right t w, n, m => ∃ a b : Half, nodeAt s n = some (.internal a b) ∧ holdsTree s a.toNat t ∧ leadsTo s w b.toNat m

/-- The symbols of the leaves passed, left to right. -/
def waySyms : Way → List Word
  | .here => []
  | .left w => waySyms w
  | .right t w => treeSyms t ++ waySyms w

/-- The number of edges from the start of the way to the deepest node passed or to its end. -/
def wayDepth : Way → Nat
  | .here => 0
  | .left w => wayDepth w + 1
  | .right t w => max (treeDepth t) (wayDepth w) + 1

/-- The serialized form of the nodes passed (R220). -/
def wayBits : Way → List Bool
  | .here => []
  | .left w => false :: wayBits w
  | .right t w => false :: (treeBits t ++ wayBits w)

/-- The number of nodes passed, the internal ones on the way among them. -/
def wayNodes : Way → Nat
  | .here => 0
  | .left w => wayNodes w + 1
  | .right t w => treeSize t + wayNodes w + 1

/-- In `TREE` the bits, 0 = left and 1 = right, lead from node `n` through internal nodes to index `m` (R200). Nothing is said
of index `m` itself. -/
def descendsTo (s : State) : List Bool → Nat → Nat → Prop
  | [], n, m => n = m
  | b :: bits, n, m => ∃ l r : Half, nodeAt s n = some (.internal l r) ∧ descendsTo s bits (if b then r else l).toNat m

end Sys2Proof.Machine
end

