-- ==== Sys2Proof/Safety.lean ====
section
/-! DEFINITION. What a well-kept state is (the invariants of spec/10_state.md R40 and the forms of the model's lists), and
the words the claims are stated in. -/

namespace Sys2Proof.Machine

/-! ### Invariants -/

/-- A valid entry of `CT`: `1 ≤ len ≤ 32` and `code[31:len] = 0` (R35, R40 (I3)). -/
abbrev entryWf (e : CtEntry) : Prop := 1 ≤ e.len.toNat ∧ e.len.toNat ≤ 32 ∧ e.code.toNat < 2 ^ e.len.toNat

/-- The state invariants of R40, (I1) to (I4), with the parameter ranges of 00_scope.md R8 and the canonical forms of the
lists that hold the three memories. (I5) holds of every `statusWord` by its making. -/
structure State.Inv (s : State) : Prop where
  params : s.params.wf = true
  wptrLe : s.wptr.toNat ≤ bufBits s
  rptrLe : s.rptr.toNat ≤ bufBits s
  rlimLe : s.rlim.toNat ≤ bufBits s
  ctnCounts : s.ctn.toNat = s.ct.length
  ctSymsDistinct : s.ct.Pairwise (fun a b => a.2.sym ≠ b.2.sym)
  ctEntriesWf : ∀ cell ∈ s.ct, entryWf cell.2
  clearRecord : s.faulted = false → s.fcode = 0#4 ∧ s.finfo = 0#32 ∧ s.fdata = 0#32
  faultCode : s.faulted = true → 1 ≤ s.fcode.toNat ∧ s.fcode.toNat ≤ 7
  bufForm : Memory.wf s.buf = true
  bufInside : ∀ cell ∈ s.buf, cell.1 < bufBytes s
  ctForm : cellsWf s.ct = true
  ctInside : ∀ cell ∈ s.ct, cell.1 < ctEntries s
  treeForm : cellsWf s.tree = true
  treeInside : ∀ cell ∈ s.tree, cell.1 < treeNodes s

/-! ### The words of the claims -/

/-- `s` after one more completed command that writes nothing else (R27). -/
def counted (s : State) : State := { s with cmdcnt := s.cmdcnt + 1#32 }

/-- `s` after fault entry with an `FCODE` by a command (60_exceptions.md R279). -/
def withFault (s : State) (code : BitVec 4) (i : Instr) : State :=
  { s with faulted := true, fcode := code, finfo := (encode i).1, fdata := (encode i).2 }

/-- The commands run from `s` to `t` one after the other, and none faults. -/
def runs : List Instr → State → State → Prop
  | [], s, t => t = s
  | i :: rest, s, t => ∃ u, exec i s = .next u ∧ u.faulted = false ∧ runs rest u t

/-- As many `DEC` as symbols run from `s` to `t`, none faults, and they give the symbols in order. -/
def decodesTo : List Word → State → State → Prop
  | [], s, t => t = s
  | y :: rest, s, t => ∃ u, exec (.dec 0#32) s = .next u ∧ u.faulted = false ∧ u.sym = y ∧ decodesTo rest u t

/-- `m'` is `m` after the bits are written at offset `p` (20_memory.md R65, R66): bit `k` of the list is at `p + k`; every
bit below `p` is kept; in the last byte touched the bits above the last one written are 0; bytes that hold none of the bits
are unchanged. -/
def wroteBits (m m' : Memory) (p : Nat) (bits : List Bool) : Prop :=
  (bits = [] → m' = m) ∧
  (∀ k (h : k < bits.length), bitAt m' (p + k) = bits[k]) ∧
  (∀ q, q < p → bitAt m' q = bitAt m q) ∧
  (bits ≠ [] → ∀ q, p + bits.length ≤ q → q / 8 = (p + bits.length - 1) / 8 → bitAt m' q = false) ∧
  (∀ a, a < p / 8 ∨ (p + bits.length - 1) / 8 < a → byteAt m' a = byteAt m a)

/-- The codeword of an entry as a bitstring (43_huffman_table.md R190). -/
def entryBits (e : CtEntry) : List Bool := (List.range e.len.toNat).map e.code.getLsbD

/-- The pair is refused by the block: delivered, it raises `IllegalCommand` (30_encoding.md R93, 60_exceptions.md R271,
R279), and a faulted block discards it (R280, 30_encoding.md R94). -/
def rejected (cmd data : Word) : Prop :=
  ∀ (s : State) (rest : List Delivery), s.inbox = .command cmd data :: rest →
    (s.faulted = false →
      step s = .next { s with inbox := rest, faulted := true, fcode := 1#4, finfo := cmd, fdata := data }) ∧
    (s.faulted = true → step s = .next { s with inbox := rest })

/-- A command without live fields in `CMD` is spelled by `cmd`, and every other word with its `op` is refused; `DATA` goes
to `make` (30_encoding.md R92, R93). -/
def spelledBy (cmd : Word) (make : Word → Instr) : Prop :=
  (∀ data, decode cmd data = .ok (make data)) ∧
  ∀ cmd' data, opField cmd' = opField cmd → cmd' ≠ cmd → rejected cmd' data

end Sys2Proof.Machine
end

