-- ==== Sys2Proof/Certificates/Slice0/Obligations.lean ====
section
/-! DEFINITION. The statements for the provers: what the rules of spec/ say the commands and the block do. -/

open Sys2Proof Sys2Proof.Machine

/-! ## Encoding -/

/-- Decoding gives back every well-formed command that was encoded, with every operand (R91, R92, R98). -/
def Obligations.DecodeInvertsEncode : Prop :=
  ∀ i : Instr, i.wellFormed = true → decode (encode i).1 (encode i).2 = .ok i

/-- A pair that decodes is the encoding of what it decodes to: no bit of a legal pair is dropped (R91, R92, R98). -/
def Obligations.EncodeInvertsDecode : Prop :=
  ∀ (cmd data : Word) (i : Instr), decode cmd data = .ok i → encode i = (cmd, data)

/-- The thirty values of `op` (R92). -/
def Sys2Proof.Machine.assignedOps : List Nat :=
  [0x00, 0x01, 0x02, 0x08, 0x09, 0x0A, 0x0B, 0x10, 0x11, 0x12, 0x13, 0x20, 0x21, 0x22, 0x23, 0x24, 0x25, 0x26] ++
    [0x30, 0x31, 0x32, 0x33, 0x34, 0x35, 0x36, 0x37, 0x38, 0x39, 0x40, 0x41]

/-- The conditions (a), (b), (c) of R93, in its words, of the three fields of `CMD` and of `DATA`. -/
abbrev Sys2Proof.Machine.fieldsSpellNothing (op f idx : Nat) (data : Word) : Prop :=
  op ∉ assignedOps ∨
  (f ≠ 0 ∧ op ∉ [0x23, 0x24, 0x25, 0x31, 0x32, 0x36]) ∨
  (idx ≠ 0 ∧ op ∉ [0x02, 0x32, 0x34, 0x35, 0x36]) ∨
  (op = 0x02 ∧ 19 < idx) ∨
  ((op = 0x23 ∨ op = 0x24) ∧ 32 < f) ∨
  (op = 0x31 ∧ (f = 0 ∨ 32 < f)) ∨
  (op = 0x31 ∧ f < 32 ∧ data >>> f ≠ 0#32) ∨
  ((op = 0x32 ∨ op = 0x36) ∧ 2 < f)

/-- The pair meets a condition of R93. -/
abbrev Sys2Proof.Machine.spellsNothing (cmd data : Word) : Prop :=
  fieldsSpellNothing (opField cmd).toNat (fField cmd).toNat (idxField cmd).toNat data

/-- R93: a delivered pair raises `IllegalCommand` when one of its conditions holds, before any other check; an index in the
encoding range but beyond the structure's size is no encoding error but `CapacityExceeded`, and a command that decodes never
records `IllegalCommand`. -/
def Obligations.IllegalCommandExactlyOnWrongFields : Prop :=
  (∀ (s : State) (cmd data : Word) (rest : List Delivery), s.inbox = .command cmd data :: rest → s.faulted = false →
    (spellsNothing cmd data →
      step s = .next { s with inbox := rest, faulted := true, fcode := 1#4, finfo := cmd, fdata := data }) ∧
    (¬ spellsNothing cmd data → ∃ i, decode cmd data = .ok i ∧ step s = exec i { s with inbox := rest })) ∧
  (∀ (s : State) (idx : Half) (d : Word) (l r : Half) (cf : CtField) (tf : TreeField), s.faulted = false →
    (treeNodes s ≤ idx.toNat →
      exec (.tleaf idx d) s = .next (withFault s 3#4 (.tleaf idx d)) ∧
      exec (.tint idx l r) s = .next (withFault s 3#4 (.tint idx l r)) ∧
      exec (.trd tf idx d) s = .next (withFault s 3#4 (.trd tf idx d))) ∧
    (ctEntries s ≤ idx.toNat → exec (.ctrd cf idx d) s = .next (withFault s 3#4 (.ctrd cf idx d)))) ∧
  (∀ (i : Instr) (s t : State), s.faulted = false → exec i s = .next t → t.faulted = true → t.fcode ≠ 1#4)

/-- Words written out from R92 and R96, some of every family, decode to the commands they stand for. -/
def Obligations.SpelledWordsDecode : Prop :=
  decode 0x00000000#32 0#32 = .ok (.nop 0#32) ∧
  decode 0x0200000C#32 0#32 = .ok (.rd .status 0#32) ∧
  decode 0x08000000#32 0x3C23D70A#32 = .ok (.setme 0x3C23D70A#32) ∧
  decode 0x11000000#32 0#32 = .ok (.quant 0#32) ∧
  decode 0x23070000#32 0x55#32 = .ok (.putbits 7#8 0x55#32) ∧
  decode 0x25A50000#32 0xFFF#32 = .ok (.stb 0xA5#8 0xFFF#32) ∧
  decode 0x31030000#32 3#32 = .ok (.ctset 3#8 3#32) ∧
  decode 0x32020005#32 0#32 = .ok (.ctrd .code 5#16 0#32) ∧
  decode 0x35000001#32 0x00020003#32 = .ok (.tint 1#16 2#16 3#16) ∧
  decode 0x36010008#32 0#32 = .ok (.trd .sym 8#16 0#32) ∧
  decode 0x40000000#32 0#32 = .ok (.tser 0#32)

/-! ## The step -/

/-- A delivered pair that decodes runs: the step takes it from the host and is `exec` of it. -/
def Obligations.StepRunsDecodedCommand : Prop :=
  ∀ (s : State) (cmd data : Word) (rest : List Delivery) (i : Instr),
    s.inbox = .command cmd data :: rest → decode cmd data = .ok i → step s = exec i { s with inbox := rest }

/-- Without a command: nothing delivered leaves the state constant (R283, R292; the list of deliveries is the model's, log
1), and the `reset` input gives the state of R301 with `BUF` and the parameters as they were. -/
def Obligations.StepWithoutCommand : Prop :=
  (∀ s : State, s.inbox = [] → step s = .next s) ∧
  (∀ (s : State) (rest : List Delivery), s.inbox = .reset :: rest →
    step s = .next { State.powerOn s.params with buf := s.buf, inbox := rest })

/-- Every step answers a next state: nothing stops the block (R15). -/
def Obligations.EveryStepAnswersANextState : Prop := ∀ s : State, ∃ t, step s = .next t

/-- R280: while `FAULTED = 1` a legal `RD` writes `OUT` and nothing else, a legal `SRST` resets, and every other word is
discarded. -/
def Obligations.FaultedBlockRunsOnlyRdAndSrst : Prop :=
  ∀ (s : State) (cmd data : Word) (rest : List Delivery), s.faulted = true → s.inbox = .command cmd data :: rest →
    (∀ sel d, decode cmd data = .ok (.rd sel d) →
      step s = .next { s with inbox := rest, out := readReg s sel }) ∧
    (∀ d, decode cmd data = .ok (.srst d) →
      step s = .next { State.powerOn s.params with buf := s.buf, inbox := rest }) ∧
    ((∀ sel d, decode cmd data ≠ .ok (.rd sel d)) → (∀ d, decode cmd data ≠ .ok (.srst d)) →
      step s = .next { s with inbox := rest })

/-- R279: a command that faults writes `FAULTED`, `FCODE`, `FINFO`, `FDATA` and nothing else, whichever command it is. -/
def Obligations.FaultEntryWritesOnlyTheRecord : Prop :=
  ∀ (s t : State) (cmd data : Word) (rest : List Delivery),
    s.faulted = false → s.inbox = .command cmd data :: rest → step s = .next t → t.faulted = true →
    ∃ c : Cause, t = { s with inbox := rest, faulted := true, fcode := causeCode c, finfo := cmd, fdata := data }

/-- R27: a command that completes while not faulted adds 1 to `CMDCNT`; one that faults adds nothing; while faulted nothing
changes it but `SRST`, which, like the `reset` input, sets it to 0. -/
def Obligations.CompletedCommandsAreCounted : Prop :=
  ∀ (s t : State) (cmd data : Word) (rest : List Delivery), s.inbox = .command cmd data :: rest → step s = .next t →
    ((∃ d, decode cmd data = .ok (.srst d)) → t.cmdcnt = 0#32) ∧
    ((∀ d, decode cmd data ≠ .ok (.srst d)) →
      (s.faulted = false → t.faulted = false → t.cmdcnt = s.cmdcnt + 1#32) ∧
      (t.faulted = true → t.cmdcnt = s.cmdcnt))

/-- R31: `FAULTED` is sticky. A faulted block stays faulted, with the same `FCODE`, `FINFO`, `FDATA`, unless the step takes
the `reset` input or a legal `SRST`. -/
def Obligations.OnlyResetLeavesTheFaultedState : Prop :=
  ∀ s t : State, s.faulted = true → step s = .next t →
    (t.faulted = true ∧ t.fcode = s.fcode ∧ t.finfo = s.finfo ∧ t.fdata = s.fdata) ∨
    (∃ rest, s.inbox = .reset :: rest) ∨
    (∃ cmd data rest d, s.inbox = .command cmd data :: rest ∧ decode cmd data = .ok (.srst d))

/-- R28: the parameter registers return the parameters, faulted or not, and no step writes them. -/
def Obligations.ParametersNeverChange : Prop :=
  (∀ s t : State, step s = .next t → t.params = s.params) ∧
  ∀ (s : State) (d : Word),
    (∃ t, exec (.rd .bufBytes d) s = .next t ∧ t.out = s.params.bufBytes) ∧
    (∃ t, exec (.rd .ctEntries d) s = .next t ∧ t.out = s.params.ctEntries) ∧
    (∃ t, exec (.rd .treeNodes d) s = .next t ∧ t.out = s.params.treeNodes) ∧
    (∃ t, exec (.rd .meEps d) s = .next t ∧ t.out = s.params.meEps)

/-! ## Invariants -/

/-- Every step keeps the invariants of R40 and the canonical forms of the model's lists (logs 3 and 4). -/
def Obligations.EveryStepKeepsTheInvariant : Prop :=
  ∀ s t : State, s.Inv → step s = .next t → t.Inv

/-- The invariants hold after power-on reset, for every choice of parameters that R8 allows. -/
def Obligations.ResetMeetsTheInvariant : Prop :=
  (∀ p : Config.Params, p.wf = true → (State.powerOn p).Inv) ∧ State.reset.Inv

/-- The commands R20 lists as writers of a register or 10_state.md R34 to R36 as writers of a memory. -/
def Sys2Proof.Machine.writes : Instr → List Reg × (Bool × Bool × Bool)
  | .nop _ => ([], (false, false, false))
  | .srst _ => ([], (false, false, false))
  | .rd _ _ => ([.out], (false, false, false))
  | .setme _ => ([.maxerr], (false, false, false))
  | .setorig _ => ([.orig], (false, false, false))
  | .setpred _ => ([.pred], (false, false, false))
  | .setsym _ => ([.sym], (false, false, false))
  | .resid _ => ([.res], (false, false, false))
  | .quant _ => ([.sym], (false, false, false))
  | .dequant _ => ([.apx], (false, false, false))
  | .recon _ => ([.recn], (false, false, false))
  | .setwp _ => ([.wptr], (false, false, false))
  | .setrp _ => ([.rptr], (false, false, false))
  | .setrl _ => ([.rlim], (false, false, false))
  | .putbits _ _ => ([.wptr], (true, false, false))
  | .getbits _ _ => ([.out, .rptr], (false, false, false))
  | .stb _ _ => ([], (true, false, false))
  | .ldb _ => ([.out], (false, false, false))
  | .ctclr _ => ([.ctn], (false, true, false))
  | .ctset _ _ => ([.ctn], (false, true, false))
  | .ctrd _ _ _ => ([.out], (false, false, false))
  | .tclr _ => ([], (false, false, true))
  | .tleaf _ _ => ([], (false, false, true))
  | .tint _ _ _ => ([], (false, false, true))
  | .trd _ _ _ => ([.out], (false, false, false))
  | .cgen _ => ([.ctn], (false, true, false))
  | .enc _ => ([.wptr], (true, false, false))
  | .dec _ => ([.sym, .rptr], (false, false, false))
  | .tser _ => ([.out, .wptr], (true, false, false))
  | .tdes _ => ([.out, .rptr], (false, false, true))

/-- The frame of every command but `SRST` that does not fault: a register or memory that R20 and R34 to R36 do not list it
as a writer of is unchanged; `STATUS` follows `MAXERR`, and `CMDCNT` is counted. That `SRST` is left out of R20's column and
resets them all (R121) is log 10. -/
def Obligations.OnlyListedCommandsWrite : Prop :=
  ∀ (i : Instr) (s t : State), (∀ d, i ≠ .srst d) → exec i s = .next t → t.faulted = s.faulted →
    (∀ r : Reg, r ∉ (writes i).1 → r ≠ .cmdcnt → (r = .status → Reg.maxerr ∉ (writes i).1) →
      readReg t r = readReg s r) ∧
    ((writes i).2.1 = false → t.buf = s.buf) ∧
    ((writes i).2.2.1 = false → t.ct = s.ct) ∧
    ((writes i).2.2.2 = false → t.tree = s.tree) ∧
    t.fcode = s.fcode ∧ t.inbox = s.inbox

/-- R30: the layout of `STATUS`. -/
def Obligations.StatusWordLayout : Prop :=
  ∀ s : State,
    (statusWord s).getLsbD 0 = s.faulted ∧
    (statusWord s).getLsbD 1 = warn s ∧
    (∀ k, k < 4 → (statusWord s).getLsbD (4 + k) = s.fcode.getLsbD k) ∧
    (∀ k, k = 2 ∨ k = 3 ∨ 8 ≤ k → (statusWord s).getLsbD k = false) ∧
    faultO s = s.faulted ∧ warnO s = warn s

/-- `WARN` is 1 exactly when `MAXERR` is no NaN and its magnitude is below `ME_EPS` (R33): since the patterns of one sign
count upwards with the values they denote, that is when the pattern without its sign is below the pattern of `ME_EPS`. -/
def Obligations.WarnExactlyBelowTheThreshold : Prop :=
  ∀ s : State, s.params.wf = true →
    (warn s = true ↔ (s.maxerr &&& 0x7FFFFFFF#32).toNat < s.params.meEps.toNat)

/-! ## Control and operand loads -/

/-- R120: `NOP` only counts. -/
def Obligations.NopOnlyCounts : Prop :=
  spelledBy 0x00000000#32 .nop ∧
  (∀ (s : State) (d : Word), s.faulted = false → exec (.nop d) s = .next { s with cmdcnt := s.cmdcnt + 1#32 }) ∧
  (∀ (s : State) (d : Word), s.faulted = true → exec (.nop d) s = .next s)

/-- R121: `SRST` performs the reset of R37 in every state; `BUF` and the parameters stay; `STATUS` then reads 2, `WARN`
alone, with parameters that R8 allows. -/
def Obligations.SrstGivesTheResetState : Prop :=
  spelledBy 0x01000000#32 .srst ∧
  ∀ (s : State) (d : Word), ∃ t, exec (.srst d) s = .next t ∧
    t = { s with
      orig := 0#32, pred := 0#32, res := 0#32, sym := 0#32, apx := 0#32, recn := 0#32, maxerr := 0#32, out := 0#32,
      wptr := 0#32, rptr := 0#32, rlim := 0#32, ctn := 0#32, finfo := 0#32, fdata := 0#32, cmdcnt := 0#32,
      faulted := false, fcode := 0#4, ct := [], tree := [] } ∧
    (s.params.wf = true → statusWord t = 2#32)

/-- The register file of R20 by number, with the `STATUS` word of R30. -/
def Sys2Proof.Machine.registerFile (s : State) : List Word :=
  [s.orig, s.pred, s.res, s.sym, s.apx, s.recn, s.maxerr, s.out, s.wptr, s.rptr, s.rlim, s.ctn, statusWord s] ++
    [s.finfo, s.fdata, s.cmdcnt, s.params.bufBytes, s.params.ctEntries, s.params.treeNodes, s.params.meEps]

/-- R122: `RD sel` copies register `sel` to `OUT`; it counts while not faulted and executes, without counting, while
faulted. -/
def Obligations.RdCopiesTheRegister : Prop :=
  (∀ (n : Nat) (d : Word), n ≤ 19 → ∃ sel, decode (cmdWord 0x02#8 0#8 (BitVec.ofNat 16 n)) d = .ok (.rd sel d) ∧
    ∀ s : State,
      (s.faulted = false → exec (.rd sel d) s =
        .next { s with out := (registerFile s).getD n 0#32, cmdcnt := s.cmdcnt + 1#32 }) ∧
      (s.faulted = true → exec (.rd sel d) s = .next { s with out := (registerFile s).getD n 0#32 })) ∧
  (∀ cmd d, opField cmd = 0x02#8 → (fField cmd ≠ 0#8 ∨ 19 < (idxField cmd).toNat) → rejected cmd d)

/-- R123 to R126: the operand loads store `DATA`, any pattern of it, and nothing else; after `SETME` the flag `WARN` is that
of the new `MAXERR`. -/
def Obligations.OperandLoadsStoreData : Prop :=
  spelledBy 0x08000000#32 .setme ∧ spelledBy 0x09000000#32 .setorig ∧ spelledBy 0x0A000000#32 .setpred ∧
  spelledBy 0x0B000000#32 .setsym ∧
  ∀ (s : State) (v : Word), s.faulted = false →
    (∃ t, exec (.setme v) s = .next t ∧ t = { s with maxerr := v, cmdcnt := s.cmdcnt + 1#32 } ∧
      (statusWord t).getLsbD 1 = flt32 (fabs32 v) s.params.meEps) ∧
    exec (.setorig v) s = .next { s with orig := v, cmdcnt := s.cmdcnt + 1#32 } ∧
    exec (.setpred v) s = .next { s with pred := v, cmdcnt := s.cmdcnt + 1#32 } ∧
    exec (.setsym v) s = .next { s with sym := v, cmdcnt := s.cmdcnt + 1#32 }

/-! ## Residual calculator and quantizer -/

/-- R150, R152, R153: `RESID`, `DEQUANT` and `RECON` complete whatever their operands. -/
def Obligations.ResidDequantReconCompute : Prop :=
  spelledBy 0x10000000#32 .resid ∧ spelledBy 0x12000000#32 .dequant ∧ spelledBy 0x13000000#32 .recon ∧
  ∀ (s : State) (d : Word), s.faulted = false →
    exec (.resid d) s = .next { s with res := fsub32 s.orig s.pred, cmdcnt := s.cmdcnt + 1#32 } ∧
    exec (.dequant d) s = .next { s with
      apx := fmul32 (i2f32 s.sym) (fmul32 0x40000000#32 s.maxerr), cmdcnt := s.cmdcnt + 1#32 } ∧
    exec (.recon d) s = .next { s with recn := fadd32 s.pred s.apx, cmdcnt := s.cmdcnt + 1#32 }

/-- R151: `QUANT` stores the rounded quotient, or raises `QuantRange` when it has no 32-bit integer value. -/
def Obligations.QuantStoresTheBucket : Prop :=
  spelledBy 0x11000000#32 .quant ∧
  ∀ (s : State) (d q : Word), s.faulted = false → q = fdiv32 s.res (fmul32 0x40000000#32 s.maxerr) →
    (isNan32 q = false → isInf32 q = false → -2 ^ 31 ≤ roundHalfAway q → roundHalfAway q ≤ 2 ^ 31 - 1 →
      exec (.quant d) s = .next { s with sym := BitVec.ofInt 32 (roundHalfAway q), cmdcnt := s.cmdcnt + 1#32 }) ∧
    (isNan32 q = true ∨ isInf32 q = true ∨ roundHalfAway q < -2 ^ 31 ∨ 2 ^ 31 - 1 < roundHalfAway q →
      exec (.quant d) s = .next (withFault s 5#4 (.quant d)))

/-- With `MAXERR = ±0` the quantizer has no bucket to give, whatever the residual: `QuantRange` (R151, R275,
90_conflicts.md C4). -/
def Obligations.ZeroMaxErrorFaultsQuant : Prop :=
  ∀ (s : State) (d : Word), s.faulted = false → s.maxerr = 0#32 ∨ s.maxerr = 0x80000000#32 →
    exec (.quant d) s = .next (withFault s 5#4 (.quant d))

/-- `round32` of R141 on the reals the rules round, which are fractions `r / d` of 2^-149 (log 8): it gives the nearest finite value, the even pattern on a tie, the infinity from (2^24 - 1/2)·2^104 on, and
the sign of the real also to a result that rounds to zero; an exact zero takes the sign `z`. -/
def Obligations.RoundsToNearestTiesToEven : Prop :=
  ∀ (r : Int) (d : Nat) (z : Bool), 0 < d →
    (r = 0 → round32 r d z = if z then 0x80000000#32 else 0#32) ∧
    (r ≠ 0 → (2 ^ 25 - 1) * 2 ^ 253 * d ≤ 2 * r.natAbs →
      round32 r d z = if r < 0 then 0xFF800000#32 else 0x7F800000#32) ∧
    (r ≠ 0 → 2 * r.natAbs < (2 ^ 25 - 1) * 2 ^ 253 * d →
      fexp (round32 r d z) < 255 ∧ fsign (round32 r d z) = decide (r < 0) ∧
      ∀ w : Word, fexp w < 255 →
        (valUnits (round32 r d z) * d - r).natAbs ≤ (valUnits w * d - r).natAbs ∧
        ((valUnits (round32 r d z) * d - r).natAbs = (valUnits w * d - r).natAbs →
          valUnits w ≠ valUnits (round32 r d z) → (round32 r d z).getLsbD 0 = false))

/-- `round_half_away` gives the nearest integer and on a tie the one of larger magnitude (R147). -/
def Obligations.RoundsHalvesAwayFromZero : Prop :=
  ∀ w : Word, isNan32 w = false → isInf32 w = false →
    2 * (roundHalfAway w * 2 ^ 149 - valUnits w).natAbs ≤ 2 ^ 149 ∧
    (2 * (roundHalfAway w * 2 ^ 149 - valUnits w).natAbs = 2 ^ 149 →
      (valUnits w).natAbs < (roundHalfAway w * 2 ^ 149).natAbs)

/-- The cases of the four binary primitives (R142, R143, R145), in patterns: `&&&` of two zeros is the zero whose sign is
the AND of theirs, and `(a ^^^ b) &&& 0x80000000` is the sign of a product or quotient. The real sum, product and quotient
are rounded by `round32`. -/
def Obligations.PrimitivesFollowTheirCases : Prop :=
  (∀ a b : Word, isNan32 a = true ∨ isNan32 b = true →
    fadd32 a b = 0x7FC00000#32 ∧ fsub32 a b = 0x7FC00000#32 ∧ fmul32 a b = 0x7FC00000#32 ∧
    fdiv32 a b = 0x7FC00000#32) ∧
  ∀ a b sgn : Word, isNan32 a = false → isNan32 b = false → sgn = (a ^^^ b) &&& 0x80000000#32 →
    fsub32 a b = fadd32 a (b ^^^ 0x80000000#32) ∧
    (isInf32 a = true → isInf32 b = true → a ≠ b → fadd32 a b = 0x7FC00000#32) ∧
    (isInf32 a = true → isInf32 b = false ∨ a = b → fadd32 a b = a ∧ fadd32 b a = a) ∧
    (isZero32 a = true → isZero32 b = true → fadd32 a b = a &&& b) ∧
    (isInf32 a = false → isInf32 b = false → isZero32 a = false ∨ isZero32 b = false →
      fadd32 a b = round32 (valUnits a + valUnits b) 1 false) ∧
    (isZero32 a = true → isInf32 b = true → fmul32 a b = 0x7FC00000#32 ∧ fmul32 b a = 0x7FC00000#32) ∧
    (isInf32 a = true → isZero32 b = false → fmul32 a b = 0x7F800000#32 ||| sgn ∧ fmul32 b a = 0x7F800000#32 ||| sgn) ∧
    (isInf32 a = false → isInf32 b = false →
      fmul32 a b = round32 (valUnits a * valUnits b) (2 ^ 149) (sgn == 0x80000000#32)) ∧
    (isZero32 a = true → isZero32 b = true → fdiv32 a b = 0x7FC00000#32) ∧
    (isInf32 a = true → isInf32 b = true → fdiv32 a b = 0x7FC00000#32) ∧
    (isInf32 a = true → isInf32 b = false → fdiv32 a b = 0x7F800000#32 ||| sgn ∧ fdiv32 b a = sgn) ∧
    (isZero32 b = true → isZero32 a = false → fdiv32 a b = 0x7F800000#32 ||| sgn ∧ fdiv32 b a = sgn) ∧
    (isInf32 a = false → isInf32 b = false → isZero32 a = false → isZero32 b = false →
      fdiv32 a b =
        round32 (valUnits a * (valUnits b).sign * 2 ^ 149) (valUnits b).natAbs (sgn == 0x80000000#32))

/-- R144: a primitive that returns a NaN returns 0x7FC00000, whatever NaN operands it had. -/
def Obligations.NanResultsAreCanonical : Prop :=
  ∀ a b : Word,
    (isNan32 (fadd32 a b) = true → fadd32 a b = 0x7FC00000#32) ∧
    (isNan32 (fsub32 a b) = true → fsub32 a b = 0x7FC00000#32) ∧
    (isNan32 (fmul32 a b) = true → fmul32 a b = 0x7FC00000#32) ∧
    (isNan32 (fdiv32 a b) = true → fdiv32 a b = 0x7FC00000#32) ∧
    isNan32 (i2f32 a) = false ∧
    (isNan32 a = true ∨ isNan32 b = true →
      fadd32 a b = 0x7FC00000#32 ∧ fsub32 a b = 0x7FC00000#32 ∧ fmul32 a b = 0x7FC00000#32 ∧
      fdiv32 a b = 0x7FC00000#32)

/-- `i2f32` of R146 in units of 2^-149 (log 8): it rounds the integer by `round32` with the sign of +0; no finite value is
nearer to the integer, and on a tie the result's bit 0 is 0; an integer of magnitude at most 2^24 converts exactly; zero gives
+0; the result is never a NaN or an infinity. -/
def Obligations.IntegersConvertToTheNearest : Prop :=
  ∀ w : Word,
    i2f32 w = round32 (w.toInt * 2 ^ 149) 1 false ∧
    isNan32 (i2f32 w) = false ∧ isInf32 (i2f32 w) = false ∧
    (∀ v : Word, fexp v < 255 →
      (valUnits (i2f32 w) - w.toInt * 2 ^ 149).natAbs ≤ (valUnits v - w.toInt * 2 ^ 149).natAbs ∧
      ((valUnits (i2f32 w) - w.toInt * 2 ^ 149).natAbs = (valUnits v - w.toInt * 2 ^ 149).natAbs →
        valUnits (i2f32 w) ≠ valUnits v → (i2f32 w).getLsbD 0 = false)) ∧
    (w.toInt.natAbs ≤ 2 ^ 24 → valUnits (i2f32 w) = w.toInt * 2 ^ 149) ∧
    (w = 0#32 → i2f32 w = 0#32)

/-- With `PRED = +0`, `RESID` copies every non-NaN `ORIG` bit for bit, and `RECON` copies every non-NaN `APX` bit for bit
except that -0 gives +0 (R156); a NaN becomes the canonical one (R142, R144). -/
def Obligations.RawValueModeCopies : Prop :=
  ∀ (s : State) (d : Word), s.faulted = false → s.pred = 0#32 →
    (isNan32 s.orig = false → exec (.resid d) s = .next { s with res := s.orig, cmdcnt := s.cmdcnt + 1#32 }) ∧
    (isNan32 s.orig = true → exec (.resid d) s = .next { s with res := 0x7FC00000#32, cmdcnt := s.cmdcnt + 1#32 }) ∧
    (isNan32 s.apx = false → s.apx ≠ 0x80000000#32 →
      exec (.recon d) s = .next { s with recn := s.apx, cmdcnt := s.cmdcnt + 1#32 }) ∧
    (s.apx = 0x80000000#32 → exec (.recon d) s = .next { s with recn := 0#32, cmdcnt := s.cmdcnt + 1#32 }) ∧
    (isNan32 s.apx = true → exec (.recon d) s = .next { s with recn := 0x7FC00000#32, cmdcnt := s.cmdcnt + 1#32 })

/-- What `DEQUANT; RECON` leaves in `REC` is a function of `PRED`, `SYM` and `MAXERR` only: an inference that R155 marks as its
own, "derived: from rules R152, R153, R144". -/
def Obligations.ReconstructionDependsOnThreePatterns : Prop :=
  ∀ (s s' t t' : State) (d e d' e' : Word), s.faulted = false → s'.faulted = false →
    s.pred = s'.pred → s.sym = s'.sym → s.maxerr = s'.maxerr →
    runs [.dequant d, .recon e] s t → runs [.dequant d', .recon e'] s' t' →
    t.recn = t'.recn ∧ t.recn = fadd32 s.pred (fmul32 (i2f32 s.sym) (fmul32 0x40000000#32 s.maxerr))

/-! ## Bit-stream packer and unpacker -/

/-- R170 to R172: the pointer loads accept offsets up to `8*BUF_BYTES` and raise `CapacityExceeded` above. -/
def Obligations.PointerLoadsCheckTheirBound : Prop :=
  spelledBy 0x20000000#32 .setwp ∧ spelledBy 0x21000000#32 .setrp ∧ spelledBy 0x22000000#32 .setrl ∧
  ∀ (s : State) (v : Word), s.faulted = false →
    (v.toNat ≤ 8 * s.params.bufBytes.toNat →
      exec (.setwp v) s = .next { s with wptr := v, cmdcnt := s.cmdcnt + 1#32 } ∧
      exec (.setrp v) s = .next { s with rptr := v, cmdcnt := s.cmdcnt + 1#32 } ∧
      exec (.setrl v) s = .next { s with rlim := v, cmdcnt := s.cmdcnt + 1#32 }) ∧
    (8 * s.params.bufBytes.toNat < v.toNat →
      exec (.setwp v) s = .next (withFault s 3#4 (.setwp v)) ∧
      exec (.setrp v) s = .next (withFault s 3#4 (.setrp v)) ∧
      exec (.setrl v) s = .next (withFault s 3#4 (.setrl v)))

/-- R65, R66: what `BitWrite` leaves in memory. -/
def Obligations.BitWriteKeepsBelowAndClearsAbove : Prop :=
  ∀ (m : Memory) (p n : Nat) (v : Word), n ≤ 32 →
    wroteBits m (bitWrite m p n v) p ((List.range n).map v.getLsbD)

/-- R173: `PUTBITS n, v` appends the low `n` bits of `DATA` at `WPTR`, or raises `CapacityExceeded` and writes nothing. -/
def Obligations.PutbitsAppendsBits : Prop :=
  (∀ (n : Byte) (v : Word), n.toNat ≤ 32 → decode (cmdWord 0x23#8 n 0#16) v = .ok (.putbits n v)) ∧
  (∀ cmd d, opField cmd = 0x23#8 → (idxField cmd ≠ 0#16 ∨ 32 < (fField cmd).toNat) → rejected cmd d) ∧
  ∀ (s : State) (n : Byte) (v : Word), s.faulted = false → n.toNat ≤ 32 →
    (s.wptr.toNat + n.toNat ≤ 8 * s.params.bufBytes.toNat →
      ∃ t, exec (.putbits n v) s = .next t ∧
        t = { s with buf := t.buf, wptr := BitVec.ofNat 32 (s.wptr.toNat + n.toNat), cmdcnt := s.cmdcnt + 1#32 } ∧
        wroteBits s.buf t.buf s.wptr.toNat ((List.range n.toNat).map v.getLsbD)) ∧
    (8 * s.params.bufBytes.toNat < s.wptr.toNat + n.toNat →
      exec (.putbits n v) s = .next (withFault s 3#4 (.putbits n v)))

/-- R174: `GETBITS n` delivers the next `n` bits at `RPTR`, or raises `MalformedContainer` beyond `RLIM`. -/
def Obligations.GetbitsReadsBits : Prop :=
  (∀ (n : Byte) (d : Word), n.toNat ≤ 32 → decode (cmdWord 0x24#8 n 0#16) d = .ok (.getbits n d)) ∧
  (∀ cmd d, opField cmd = 0x24#8 → (idxField cmd ≠ 0#16 ∨ 32 < (fField cmd).toNat) → rejected cmd d) ∧
  ∀ (s : State) (n : Byte) (d : Word), s.faulted = false → n.toNat ≤ 32 →
    (s.rptr.toNat + n.toNat ≤ s.rlim.toNat →
      ∃ t, exec (.getbits n d) s = .next t ∧
        t = { s with out := t.out, rptr := BitVec.ofNat 32 (s.rptr.toNat + n.toNat), cmdcnt := s.cmdcnt + 1#32 } ∧
        ∀ k, t.out.getLsbD k = (decide (k < n.toNat) && bitAt s.buf (s.rptr.toNat + k))) ∧
    (s.rlim.toNat < s.rptr.toNat + n.toNat →
      exec (.getbits n d) s = .next (withFault s 4#4 (.getbits n d)))

/-- R175, R176: `STB` replaces one byte of `BUF`, `LDB` reads one; both raise `CapacityExceeded` beyond `BUF`. -/
def Obligations.ByteStoreAndLoad : Prop :=
  (∀ (b : Byte) (v : Word), decode (cmdWord 0x25#8 b 0#16) v = .ok (.stb b v)) ∧
  (∀ cmd d, opField cmd = 0x25#8 → idxField cmd ≠ 0#16 → rejected cmd d) ∧
  spelledBy 0x26000000#32 .ldb ∧
  ∀ (s : State) (b : Byte) (addr : Word), s.faulted = false →
    (addr.toNat < s.params.bufBytes.toNat →
      (∃ t, exec (.stb b addr) s = .next t ∧ t = { s with buf := t.buf, cmdcnt := s.cmdcnt + 1#32 } ∧
        ∀ a, byteAt t.buf a = if a = addr.toNat then b else byteAt s.buf a) ∧
      exec (.ldb addr) s =
        .next { s with out := (byteAt s.buf addr.toNat).setWidth 32, cmdcnt := s.cmdcnt + 1#32 }) ∧
    (s.params.bufBytes.toNat ≤ addr.toNat →
      exec (.stb b addr) s = .next (withFault s 3#4 (.stb b addr)) ∧
      exec (.ldb addr) s = .next (withFault s 3#4 (.ldb addr)))

/-- A byte never written since power-on reads as its power-on value, the same on every read, and neither `SRST` nor the
`reset` input writes `BUF` (R38). The power-on value is a free value (log 3): the statement holds whatever it is. -/
def Obligations.UnwrittenBytesKeepTheirPowerOnValue : Prop :=
  (∀ (s : State) (addr : Word), s.faulted = false → addr.toNat < s.params.bufBytes.toNat →
    cellAt s.buf addr.toNat = none →
    exec (.ldb addr) s =
      .next { s with out := (Config.powerOnByte addr.toNat).setWidth 32, cmdcnt := s.cmdcnt + 1#32 }) ∧
  (∀ (s t : State) (d : Word), exec (.srst d) s = .next t → t.buf = s.buf) ∧
  (∀ (s t : State) (rest : List Delivery), s.inbox = .reset :: rest → step s = .next t → t.buf = s.buf)

/-- Bits packed by any run of `PUTBITS` are delivered again by `GETBITS` at any place and in any chunk inside the run, and
the bit after the last one is `MalformedContainer` (R177, R178). -/
def Obligations.PackedBitsReadBack : Prop :=
  ∀ (s : State) (chunks : List (Byte × Word)) (bits : List Bool), s.Inv → s.faulted = false →
    (∀ c ∈ chunks, c.1.toNat ≤ 32) →
    bits = chunks.flatMap (fun c => (List.range c.1.toNat).map c.2.getLsbD) →
    s.wptr.toNat + bits.length ≤ 8 * s.params.bufBytes.toNat →
    ∃ t, runs (chunks.map (fun c => .putbits c.1 c.2)) s t ∧ t.wptr.toNat = s.wptr.toNat + bits.length ∧
      (∀ (off : Nat) (n : Byte), n.toNat ≤ 32 → off + n.toNat ≤ bits.length →
        ∃ u, exec (.getbits n 0#32) { t with rptr := BitVec.ofNat 32 (s.wptr.toNat + off), rlim := t.wptr } = .next u ∧
          u.faulted = false ∧
          ∀ k, k < n.toNat → u.out.getLsbD k = bits.getD (off + k) false) ∧
      exec (.getbits 1#8 0#32) { t with rptr := t.wptr, rlim := t.wptr } =
        .next (withFault { t with rptr := t.wptr, rlim := t.wptr } 4#4 (.getbits 1#8 0#32))

/-! ## Code table and decision tree -/

/-- R191, R194: `CTCLR` empties the table and `CTN`, `TCLR` empties the tree; neither touches the other memory. -/
def Obligations.CtclrAndTclrEmptyTheirMemory : Prop :=
  spelledBy 0x30000000#32 .ctclr ∧ spelledBy 0x33000000#32 .tclr ∧
  ∀ (s : State) (d : Word), s.faulted = false →
    (∃ t, exec (.ctclr d) s = .next t ∧ t = { s with ct := t.ct, ctn := 0#32, cmdcnt := s.cmdcnt + 1#32 } ∧
      ∀ i, cellAt t.ct i = none) ∧
    (∃ t, exec (.tclr d) s = .next t ∧ t = { s with tree := t.tree, cmdcnt := s.cmdcnt + 1#32 } ∧
      ∀ i, cellAt t.tree i = none)

/-- R192: `CTSET` replaces the entry of `SYM` where there is one, else fills the least invalid entry, else raises
`CapacityExceeded`. The premise `Inv` says that entries are listed once each and have distinct symbols (R35). -/
def Obligations.CtsetReplacesOrFillsTheLeast : Prop :=
  (∀ len code, wellFormedCode len code = true → decode (cmdWord 0x31#8 len 0#16) code = .ok (.ctset len code)) ∧
  (∀ cmd d, opField cmd = 0x31#8 →
    (idxField cmd ≠ 0#16 ∨ fField cmd = 0#8 ∨ 32 < (fField cmd).toNat ∨
      ((fField cmd).toNat < 32 ∧ d >>> (fField cmd).toNat ≠ 0#32)) → rejected cmd d) ∧
  ∀ (s : State) (len : Byte) (code : Word), s.Inv → s.faulted = false → wellFormedCode len code = true →
    (∀ i e, cellAt s.ct i = some e → e.sym = s.sym →
      ∃ t, exec (.ctset len code) s = .next t ∧ t = { s with ct := t.ct, cmdcnt := s.cmdcnt + 1#32 } ∧
        ∀ j, cellAt t.ct j =
          if j = i then some { sym := s.sym, len := len.setWidth 6, code := code } else cellAt s.ct j) ∧
    (∀ i, (∀ j e, cellAt s.ct j = some e → e.sym ≠ s.sym) → i < s.params.ctEntries.toNat → cellAt s.ct i = none →
      (∀ j, j < i → cellAt s.ct j ≠ none) →
      ∃ t, exec (.ctset len code) s = .next t ∧
        t = { s with ct := t.ct, ctn := s.ctn + 1#32, cmdcnt := s.cmdcnt + 1#32 } ∧
        ∀ j, cellAt t.ct j =
          if j = i then some { sym := s.sym, len := len.setWidth 6, code := code } else cellAt s.ct j) ∧
    ((∀ j e, cellAt s.ct j = some e → e.sym ≠ s.sym) →
      (∀ i, i < s.params.ctEntries.toNat → cellAt s.ct i ≠ none) →
      exec (.ctset len code) s = .next (withFault s 3#4 (.ctset len code)))

/-- R193: `CTRD` reads a field of an entry, 0 in every field of an invalid one. -/
def Obligations.CtrdReadsAnEntry : Prop :=
  (∀ (i : Half) (d : Word), decode (cmdWord 0x32#8 0#8 i) d = .ok (.ctrd .len i d) ∧
    decode (cmdWord 0x32#8 1#8 i) d = .ok (.ctrd .sym i d) ∧ decode (cmdWord 0x32#8 2#8 i) d = .ok (.ctrd .code i d)) ∧
  (∀ cmd d, opField cmd = 0x32#8 → 2 < (fField cmd).toNat → rejected cmd d) ∧
  ∀ (s : State) (i : Half) (d : Word), s.faulted = false →
    (i.toNat < s.params.ctEntries.toNat →
      (∀ field, cellAt s.ct i.toNat = none →
        exec (.ctrd field i d) s = .next { s with out := 0#32, cmdcnt := s.cmdcnt + 1#32 }) ∧
      (∀ e, cellAt s.ct i.toNat = some e →
        exec (.ctrd .len i d) s = .next { s with out := e.len.setWidth 32, cmdcnt := s.cmdcnt + 1#32 } ∧
        exec (.ctrd .sym i d) s = .next { s with out := e.sym, cmdcnt := s.cmdcnt + 1#32 } ∧
        exec (.ctrd .code i d) s = .next { s with out := e.code, cmdcnt := s.cmdcnt + 1#32 })) ∧
    (∀ field, s.params.ctEntries.toNat ≤ i.toNat →
      exec (.ctrd field i d) s = .next (withFault s 3#4 (.ctrd field i d)))

/-- R195, R196: `TLEAF` and `TINT` store a node, whatever was there; the child indices of `TINT` are not checked. -/
def Obligations.NodeStoresOverwrite : Prop :=
  (∀ (i : Half) (d : Word), decode (cmdWord 0x34#8 0#8 i) d = .ok (.tleaf i d) ∧
    decode (cmdWord 0x35#8 0#8 i) d = .ok (.tint i (d.extractLsb' 16 16) (d.extractLsb' 0 16))) ∧
  (∀ cmd d, (opField cmd = 0x34#8 ∨ opField cmd = 0x35#8) → fField cmd ≠ 0#8 → rejected cmd d) ∧
  ∀ (s : State) (i : Half) (y : Word) (l r : Half), s.faulted = false →
    (i.toNat < s.params.treeNodes.toNat →
      (∃ t, exec (.tleaf i y) s = .next t ∧ t = { s with tree := t.tree, cmdcnt := s.cmdcnt + 1#32 } ∧
        ∀ n, cellAt t.tree n = if n = i.toNat then some (.leaf y) else cellAt s.tree n) ∧
      (∃ t, exec (.tint i l r) s = .next t ∧ t = { s with tree := t.tree, cmdcnt := s.cmdcnt + 1#32 } ∧
        ∀ n, cellAt t.tree n = if n = i.toNat then some (.internal l r) else cellAt s.tree n)) ∧
    (s.params.treeNodes.toNat ≤ i.toNat →
      exec (.tleaf i y) s = .next (withFault s 3#4 (.tleaf i y)) ∧
      exec (.tint i l r) s = .next (withFault s 3#4 (.tint i l r)))

/-- R197: `TRD` reads a field of a node, 0 for a field that does not belong to the node's kind. -/
def Obligations.TrdReadsANode : Prop :=
  (∀ (i : Half) (d : Word), decode (cmdWord 0x36#8 0#8 i) d = .ok (.trd .kind i d) ∧
    decode (cmdWord 0x36#8 1#8 i) d = .ok (.trd .sym i d) ∧ decode (cmdWord 0x36#8 2#8 i) d = .ok (.trd .kids i d)) ∧
  (∀ cmd d, opField cmd = 0x36#8 → 2 < (fField cmd).toNat → rejected cmd d) ∧
  ∀ (s : State) (i : Half) (d : Word), s.faulted = false →
    (∀ out, i.toNat < s.params.treeNodes.toNat →
      (cellAt s.tree i.toNat = none ∧ out = (0#32, 0#32, 0#32)) ∨
      (∃ y, cellAt s.tree i.toNat = some (.leaf y) ∧ out = (1#32, y, 0#32)) ∨
      (∃ l r : Half, cellAt s.tree i.toNat = some (.internal l r) ∧ out = (2#32, 0#32, l ++ r)) →
      exec (.trd .kind i d) s = .next { s with out := out.1, cmdcnt := s.cmdcnt + 1#32 } ∧
      exec (.trd .sym i d) s = .next { s with out := out.2.1, cmdcnt := s.cmdcnt + 1#32 } ∧
      exec (.trd .kids i d) s = .next { s with out := out.2.2, cmdcnt := s.cmdcnt + 1#32 }) ∧
    (∀ field, s.params.treeNodes.toNat ≤ i.toNat →
      exec (.trd field i d) s = .next (withFault s 3#4 (.trd field i d)))

/-- `CGEN` on a tree of depth at most 32 with distinct symbols, no more than `CT_ENTRIES` of them, replaces the table by the
tree's codes, one row per leaf from left to right (R198, R201). -/
def Obligations.CgenMakesTheCodesOfTheTree : Prop :=
  spelledBy 0x37000000#32 .cgen ∧
  ∀ (s : State) (d : Word) (tr : HTree), s.faulted = false → holdsTree s 0 tr → treeDepth tr ≤ 32 →
    (treeSyms tr).Nodup → (treeSyms tr).length ≤ s.params.ctEntries.toNat →
    ∃ t, exec (.cgen d) s = .next t ∧
      t = { s with ct := t.ct, ctn := BitVec.ofNat 32 (treeCodes tr).length, cmdcnt := s.cmdcnt + 1#32 } ∧
      ∀ i, cellAt t.ct i = ((treeCodes tr)[i]?).map codeEntry

/-- `CGEN` completes on nothing else: if it does not fault, `TREE` holds a tree of depth at most 32 at node 0 with distinct
symbols (and, if the root is internal, no more than `CT_ENTRIES` of them), and the table is that tree's (R198, R203). -/
def Obligations.CgenCompletesOnlyOnATree : Prop :=
  ∀ (s t : State) (d : Word), s.faulted = false → exec (.cgen d) s = .next t → t.faulted = false →
    ∃ tr : HTree, holdsTree s 0 tr ∧ treeDepth tr ≤ 32 ∧ (treeSyms tr).Nodup ∧
      ((treeSyms tr).length ≤ s.params.ctEntries.toNat ∨ ∃ y, tr = .leaf y) ∧
      ∀ i, cellAt t.ct i = ((treeCodes tr)[i]?).map codeEntry

/-- `CGEN` on a tree that has distinct symbols and room for them but a leaf deeper than 32 raises `CapacityExceeded`
(R198, R273 (g)). -/
def Obligations.DeepTreesExceedTheCodeLength : Prop :=
  ∀ (s : State) (d : Word) (tr : HTree), s.faulted = false → holdsTree s 0 tr → 32 < treeDepth tr →
    (treeSyms tr).Nodup → (treeSyms tr).length ≤ s.params.ctEntries.toNat →
    exec (.cgen d) s = .next (withFault s 3#4 (.cgen d))

/-- `CGEN` on a tree with an internal root, distinct symbols and depth at most 32 but more than `CT_ENTRIES` leaves raises
`CapacityExceeded` (R198, R273 (e)). -/
def Obligations.TooManyLeavesExceedTheTable : Prop :=
  ∀ (s : State) (d : Word) (l r : HTree), s.faulted = false → holdsTree s 0 (.node l r) → treeDepth (.node l r) ≤ 32 →
    (treeSyms (.node l r)).Nodup → s.params.ctEntries.toNat < (treeSyms (.node l r)).length →
    exec (.cgen d) s = .next (withFault s 3#4 (.cgen d))

/-- `BadTree` wherever a walk meets its first bad node (R277, R198, R200, R221, R282). For `CGEN`, which has passed distinct
symbols that fit the table at depths of at most 32: an invalid child, or a leaf whose symbol it has passed already. For `TSER`,
while what it has passed fits `BUF`: an invalid child. For `DEC`, where the bits before `RLIM` lead to it: an invalid child. On
a root that is its own child the walks end in `CapacityExceeded` and `MalformedContainer`. -/
def Obligations.BadTreesFaultByTheirCause : Prop :=
  (∀ (s : State) (d : Word) (w : Way) (m : Nat), s.faulted = false → leadsTo s w 0 m → w ≠ .here →
    (wayDepth w ≤ 32 → (waySyms w).Nodup → (waySyms w).length ≤ s.params.ctEntries.toNat →
      (nodeAt s m = none → exec (.cgen d) s = .next (withFault s 7#4 (.cgen d))) ∧
      (∀ y, nodeAt s m = some (.leaf y) → y ∈ waySyms w → exec (.cgen d) s = .next (withFault s 7#4 (.cgen d)))) ∧
    (nodeAt s m = none → s.wptr.toNat + (wayBits w).length ≤ 8 * s.params.bufBytes.toNat →
      exec (.tser d) s = .next (withFault s 7#4 (.tser d)))) ∧
  (∀ (s : State) (d : Word) (bits : List Bool) (m : Nat), s.faulted = false → bits ≠ [] →
    (∀ k (h : k < bits.length), bitAt s.buf (s.rptr.toNat + k) = bits[k]) →
    s.rptr.toNat + bits.length ≤ s.rlim.toNat → descendsTo s bits 0 m → nodeAt s m = none →
    exec (.dec d) s = .next (withFault s 7#4 (.dec d))) ∧
  (∀ (s : State) (d : Word), s.faulted = false → nodeAt s 0 = some (.internal 0#16 0#16) →
    exec (.cgen d) s = .next (withFault s 3#4 (.cgen d)) ∧
    exec (.tser d) s = .next (withFault s 3#4 (.tser d)) ∧
    exec (.dec d) s = .next (withFault s 4#4 (.dec d)))

/-- `ENC` appends the codeword of `SYM`'s entry at `WPTR`, first path bit first; its faults are checked in the order
`EmptyAlphabet`, `UnknownSymbol`, `CapacityExceeded` (R199, R282). -/
def Obligations.EncAppendsTheCodeword : Prop :=
  spelledBy 0x38000000#32 .enc ∧
  ∀ (s : State) (d : Word), s.Inv → s.faulted = false →
    (∀ i e, cellAt s.ct i = some e → e.sym = s.sym →
      (s.wptr.toNat + e.len.toNat ≤ 8 * s.params.bufBytes.toNat →
        ∃ t, exec (.enc d) s = .next t ∧
          t = { s with
            buf := t.buf, wptr := BitVec.ofNat 32 (s.wptr.toNat + e.len.toNat), cmdcnt := s.cmdcnt + 1#32 } ∧
          wroteBits s.buf t.buf s.wptr.toNat (entryBits e)) ∧
      (8 * s.params.bufBytes.toNat < s.wptr.toNat + e.len.toNat →
        exec (.enc d) s = .next (withFault s 3#4 (.enc d)))) ∧
    (s.ctn ≠ 0#32 → (∀ i e, cellAt s.ct i = some e → e.sym ≠ s.sym) →
      exec (.enc d) s = .next (withFault s 6#4 (.enc d))) ∧
    (s.ctn = 0#32 → exec (.enc d) s = .next (withFault s 2#4 (.enc d)))

/-- `DEC` follows the bits at `RPTR` from the root to the leaf whose path they spell; a lone leaf takes one bit and does not
look at it (R200, R201). -/
def Obligations.DecFollowsThePath : Prop :=
  spelledBy 0x39000000#32 .dec ∧
  ∀ (s : State) (d : Word), s.faulted = false →
    (∀ (l r : HTree) (y : Word) (path : List Bool), holdsTree s 0 (.node l r) → (y, path) ∈ codesFrom [] (.node l r) →
      (∀ k (h : k < path.length), bitAt s.buf (s.rptr.toNat + k) = path[k]) →
      s.rptr.toNat + path.length ≤ s.rlim.toNat →
      exec (.dec d) s = .next { s with
        sym := y, rptr := BitVec.ofNat 32 (s.rptr.toNat + path.length), cmdcnt := s.cmdcnt + 1#32 }) ∧
    (∀ y, holdsTree s 0 (.leaf y) → s.rptr.toNat + 1 ≤ s.rlim.toNat →
      exec (.dec d) s = .next { s with
        sym := y, rptr := BitVec.ofNat 32 (s.rptr.toNat + 1), cmdcnt := s.cmdcnt + 1#32 })

/-- `DEC` whose stream ends inside a codeword, at `RLIM` with the bits before it leading to an internal node, raises
`MalformedContainer` (R200, R274). -/
def Obligations.DecFaultsInsideACodeword : Prop :=
  ∀ (s : State) (d : Word) (bits : List Bool) (m : Nat) (l r : Half), s.faulted = false →
    (∀ k (h : k < bits.length), bitAt s.buf (s.rptr.toNat + k) = bits[k]) →
    s.rptr.toNat + bits.length = s.rlim.toNat → descendsTo s bits 0 m → nodeAt s m = some (.internal l r) →
    exec (.dec d) s = .next (withFault s 4#4 (.dec d))

/-- Commands that need a tree raise `EmptyAlphabet` without one (R272); `GETBITS` of at least one bit, `DEC` and `TDES` at or
beyond `RLIM` raise `MalformedContainer` (R274). -/
def Obligations.EmptyTreeAndStreamEndFault : Prop :=
  ∀ (s : State) (d : Word), s.faulted = false →
    (nodeAt s 0 = none →
      exec (.cgen d) s = .next (withFault s 2#4 (.cgen d)) ∧
      exec (.dec d) s = .next (withFault s 2#4 (.dec d)) ∧
      exec (.tser d) s = .next (withFault s 2#4 (.tser d))) ∧
    (s.rlim.toNat ≤ s.rptr.toNat →
      (∀ n : Byte, 1 ≤ n.toNat → exec (.getbits n d) s = .next (withFault s 4#4 (.getbits n d))) ∧
      (nodeAt s 0 ≠ none → exec (.dec d) s = .next (withFault s 4#4 (.dec d))) ∧
      exec (.tdes d) s = .next (withFault s 4#4 (.tdes d)))

/-- No codeword of a table made by `CGEN` on a tree with an internal root is a prefix of another, and symbols are pairwise
different, whatever `TREE` held (R202). -/
def Obligations.GeneratedTableIsPrefixFree : Prop :=
  ∀ (s t : State) (d : Word) (l r : Half), s.faulted = false → nodeAt s 0 = some (.internal l r) →
    exec (.cgen d) s = .next t → t.faulted = false →
    ∀ i j e f, cellAt t.ct i = some e → cellAt t.ct j = some f → i ≠ j →
      e.sym ≠ f.sym ∧ ¬ entryBits e <+: entryBits f

/-- After `CGEN`, a stream of `ENC` of any symbols is decoded by as many `DEC` on the same `TREE`, symbol for symbol, and
one more `DEC` is `MalformedContainer` (R202, R201). -/
def Obligations.DecInvertsEnc : Prop :=
  ∀ (s₀ s u : State) (d : Word) (syms : List Word), s₀.Inv → s₀.faulted = false →
    exec (.cgen d) s₀ = .next s → s.faulted = false →
    runs (syms.flatMap (fun y => [.setsym y, .enc 0#32])) s u →
    ∃ v, decodesTo syms { u with rptr := s.wptr, rlim := u.wptr } v ∧ v.rptr = u.wptr ∧
      exec (.dec 0#32) v = .next (withFault v 4#4 (.dec 0#32))

/-! ## Tree serializer -/

/-- `TSER` on a tree that fits appends its serialized form at `WPTR` and gives the number of bits (R220, R221). -/
def Obligations.TserWritesTheSerializedTree : Prop :=
  spelledBy 0x40000000#32 .tser ∧
  ∀ (s : State) (d : Word) (tr : HTree), s.faulted = false → holdsTree s 0 tr →
    (s.wptr.toNat + (treeBits tr).length ≤ 8 * s.params.bufBytes.toNat →
      ∃ t, exec (.tser d) s = .next t ∧
        t = { s with
          buf := t.buf
          out := BitVec.ofNat 32 (treeBits tr).length
          wptr := BitVec.ofNat 32 (s.wptr.toNat + (treeBits tr).length)
          cmdcnt := s.cmdcnt + 1#32 } ∧
        wroteBits s.buf t.buf s.wptr.toNat (treeBits tr)) ∧
    (s.wptr.toNat ≤ 8 * s.params.bufBytes.toNat →
      8 * s.params.bufBytes.toNat < s.wptr.toNat + (treeBits tr).length →
      exec (.tser d) s = .next (withFault s 3#4 (.tser d)))

/-- `TDES` at a serialized tree replaces `TREE` by its nodes in preorder numbering and gives the number of bits (R222). -/
def Obligations.TdesReadsASerializedTree : Prop :=
  spelledBy 0x41000000#32 .tdes ∧
  ∀ (s : State) (d : Word) (tr : HTree), s.faulted = false →
    (∀ k (h : k < (treeBits tr).length), bitAt s.buf (s.rptr.toNat + k) = (treeBits tr)[k]) →
    s.rptr.toNat + (treeBits tr).length ≤ s.rlim.toNat → treeSize tr ≤ s.params.treeNodes.toNat →
    ∃ t, exec (.tdes d) s = .next t ∧
      t = { s with
        tree := t.tree
        out := BitVec.ofNat 32 (treeBits tr).length
        rptr := BitVec.ofNat 32 (s.rptr.toNat + (treeBits tr).length)
        cmdcnt := s.cmdcnt + 1#32 } ∧
      ∀ n, cellAt t.tree n = cellAt (preorderNodes 0 tr) n

/-- Where `TDES` stops: after the nodes it has read, whose bits stand at `RPTR`, it raises `MalformedContainer` when the marker
or the symbol of the next node passes `RLIM`, and `CapacityExceeded` when the marker is there but `TREE_NODES` nodes are filled
(R222, R273 (f), R274, R282). A serialized tree that stands whole before `RLIM` but has more than `TREE_NODES` nodes is
`CapacityExceeded`. -/
def Obligations.TdesFaultsWhereTheStreamBreaks : Prop :=
  (∀ (s : State) (d : Word) (w : Way), s.faulted = false →
    (∀ k (h : k < (wayBits w).length), bitAt s.buf (s.rptr.toNat + k) = (wayBits w)[k]) →
    wayNodes w ≤ s.params.treeNodes.toNat →
    (s.rptr.toNat + (wayBits w).length = s.rlim.toNat →
      exec (.tdes d) s = .next (withFault s 4#4 (.tdes d))) ∧
    (s.rptr.toNat + (wayBits w).length < s.rlim.toNat → wayNodes w = s.params.treeNodes.toNat →
      exec (.tdes d) s = .next (withFault s 3#4 (.tdes d))) ∧
    (s.rptr.toNat + (wayBits w).length < s.rlim.toNat → s.rlim.toNat < s.rptr.toNat + (wayBits w).length + 33 →
      wayNodes w < s.params.treeNodes.toNat → bitAt s.buf (s.rptr.toNat + (wayBits w).length) = true →
      exec (.tdes d) s = .next (withFault s 4#4 (.tdes d)))) ∧
  (∀ (s : State) (d : Word) (tr : HTree), s.faulted = false →
    (∀ k (h : k < (treeBits tr).length), bitAt s.buf (s.rptr.toNat + k) = (treeBits tr)[k]) →
    s.rptr.toNat + (treeBits tr).length ≤ s.rlim.toNat → s.params.treeNodes.toNat < treeSize tr →
    exec (.tdes d) s = .next (withFault s 3#4 (.tdes d)))

/-- `TSER` and `TDES` complete on nothing else: `TSER` only where `TREE` holds a tree at node 0 whose serialized form fits
(R221), `TDES` only where a serialized tree of at most `TREE_NODES` nodes stands at `RPTR` before `RLIM` (R222). -/
def Obligations.SerializerCompletesOnlyOnATree : Prop :=
  ∀ (s t : State) (d : Word), s.Inv → s.faulted = false → t.faulted = false →
    (exec (.tser d) s = .next t →
      ∃ tr : HTree, holdsTree s 0 tr ∧ s.wptr.toNat + (treeBits tr).length ≤ 8 * s.params.bufBytes.toNat ∧
        t.out = BitVec.ofNat 32 (treeBits tr).length) ∧
    (exec (.tdes d) s = .next t →
      ∃ tr : HTree, (∀ k (h : k < (treeBits tr).length), bitAt s.buf (s.rptr.toNat + k) = (treeBits tr)[k]) ∧
        s.rptr.toNat + (treeBits tr).length ≤ s.rlim.toNat ∧ treeSize tr ≤ s.params.treeNodes.toNat ∧
        holdsTree t 0 tr ∧ t.out = BitVec.ofNat 32 (treeBits tr).length)

/-- What `TSER` wrote, `TDES` reads back as the same tree renumbered in preorder, with the same `OUT`, and `CGEN` makes the same
table of both: an inference that R223 marks as its own, "derived: from rules R221, R222, 43_huffman_table.md rule R198". -/
def Obligations.TdesInvertsTser : Prop :=
  ∀ (s u : State) (tr : HTree), s.Inv → s.faulted = false → holdsTree s 0 tr →
    treeSize tr ≤ s.params.treeNodes.toNat →
    exec (.tser 0#32) s = .next u → u.faulted = false →
    ∃ x, runs [.setrp s.wptr, .setrl u.wptr, .tdes 0#32] u x ∧ x.out = u.out ∧ holdsTree x 0 tr ∧
      (∀ n, cellAt x.tree n = cellAt (preorderNodes 0 tr) n) ∧
      ∀ y, exec (.cgen 0#32) s = .next y → y.faulted = false →
        ∃ z, exec (.cgen 0#32) x = .next z ∧ z.faulted = false ∧ z.ct = y.ct ∧ z.ctn = y.ctn
end

