-- ==== Sys2Proof/Laws/Cells.lean ====
section
/-! SUPPORT. The laws of lists of cells: read after write, and the canonical form is kept. -/

namespace Sys2Proof.Machine

variable {α : Type}

@[simp] theorem cellAt_nil (a : Nat) : cellAt ([] : List (Nat × α)) a = none := rfl

/-- Read after write, at the same and at another address. -/
theorem cellAt_putCell (cells : List (Nat × α)) (a b : Nat) (v : α) :
    cellAt (putCell cells a v) b = if a = b then some v else cellAt cells b := by
  induction cells with
  | nil => rfl
  | cons c rest ih =>
    obtain ⟨k, w⟩ := c
    by_cases h1 : a < k
    · simp [putCell, h1, cellAt]
    · by_cases h2 : a = k
      · subst h2; by_cases h3 : a = b <;> simp [putCell, cellAt, h3]
      · by_cases h3 : k = b
        · subst h3; simp [putCell, h1, h2, cellAt]
        · simp [putCell, h1, h2, cellAt, h3, ih]

@[simp] theorem cellAt_putCell_self (cells : List (Nat × α)) (a : Nat) (v : α) :
    cellAt (putCell cells a v) a = some v := by simp [cellAt_putCell]

theorem cellAt_putCell_ne (cells : List (Nat × α)) {a b : Nat} (v : α) (h : a ≠ b) :
    cellAt (putCell cells a v) b = cellAt cells b := by simp [cellAt_putCell, h]

theorem mem_of_cellAt {cells : List (Nat × α)} {a : Nat} {v : α} (h : cellAt cells a = some v) : (a, v) ∈ cells := by
  induction cells with
  | nil => simp at h
  | cons c rest ih =>
    obtain ⟨k, w⟩ := c
    by_cases hk : k = a
    · simp [cellAt, hk] at h; simp [hk, h]
    · simp [cellAt, hk] at h; simp [ih h]

/-- A cell of the list after a write is the one written or one that was there at another address. -/
theorem mem_putCell {cells : List (Nat × α)} {a : Nat} {v : α} {c : Nat × α} (h : c ∈ putCell cells a v) :
    c = (a, v) ∨ c ∈ cells := by
  induction cells with
  | nil => simpa [putCell] using h
  | cons d rest ih =>
    obtain ⟨k, w⟩ := d
    by_cases h1 : a < k
    · simpa [putCell, h1] using h
    · by_cases h2 : a = k
      · simp only [putCell, h2, lt_irrefl, if_false, if_true, List.mem_cons] at h
        rcases h with h | h <;> simp [h, h2]
      · simp only [putCell, h1, h2, if_false, List.mem_cons] at h
        rcases h with h | h
        · simp [h]
        · rcases ih h with h | h <;> simp [h]

theorem risingFrom_mono {cells : List (Nat × α)} {low low' : Nat} (h : risingFrom low cells = true) (hl : low' ≤ low) :
    risingFrom low' cells = true := by
  cases cells with
  | nil => rfl
  | cons c rest => simp [risingFrom] at h ⊢; exact ⟨by omega, h.2⟩

/-- In a canonical list every address is at least the bound it rises from. -/
theorem le_of_mem_rising {cells : List (Nat × α)} {low : Nat} (h : risingFrom low cells = true) {c : Nat × α}
    (hc : c ∈ cells) : low ≤ c.1 := by
  induction cells generalizing low with
  | nil => simp at hc
  | cons d rest ih =>
    simp [risingFrom] at h
    rcases List.mem_cons.mp hc with rfl | hc
    · exact h.1
    · have := ih h.2 hc; omega

theorem cellAt_eq_none_of_lt {cells : List (Nat × α)} {low a : Nat} (h : risingFrom low cells = true) (ha : a < low) :
    cellAt cells a = none := by
  cases hc : cellAt cells a with
  | none => rfl
  | some v => have := le_of_mem_rising h (mem_of_cellAt hc); simp at this; omega

/-- A canonical list holds at an address what it lists there. -/
theorem cellAt_of_mem {cells : List (Nat × α)} {low : Nat} (h : risingFrom low cells = true) {c : Nat × α}
    (hc : c ∈ cells) : cellAt cells c.1 = some c.2 := by
  induction cells generalizing low with
  | nil => simp at hc
  | cons d rest ih =>
    simp [risingFrom] at h
    rcases List.mem_cons.mp hc with rfl | hc
    · simp [cellAt]
    · have := le_of_mem_rising h.2 hc
      have hne : d.1 ≠ c.1 := by omega
      simpa [cellAt, hne] using ih h.2 hc

theorem risingFrom_putCell {cells : List (Nat × α)} {low a : Nat} {v : α} (h : risingFrom low cells = true)
    (ha : low ≤ a) : risingFrom low (putCell cells a v) = true := by
  induction cells generalizing low with
  | nil => simp [putCell, risingFrom, ha]
  | cons c rest ih =>
    obtain ⟨k, w⟩ := c
    simp [risingFrom] at h
    by_cases h1 : a < k
    · simp [putCell, h1, risingFrom, ha, h.2]
    · by_cases h2 : a = k
      · simp [putCell, h2, risingFrom, h.1, h.2]
      · simp [putCell, h1, h2, risingFrom, h.1]
        exact ih h.2 (by omega)

/-- A write keeps the canonical form. -/
theorem cellsWf_putCell {cells : List (Nat × α)} {a : Nat} {v : α} (h : cellsWf cells = true) :
    cellsWf (putCell cells a v) = true := risingFrom_putCell h (Nat.zero_le _)

/-- A write to a listed address keeps the length; one to an unlisted address adds one. -/
theorem length_putCell {cells : List (Nat × α)} {low a : Nat} {v : α} (h : risingFrom low cells = true) :
    (putCell cells a v).length = cells.length + if (cellAt cells a).isSome then 0 else 1 := by
  induction cells generalizing low with
  | nil => rfl
  | cons c rest ih =>
    obtain ⟨k, w⟩ := c
    simp [risingFrom] at h
    by_cases h1 : a < k
    · have hn : cellAt rest a = none := cellAt_eq_none_of_lt h.2 (by omega)
      have hk : ¬ k = a := by omega
      simp [putCell, h1, cellAt, hk, hn]
    · by_cases h2 : a = k
      · simp [putCell, h2, cellAt]
      · have hk : ¬ k = a := fun e => h2 e.symm
        simp [putCell, h1, h2, cellAt, hk, ih h.2]; omega

/-- What `leastFree` answers: an unlisted address in its range with every lower one of the range listed. -/
theorem leastFree_some {cells : List (Nat × α)} {n i j : Nat} (h : leastFree cells n i = some j) :
    i ≤ j ∧ j < i + n ∧ cellAt cells j = none ∧ ∀ k, i ≤ k → k < j → (cellAt cells k).isSome := by
  induction n generalizing i with
  | zero => simp [leastFree] at h
  | succ n ih =>
    cases hc : cellAt cells i with
    | none =>
      simp [leastFree, hc] at h
      subst h
      exact ⟨le_rfl, by omega, hc, fun k h1 h2 => by omega⟩
    | some v =>
      simp [leastFree, hc] at h
      obtain ⟨h1, h2, h3, h4⟩ := ih h
      refine ⟨by omega, by omega, h3, fun k hk1 hk2 => ?_⟩
      by_cases hk : k = i
      · simp [hk, hc]
      · exact h4 k (by omega) hk2

/-- `leastFree` answers nothing exactly when the whole range is listed. -/
theorem leastFree_none {cells : List (Nat × α)} {n i : Nat} (h : leastFree cells n i = none) :
    ∀ k, i ≤ k → k < i + n → (cellAt cells k).isSome := by
  induction n generalizing i with
  | zero => intro k h1 h2; omega
  | succ n ih =>
    cases hc : cellAt cells i with
    | none => simp [leastFree, hc] at h
    | some v =>
      simp [leastFree, hc] at h
      intro k hk1 hk2
      by_cases hk : k = i
      · simp [hk, hc]
      · exact ih h k (by omega) (by omega)

/-- A canonical list with addresses below `n` has at most `n` cells. -/
theorem length_le_of_rising {cells : List (Nat × α)} {low n : Nat} (h : risingFrom low cells = true)
    (hi : ∀ c ∈ cells, c.1 < n) : cells.length ≤ n - low := by
  induction cells generalizing low with
  | nil => simp
  | cons c rest ih =>
    simp [risingFrom] at h
    have h1 := ih h.2 (fun c hc => hi c (List.mem_cons_of_mem _ hc))
    have h2 := hi c List.mem_cons_self
    simp; omega

@[simp] theorem length_numberedFrom (i : Nat) (l : List α) : (numberedFrom i l).length = l.length := by
  induction l generalizing i with
  | nil => rfl
  | cons a l ih => simp [numberedFrom, ih]

theorem risingFrom_numberedFrom (i : Nat) (l : List α) : risingFrom i (numberedFrom i l) = true := by
  induction l generalizing i with
  | nil => rfl
  | cons a l ih => simp [numberedFrom, risingFrom, ih]

theorem mem_numberedFrom {i : Nat} {l : List α} {c : Nat × α} (h : c ∈ numberedFrom i l) :
    i ≤ c.1 ∧ c.1 < i + l.length ∧ c.2 ∈ l := by
  induction l generalizing i with
  | nil => simp [numberedFrom] at h
  | cons a l ih =>
    rcases List.mem_cons.mp h with rfl | h
    · simp
    · have := ih h; simp at this ⊢; exact ⟨by omega, by omega, .inr this.2.2⟩

/-- Entry `k` of a numbered list is at address `i + k`. -/
theorem cellAt_numberedFrom (i k : Nat) (l : List α) : cellAt (numberedFrom i l) (i + k) = l[k]? := by
  induction l generalizing i k with
  | nil => simp [numberedFrom]
  | cons a l ih =>
    cases k with
    | zero => simp [numberedFrom, cellAt]
    | succ k =>
      have h := ih (i + 1) k
      rw [show i + 1 + k = i + (k + 1) by omega] at h
      simp [numberedFrom, cellAt, h]

@[simp] theorem map_snd_numberedFrom (i : Nat) (l : List α) : (numberedFrom i l).map (·.2) = l := by
  induction l generalizing i with
  | nil => rfl
  | cons a l ih => simp [numberedFrom, ih]

end Sys2Proof.Machine
end

