-- ==== Sys2Proof/Laws/Bits.lean ====
section
/-! SUPPORT. The laws of `BUF` by byte and by bit (spec/20_memory.md R61 to R66). -/

namespace Sys2Proof.Machine

/-! ### Bytes -/

theorem byteAt_putByte (m : Memory) (a b : Nat) (v : Byte) :
    byteAt (putByte m a v) b = if a = b then v else byteAt m b := by
  by_cases h : a = b <;> simp [byteAt, putByte, cellAt_putCell, h]

@[simp] theorem byteAt_putByte_self (m : Memory) (a : Nat) (v : Byte) : byteAt (putByte m a v) a = v := by
  simp [byteAt_putByte]

/-- A byte never written since power-on reads as its free value (10_state.md R38). -/
theorem byteAt_unwritten {m : Memory} {a : Nat} (h : cellAt m a = none) : byteAt m a = Config.powerOnByte a := by
  simp [byteAt, h]

theorem Memory.wf_nil : Memory.wf [] = true := rfl

theorem Memory.wf_putByte {m : Memory} (a : Nat) (v : Byte) (h : m.wf = true) : Memory.wf (putByte m a v) = true :=
  cellsWf_putCell h

/-! ### One bit -/

/-- `keptBits` is the mask of `Put1` as R65 writes it. -/
theorem keptBits_eq (m : Memory) (q : Nat) :
    keptBits m q = byteAt m (q / 8) &&& BitVec.ofNat 8 (2 ^ (q % 8) - 1) := by
  unfold keptBits
  split
  · next h => simp [h]
  · rfl

/-- The byte `Put1` writes, bit by bit: below `j` the old bits, at `j` the new bit, above it 0 (R65). -/
theorem getLsbD_put1 (old : Byte) (b : Bool) (j k : Nat) (hj : j < 8) (hk : k < 8) :
    ((old &&& BitVec.ofNat 8 (2 ^ j - 1)) ||| ((BitVec.ofBool b).setWidth 8 <<< j)).getLsbD k =
      if k < j then old.getLsbD k else if k = j then b else false := by
  have hmask : ∀ j k : Nat, (BitVec.ofNat 8 (2 ^ j - 1)).getLsbD k = (decide (k < 8) && decide (k < j)) := by
    intro j k
    simp [BitVec.getLsbD_ofNat, Nat.testBit_two_pow_sub_one]
  simp only [BitVec.getLsbD_or, BitVec.getLsbD_and, hmask, BitVec.getLsbD_shiftLeft, BitVec.getLsbD_setWidth, hk]
  by_cases h1 : k < j
  · simp [h1]
  · by_cases h2 : k = j
    · subst h2; cases b <;> simp
    · have : k - j ≠ 0 := by omega
      cases b <;> simp [h1, h2, this]

theorem byteAt_putBit_ne (m : Memory) {q a : Nat} (b : Bool) (h : q / 8 ≠ a) : byteAt (putBit m q b) a = byteAt m a := by
  simp [putBit, byteAt_putByte, h]

/-- The bits of memory after `Put1(q, b)` (R65). -/
theorem bitAt_putBit (m : Memory) (q r : Nat) (b : Bool) :
    bitAt (putBit m q b) r =
      if r = q then b else if q / 8 = r / 8 ∧ q < r then false else bitAt m r := by
  unfold bitAt
  by_cases h : q / 8 = r / 8
  · have e : byteAt (putBit m q b) (r / 8) =
        (byteAt m (r / 8) &&& BitVec.ofNat 8 (2 ^ (q % 8) - 1)) ||| ((BitVec.ofBool b).setWidth 8 <<< (q % 8)) := by
      rw [← h]; simp [putBit, keptBits_eq]
    rw [e, getLsbD_put1 _ _ _ _ (by omega) (by omega)]
    by_cases h1 : r % 8 < q % 8
    · have : ¬ r = q := by omega
      have : ¬ q < r := by omega
      simp [*]
    · by_cases h2 : r % 8 = q % 8
      · have : r = q := by omega
        simp [*]
      · have : ¬ r = q := by omega
        have : q < r := by omega
        simp [*]
  · have : ¬ r = q := fun e => h (by rw [e])
    simp [byteAt_putBit_ne m b h, h, this]

theorem Memory.wf_putBit {m : Memory} (q : Nat) (b : Bool) (h : m.wf = true) : Memory.wf (putBit m q b) = true :=
  Memory.wf_putByte _ _ h

/-! ### Runs of bits -/

@[simp] theorem length_bitsOf (n : Nat) (v : Word) : (bitsOf n v).length = n := by simp [bitsOf]

@[simp] theorem length_readBits (m : Memory) (p n : Nat) : (readBits m p n).length = n := by simp [readBits]

@[simp] theorem getElem_bitsOf (n : Nat) (v : Word) (k : Nat) (h : k < (bitsOf n v).length) :
    (bitsOf n v)[k] = v.getLsbD k := by simp [bitsOf]

@[simp] theorem getElem_readBits (m : Memory) (p n k : Nat) (h : k < (readBits m p n).length) :
    (readBits m p n)[k] = bitAt m (p + k) := by simp [readBits]

theorem readBits_succ (m : Memory) (p n : Nat) : readBits m p (n + 1) = bitAt m p :: readBits m (p + 1) n := by
  simp [readBits, List.range_succ_eq_map, Function.comp_def, Nat.add_assoc, Nat.add_comm 1]

theorem readBits_add (m : Memory) (p n k : Nat) : readBits m p (n + k) = readBits m p n ++ readBits m (p + n) k := by
  induction n generalizing p with
  | zero => simp [readBits]
  | succ n ih => rw [show n + 1 + k = n + k + 1 by omega, readBits_succ, readBits_succ, ih]; simp [Nat.add_assoc, Nat.add_comm 1]

theorem writeBits_append (m : Memory) (p : Nat) (a b : List Bool) :
    writeBits m p (a ++ b) = writeBits (writeBits m p a) (p + a.length) b := by
  induction a generalizing m p with
  | nil => rfl
  | cons x a ih => simp [writeBits, ih]; congr 1; omega

/-- Bits below the first one written are kept. -/
theorem bitAt_writeBits_below (m : Memory) (p : Nat) (bits : List Bool) {r : Nat} (h : r < p) :
    bitAt (writeBits m p bits) r = bitAt m r := by
  induction bits generalizing m p with
  | nil => rfl
  | cons b rest ih =>
    have h1 : ¬ r = p := by omega
    have h2 : ¬ p < r := by omega
    simp [writeBits, ih (putBit m p b) (p + 1) (by omega), bitAt_putBit, h1, h2]

/-- A bit written is the bit read (R66). -/
theorem bitAt_writeBits_inside (m : Memory) (p : Nat) (bits : List Bool) (k : Nat) (h : k < bits.length) :
    bitAt (writeBits m p bits) (p + k) = bits[k] := by
  induction bits generalizing m p k with
  | nil => simp at h
  | cons b rest ih =>
    cases k with
    | zero => simp [writeBits, bitAt_writeBits_below (putBit m p b) (p + 1) rest (Nat.lt_succ_self p), bitAt_putBit]
    | succ k =>
      have := ih (putBit m p b) (p + 1) k (by simpa using h)
      rw [show p + 1 + k = p + (k + 1) by omega] at this
      simpa [writeBits] using this

/-- The bits above the last one written in its byte are 0 (R66). -/
theorem bitAt_writeBits_pad (m : Memory) (p : Nat) (bits : List Bool) {r : Nat} (hb : bits ≠ [])
    (h : p + bits.length ≤ r) (hr : r / 8 = (p + bits.length - 1) / 8) : bitAt (writeBits m p bits) r = false := by
  induction bits generalizing m p with
  | nil => simp at hb
  | cons b rest ih =>
    cases rest with
    | nil =>
      have h1 : ¬ r = p := by simp at h; omega
      have h2 : p < r := by simp at h; omega
      have h3 : p / 8 = r / 8 := by simp at hr; omega
      simp [writeBits, bitAt_putBit, h1, h2, h3]
    | cons c rest =>
      have := ih (putBit m p b) (p + 1) (by simp) (by simp at h ⊢; omega) (by simp at hr ⊢; rw [hr]; congr 1; omega)
      simpa [writeBits] using this

/-- Bytes that hold no bit written are unchanged (R65, R66). -/
theorem byteAt_writeBits_outside (m : Memory) (p : Nat) (bits : List Bool) {a : Nat}
    (h : a < p / 8 ∨ (p + bits.length - 1) / 8 < a) : byteAt (writeBits m p bits) a = byteAt m a := by
  induction bits generalizing m p with
  | nil => rfl
  | cons b rest ih =>
    have h1 : p / 8 ≠ a := by simp at h; omega
    have h2 : a < (p + 1) / 8 ∨ (p + 1 + rest.length - 1) / 8 < a ∨ rest = [] := by
      cases rest with
      | nil => simp
      | cons c rest => simp at h ⊢; omega
    rcases h2 with h2 | h2 | rfl
    · simp [writeBits, ih (putBit m p b) (p + 1) (.inl h2), byteAt_putBit_ne m b h1]
    · simp [writeBits, ih (putBit m p b) (p + 1) (.inr h2), byteAt_putBit_ne m b h1]
    · simp [writeBits, byteAt_putBit_ne m b h1]

theorem readBits_writeBits (m : Memory) (p : Nat) (bits : List Bool) :
    readBits (writeBits m p bits) p bits.length = bits := by
  apply List.ext_getElem (by simp)
  intro k h1 h2
  simp [bitAt_writeBits_inside m p bits k h2]

theorem Memory.wf_writeBits {m : Memory} (p : Nat) (bits : List Bool) (h : m.wf = true) :
    Memory.wf (writeBits m p bits) = true := by
  induction bits generalizing m p with
  | nil => exact h
  | cons b rest ih => exact ih (p + 1) (Memory.wf_putBit p b h)

theorem Memory.wf_bitWrite {m : Memory} (p n : Nat) (v : Word) (h : m.wf = true) : Memory.wf (bitWrite m p n v) = true :=
  Memory.wf_writeBits _ _ h

/-- A run of bits that ends inside the first `8 * size` bits lists no address at or above `size`. -/
theorem inside_writeBits {m : Memory} {p size : Nat} {bits : List Bool} (hm : ∀ c ∈ m, c.1 < size)
    (h : p + bits.length ≤ 8 * size) : ∀ c ∈ writeBits m p bits, c.1 < size := by
  induction bits generalizing m p with
  | nil => exact hm
  | cons b rest ih =>
    simp at h
    refine ih (fun c hc => ?_) (by omega)
    rcases mem_putCell hc with rfl | hc
    · simp; omega
    · exact hm c hc

/-! ### Words as bits -/

@[simp] theorem natOfBits_nil : natOfBits [] = 0 := rfl

theorem natOfBits_lt (bits : List Bool) : natOfBits bits < 2 ^ bits.length := by
  induction bits with
  | nil => simp
  | cons b rest ih => have : b.toNat ≤ 1 := by cases b <;> simp
                      simp [natOfBits, Nat.pow_succ]; omega

theorem testBit_natOfBits (bits : List Bool) (k : Nat) : (natOfBits bits).testBit k = bits.getD k false := by
  induction bits generalizing k with
  | nil => simp
  | cons b rest ih =>
    cases k with
    | zero => cases b <;> simp [natOfBits, Nat.testBit_zero]
    | succ k =>
      have : (b.toNat + 2 * natOfBits rest) / 2 = natOfBits rest := by cases b <;> simp <;> omega
      simp [natOfBits, Nat.testBit_succ, this, ih]

theorem natOfBits_append (a b : List Bool) : natOfBits (a ++ b) = natOfBits a + 2 ^ a.length * natOfBits b := by
  induction a with
  | nil => simp
  | cons x a ih => simp [natOfBits, ih, Nat.pow_succ]; ring

/-- `BitRead` bit by bit (R64). -/
theorem getLsbD_bitRead (m : Memory) (p n k : Nat) (hn : n ≤ 32) :
    (bitRead m p n).getLsbD k = (decide (k < n) && bitAt m (p + k)) := by
  rw [bitRead, BitVec.getLsbD_ofNat, testBit_natOfBits]
  by_cases hk : k < n
  · have h32 : k < 32 := by omega
    simp [hk, h32, readBits]
  · simp [hk, readBits]

/-- The bits of a word make the word again. -/
theorem ofNat_natOfBits_bitsOf (v : Word) : BitVec.ofNat 32 (natOfBits (bitsOf 32 v)) = v := by
  apply BitVec.eq_of_getLsbD_eq
  intro k hk
  rw [BitVec.getLsbD_ofNat, testBit_natOfBits]
  simp [hk, bitsOf]

end Sys2Proof.Machine
end

