-- ==== Sys2Proof/Laws/State.lean ====
section
/-! SUPPORT. One lemma per field for each update of the whole state: `complete`, `raiseFault`, `resetBlock`; and what the
operand readers see of them. -/

namespace Sys2Proof.Machine

variable (s : State) (c : Cause) (cmd data : Word)

/-! ### `complete` -/

@[simp] theorem complete_orig : (complete s).orig = s.orig := rfl
@[simp] theorem complete_pred : (complete s).pred = s.pred := rfl
@[simp] theorem complete_res : (complete s).res = s.res := rfl
@[simp] theorem complete_sym : (complete s).sym = s.sym := rfl
@[simp] theorem complete_apx : (complete s).apx = s.apx := rfl
@[simp] theorem complete_recn : (complete s).recn = s.recn := rfl
@[simp] theorem complete_maxerr : (complete s).maxerr = s.maxerr := rfl
@[simp] theorem complete_out : (complete s).out = s.out := rfl
@[simp] theorem complete_wptr : (complete s).wptr = s.wptr := rfl
@[simp] theorem complete_rptr : (complete s).rptr = s.rptr := rfl
@[simp] theorem complete_rlim : (complete s).rlim = s.rlim := rfl
@[simp] theorem complete_ctn : (complete s).ctn = s.ctn := rfl
@[simp] theorem complete_faulted : (complete s).faulted = s.faulted := rfl
@[simp] theorem complete_fcode : (complete s).fcode = s.fcode := rfl
@[simp] theorem complete_finfo : (complete s).finfo = s.finfo := rfl
@[simp] theorem complete_fdata : (complete s).fdata = s.fdata := rfl
@[simp] theorem complete_cmdcnt : (complete s).cmdcnt = s.cmdcnt + 1#32 := rfl
@[simp] theorem complete_params : (complete s).params = s.params := rfl
@[simp] theorem complete_buf : (complete s).buf = s.buf := rfl
@[simp] theorem complete_ct : (complete s).ct = s.ct := rfl
@[simp] theorem complete_tree : (complete s).tree = s.tree := rfl
@[simp] theorem complete_inbox : (complete s).inbox = s.inbox := rfl

/-! ### `raiseFault` -/

@[simp] theorem raiseFault_orig : (raiseFault c cmd data s).orig = s.orig := rfl
@[simp] theorem raiseFault_pred : (raiseFault c cmd data s).pred = s.pred := rfl
@[simp] theorem raiseFault_res : (raiseFault c cmd data s).res = s.res := rfl
@[simp] theorem raiseFault_sym : (raiseFault c cmd data s).sym = s.sym := rfl
@[simp] theorem raiseFault_apx : (raiseFault c cmd data s).apx = s.apx := rfl
@[simp] theorem raiseFault_recn : (raiseFault c cmd data s).recn = s.recn := rfl
@[simp] theorem raiseFault_maxerr : (raiseFault c cmd data s).maxerr = s.maxerr := rfl
@[simp] theorem raiseFault_out : (raiseFault c cmd data s).out = s.out := rfl
@[simp] theorem raiseFault_wptr : (raiseFault c cmd data s).wptr = s.wptr := rfl
@[simp] theorem raiseFault_rptr : (raiseFault c cmd data s).rptr = s.rptr := rfl
@[simp] theorem raiseFault_rlim : (raiseFault c cmd data s).rlim = s.rlim := rfl
@[simp] theorem raiseFault_ctn : (raiseFault c cmd data s).ctn = s.ctn := rfl
@[simp] theorem raiseFault_faulted : (raiseFault c cmd data s).faulted = true := rfl
@[simp] theorem raiseFault_fcode : (raiseFault c cmd data s).fcode = causeCode c := rfl
@[simp] theorem raiseFault_finfo : (raiseFault c cmd data s).finfo = cmd := rfl
@[simp] theorem raiseFault_fdata : (raiseFault c cmd data s).fdata = data := rfl
@[simp] theorem raiseFault_cmdcnt : (raiseFault c cmd data s).cmdcnt = s.cmdcnt := rfl
@[simp] theorem raiseFault_params : (raiseFault c cmd data s).params = s.params := rfl
@[simp] theorem raiseFault_buf : (raiseFault c cmd data s).buf = s.buf := rfl
@[simp] theorem raiseFault_ct : (raiseFault c cmd data s).ct = s.ct := rfl
@[simp] theorem raiseFault_tree : (raiseFault c cmd data s).tree = s.tree := rfl
@[simp] theorem raiseFault_inbox : (raiseFault c cmd data s).inbox = s.inbox := rfl

/-! ### `resetBlock` -/

@[simp] theorem resetBlock_orig : (resetBlock s).orig = 0#32 := rfl
@[simp] theorem resetBlock_pred : (resetBlock s).pred = 0#32 := rfl
@[simp] theorem resetBlock_res : (resetBlock s).res = 0#32 := rfl
@[simp] theorem resetBlock_sym : (resetBlock s).sym = 0#32 := rfl
@[simp] theorem resetBlock_apx : (resetBlock s).apx = 0#32 := rfl
@[simp] theorem resetBlock_recn : (resetBlock s).recn = 0#32 := rfl
@[simp] theorem resetBlock_maxerr : (resetBlock s).maxerr = 0#32 := rfl
@[simp] theorem resetBlock_out : (resetBlock s).out = 0#32 := rfl
@[simp] theorem resetBlock_wptr : (resetBlock s).wptr = 0#32 := rfl
@[simp] theorem resetBlock_rptr : (resetBlock s).rptr = 0#32 := rfl
@[simp] theorem resetBlock_rlim : (resetBlock s).rlim = 0#32 := rfl
@[simp] theorem resetBlock_ctn : (resetBlock s).ctn = 0#32 := rfl
@[simp] theorem resetBlock_faulted : (resetBlock s).faulted = false := rfl
@[simp] theorem resetBlock_fcode : (resetBlock s).fcode = 0#4 := rfl
@[simp] theorem resetBlock_finfo : (resetBlock s).finfo = 0#32 := rfl
@[simp] theorem resetBlock_fdata : (resetBlock s).fdata = 0#32 := rfl
@[simp] theorem resetBlock_cmdcnt : (resetBlock s).cmdcnt = 0#32 := rfl
@[simp] theorem resetBlock_params : (resetBlock s).params = s.params := rfl
@[simp] theorem resetBlock_buf : (resetBlock s).buf = s.buf := rfl
@[simp] theorem resetBlock_ct : (resetBlock s).ct = [] := rfl
@[simp] theorem resetBlock_tree : (resetBlock s).tree = [] := rfl
@[simp] theorem resetBlock_inbox : (resetBlock s).inbox = s.inbox := rfl

/-! ### Sizes and memory readers depend on the parameters and their own memory only -/

theorem bufBits_congr {s t : State} (h : t.params = s.params) : bufBits t = bufBits s := by
  simp [bufBits, bufBytes, h]

theorem bufBytes_congr {s t : State} (h : t.params = s.params) : bufBytes t = bufBytes s := by simp [bufBytes, h]

theorem ctEntries_congr {s t : State} (h : t.params = s.params) : ctEntries t = ctEntries s := by simp [ctEntries, h]

theorem treeNodes_congr {s t : State} (h : t.params = s.params) : treeNodes t = treeNodes s := by simp [treeNodes, h]

theorem nodeAt_congr {s t : State} (hp : t.params = s.params) (ht : t.tree = s.tree) (n : Nat) :
    nodeAt t n = nodeAt s n := by unfold nodeAt treeNodes; rw [hp, ht]

theorem entryOf_congr {s t : State} (h : t.ct = s.ct) (y : Word) : entryOf t y = entryOf s y := by simp [entryOf, h]

theorem warn_congr {s t : State} (hp : t.params = s.params) (hm : t.maxerr = s.maxerr) : warn t = warn s := by
  simp [warn, hp, hm]

end Sys2Proof.Machine
end

