-- ==== Sys2Proof/Laws/Command.lean ====
section
/-! SUPPORT. What a command can do, said once (spec/00_scope.md R15, spec/40_control_and_data_movement.md R119). -/

namespace Sys2Proof.Machine

variable {i : Instr} {rule : State → Except Cause State} {s t u : State}

/-! ### `runCommand` -/

theorem runCommand_faulted (h : s.faulted = true) : runCommand i rule s = .next s := by simp [runCommand, h]

theorem runCommand_ok (h : s.faulted = false) (hr : rule s = .ok u) : runCommand i rule s = .next (complete u) := by
  simp [runCommand, h, hr]

theorem runCommand_error {c : Cause} (h : s.faulted = false) (hr : rule s = .error c) :
    runCommand i rule s = .next (raiseFault c (encode i).1 (encode i).2 s) := by simp [runCommand, h, hr]

/-- The three outcomes of a command (R15): discarded, completed, faulted. -/
theorem runCommand_cases (h : runCommand i rule s = .next t) :
    (s.faulted = true ∧ t = s) ∨
    (s.faulted = false ∧ ∃ u, rule s = .ok u ∧ t = complete u) ∨
    (s.faulted = false ∧ ∃ c, rule s = .error c ∧ t = raiseFault c (encode i).1 (encode i).2 s) := by
  cases hf : s.faulted with
  | true => rw [runCommand_faulted hf] at h; exact .inl ⟨rfl, by simpa using h.symm⟩
  | false =>
    cases hr : rule s with
    | ok u => rw [runCommand_ok hf hr] at h; exact .inr (.inl ⟨rfl, u, rfl, by simpa using h.symm⟩)
    | error c => rw [runCommand_error hf hr] at h; exact .inr (.inr ⟨rfl, c, rfl, by simpa using h.symm⟩)

/-! ### One rule for every command but `SRST` -/

/-- The rule of a command: the state after its own writes, or the cause of its fault. -/
def ruleOf : Instr → State → Except Cause State
  | .nop _, s => .ok s
  | .srst _, s => .ok s
  | .rd sel _, s => .ok { s with out := readReg s sel }
  | .setme v, s => .ok { s with maxerr := v }
  | .setorig v, s => .ok { s with orig := v }
  | .setpred v, s => .ok { s with pred := v }
  | .setsym v, s => .ok { s with sym := v }
  | .resid _, s => .ok { s with res := fsub32 s.orig s.pred }
  | .quant _, s => quantRule s
  | .dequant _, s => .ok { s with apx := fmul32 (i2f32 s.sym) (bucketWidth s) }
  | .recon _, s => .ok { s with recn := fadd32 s.pred s.apx }
  | .setwp v, s => setwpRule v s
  | .setrp v, s => setrpRule v s
  | .setrl v, s => setrlRule v s
  | .putbits n v, s => putbitsRule n v s
  | .getbits n _, s => getbitsRule n s
  | .stb byte addr, s => stbRule byte addr s
  | .ldb addr, s => ldbRule addr s
  | .ctclr _, s => .ok { s with ct := [], ctn := 0#32 }
  | .ctset len code, s => ctsetRule len code s
  | .ctrd field idx _, s => ctrdRule field idx s
  | .tclr _, s => .ok { s with tree := [] }
  | .tleaf idx sym, s => putNodeRule idx (.leaf sym) s
  | .tint idx left right, s => putNodeRule idx (.internal left right) s
  | .trd field idx _, s => trdRule field idx s
  | .cgen _, s => cgenRule s
  | .enc _, s => encRule s
  | .dec _, s => decRule s
  | .tser _, s => tserRule s
  | .tdes _, s => tdesRule s

/-- The command is `SRST`. -/
def isSrst : Instr → Bool
  | .srst _ => true
  | _ => false

/-- The command is an `RD`. -/
def isRd : Instr → Bool
  | .rd _ _ => true
  | _ => false

/-- Every command but `SRST` and `RD` runs its rule under the common behaviour (R119). -/
theorem exec_eq_runCommand (hs : isSrst i = false) (hr : isRd i = false) : exec i s = runCommand i (ruleOf i) s := by
  cases i
  case srst => simp [isSrst] at hs
  case rd => simp [isRd] at hr
  all_goals rfl

/-- While not faulted every command but `SRST` runs its rule under the common behaviour (R119). -/
theorem exec_running (hs : isSrst i = false) (hf : s.faulted = false) : exec i s = runCommand i (ruleOf i) s := by
  cases i
  case srst => simp [isSrst] at hs
  case rd sel d => simp [exec, execRd, runCommand, ruleOf, hf]
  all_goals rfl

/-- While faulted every command but `SRST` and `RD` is discarded (60_exceptions.md R280). -/
theorem exec_faulted (hs : isSrst i = false) (hr : isRd i = false) (hf : s.faulted = true) : exec i s = .next s := by
  rw [exec_eq_runCommand hs hr, runCommand_faulted hf]

/-- `exec` of a command whose rule completes. -/
theorem exec_ok (hs : isSrst i = false) (hf : s.faulted = false) (hr : ruleOf i s = .ok u) :
    exec i s = .next (complete u) := by rw [exec_running hs hf, runCommand_ok hf hr]

/-- `exec` of a command whose rule raises a cause. -/
theorem exec_error {c : Cause} (hs : isSrst i = false) (hf : s.faulted = false) (hr : ruleOf i s = .error c) :
    exec i s = .next (raiseFault c (encode i).1 (encode i).2 s) := by rw [exec_running hs hf, runCommand_error hf hr]

/-- Everything a command can do. -/
theorem exec_cases (h : exec i s = .next t) :
    (isSrst i = true ∧ t = resetBlock s) ∨
    (s.faulted = true ∧ isSrst i = false ∧ isRd i = false ∧ t = s) ∨
    (s.faulted = true ∧ ∃ sel d, i = .rd sel d ∧ t = { s with out := readReg s sel }) ∨
    (s.faulted = false ∧ isSrst i = false ∧ ∃ u, ruleOf i s = .ok u ∧ t = complete u) ∨
    (s.faulted = false ∧ isSrst i = false ∧ ∃ c, ruleOf i s = .error c ∧
      t = raiseFault c (encode i).1 (encode i).2 s) := by
  cases hs : isSrst i with
  | true =>
    cases i <;> simp [isSrst] at hs
    simp [exec, execSrst] at h
    exact .inl ⟨rfl, h.symm⟩
  | false =>
    cases hf : s.faulted with
    | true =>
      cases hr : isRd i with
      | true =>
        cases i <;> simp [isRd] at hr
        case rd sel d =>
          simp [exec, execRd, hf] at h
          exact .inr (.inr (.inl ⟨rfl, sel, d, rfl, h.symm⟩))
      | false =>
        rw [exec_faulted hs hr hf] at h
        simp at h
        exact .inr (.inl ⟨rfl, rfl, rfl, h.symm⟩)
    | false =>
      rw [exec_running hs hf] at h
      rcases runCommand_cases h with ⟨hf', _⟩ | ⟨_, h⟩ | ⟨_, h⟩
      · simp [hf] at hf'
      · exact .inr (.inr (.inr (.inl ⟨rfl, rfl, h⟩)))
      · exact .inr (.inr (.inr (.inr ⟨rfl, rfl, h⟩)))

/-! ### `step` -/

theorem step_idle (h : s.inbox = []) : step s = .next s := by simp [step, h]

theorem step_reset {rest : List Delivery} (h : s.inbox = .reset :: rest) :
    step s = .next (resetBlock { s with inbox := rest }) := by simp [step, h]

theorem step_illegal {cmd data : Word} {rest : List Delivery} {e : DecodeError} (h : s.inbox = .command cmd data :: rest)
    (hd : decode cmd data = .error e) : step s = .next (illegalCommand cmd data { s with inbox := rest }) := by
  simp [step, h, hd]

/-- What does not decode is refused by the block. -/
theorem rejected_of_error {cmd data : Word} {e : DecodeError} (hd : decode cmd data = .error e) : rejected cmd data := by
  intro s rest h
  rw [step_illegal h hd]
  constructor <;> intro hf <;> simp [illegalCommand, raiseFault, causeCode, hf]

end Sys2Proof.Machine
end

