-- ==== Sys2Proof/Laws/Causes.lean ====
section
/-! SUPPORT. The causes that the commands' rules raise (spec/60_exceptions.md R270): none raises `IllegalCommand`, which is
the decoder's. -/

namespace Sys2Proof.Machine
variable {s : State} {c : Cause}

/-- What `CGEN`'s walk raises (R198). -/
theorem cgenWalk_cause {room : Nat} {l r : Half} {p : Word} {rows : List CtEntry} (h : cgenWalk s room l r p rows = .error c) :
    c = .badTree ∨ c = .capacityExceeded := by
  induction room generalizing l r p rows with
  | zero => simp [cgenWalk] at h; exact .inr h.symm
  | succ room ih =>
    have key : ∀ {d k p rows}, cgenChild s d (cgenWalk s room) k p rows = .error c → c = .badTree ∨ c = .capacityExceeded := by
      intro d k p rows h
      unfold cgenChild at h
      split at h
      · simp at h; exact .inl h.symm
      · split at h
        · simp at h; exact .inl h.symm
        · split at h
          · simp at h; exact .inr h.symm
          · simp at h
      · exact ih h
    unfold cgenWalk at h
    split at h
    · next e => simp at h; subst h; exact key e
    · exact key h

/-- What `DEC`'s loop raises at an internal root (R200). -/
theorem decWalk_cause {avail p : Nat} {l r : Half} (h : decWalk s avail p l r = .error c) :
    c = .badTree ∨ c = .malformedContainer := by
  induction avail generalizing p l r with
  | zero => simp [decWalk] at h; exact .inr h.symm
  | succ avail ih =>
    unfold decWalk at h
    split at h
    · simp at h; exact .inl h.symm
    · simp at h
    · exact ih h

/-- What `emit` raises (R221). -/
theorem emitNodes_cause {visits room : Nat} {pending : List Nat} (h : emitNodes s visits room pending = .error c) :
    c = .badTree ∨ c = .capacityExceeded := by
  induction visits generalizing room pending with
  | zero => cases pending <;> simp [emitNodes] at h; exact .inr h.symm
  | succ visits ih =>
    cases pending with
    | nil => simp [emitNodes] at h
    | cons n rest =>
      simp only [emitNodes] at h
      split at h
      · simp at h; exact .inl h.symm
      all_goals
        split at h
        · simp at h; exact .inr h.symm
        · split at h
          · next e => simp at h; subst h; exact ih e
          · simp at h

/-- What `des` raises (R222). -/
theorem desNode_cause {depth : Nat} {k : DesScratch} (h : desNode s depth k = .error c) :
    c = .malformedContainer ∨ c = .capacityExceeded := by
  induction depth generalizing k with
  | zero => unfold desNode at h; split at h <;> simp at h <;> simp [← h]
  | succ depth ih =>
    unfold desNode at h
    split at h
    · simp at h; simp [← h]
    · split at h
      · simp at h; simp [← h]
      · split at h
        · split at h <;> simp at h; simp [← h]
        · split at h
          · next e => simp at h; subst h; exact ih e
          · split at h
            · next e => simp at h; subst h; exact ih e
            · simp at h

/-- No command's own rule raises `IllegalCommand` (R270). -/
theorem ruleOf_not_illegal {i : Instr} : ruleOf i s ≠ .error .illegalCommand := by
  intro h
  cases i <;> simp only [ruleOf] at h
  case cgen =>
    unfold cgenRule at h; split at h
    · next e =>
      simp at h; subst h
      unfold cgenRows at e; split at e
      · simp at e
      · simp at e
      · simpa using cgenWalk_cause e
    · simp at h
  case dec =>
    unfold decRule at h; split at h
    · next e =>
      simp at h; subst h
      unfold decSymbol at e; split at e
      · simp at e
      · split at e <;> simp at e
      · simpa using decWalk_cause e
    · simp at h
  case tser =>
    unfold tserRule at h; split at h
    · next e =>
      simp at h; subst h
      unfold tserBits at e; split at e
      · simp at e
      · simpa using emitNodes_cause e
    · simp at h
  case tdes =>
    unfold tdesRule at h; split at h
    · next e => simp at h; subst h; simpa using desNode_cause e
    · simp at h
  case quant =>
    unfold quantRule at h; split at h
    · simp at h
    · next e =>
      simp at h; subst h
      unfold bucketOf at e
      repeat' split at e
      all_goals simp at e
  all_goals try simp at h
  all_goals
    simp only [setwpRule, setrpRule, setrlRule, putbitsRule, getbitsRule, stbRule, ldbRule,
      ctsetRule, ctrdRule, putNodeRule, trdRule, encRule] at h
    repeat' split at h
    all_goals simp at h

end Sys2Proof.Machine
end

