-- ==== Sys2Proof/Laws/Codes.lean ====
section
/-! SUPPORT. The laws of trees and their codes (spec/43_huffman_table.md R190, R202, R203). -/

namespace Sys2Proof.Machine

/-! ### What `TREE` holds depends on `TREE` and its size only -/

theorem holdsTree_congr {s t : State} (h : ∀ n, nodeAt t n = nodeAt s n) (n : Nat) (tr : HTree) :
    holdsTree t n tr ↔ holdsTree s n tr := by
  induction tr generalizing n with
  | leaf y => simp [holdsTree, h]
  | node l r ihl ihr => simp [holdsTree, h, ihl, ihr]

/-- `TREE` holds at most one tree at a node. -/
theorem holdsTree_unique {s : State} {n : Nat} {a b : HTree} (ha : holdsTree s n a) (hb : holdsTree s n b) : a = b := by
  induction a generalizing n b with
  | leaf y => cases b <;> simp_all [holdsTree]
  | node l r ihl ihr =>
    cases b with
    | leaf y =>
      obtain ⟨i, j, h, -⟩ := ha
      simp [holdsTree, h] at hb
    | node l' r' =>
      obtain ⟨i, j, h, h1, h2⟩ := ha
      obtain ⟨i', j', h', h1', h2'⟩ := hb
      simp [h] at h'
      obtain ⟨rfl, rfl⟩ := h'
      rw [ihl h1 h1', ihr h2 h2']

theorem nodeAt_of_holdsTree {s : State} {n : Nat} {tr : HTree} (h : holdsTree s n tr) : ∃ x, nodeAt s n = some x := by
  cases tr with
  | leaf y => exact ⟨_, h⟩
  | node l r => obtain ⟨a, b, h, -⟩ := h; exact ⟨_, h⟩

/-! ### Codes -/

/-- A longer path in front only lengthens the codewords. -/
theorem codesFrom_eq_map (path : List Bool) (tr : HTree) :
    codesFrom path tr = (codesFrom [] tr).map (fun c => (c.1, path ++ c.2)) := by
  induction tr generalizing path with
  | leaf y => simp [codesFrom]
  | node l r ihl ihr =>
    have h1 := ihl [false]
    have h2 := ihr [true]
    simp only [codesFrom, List.nil_append] at h1 h2 ⊢
    rw [ihl, ihr, h1, h2]
    simp [Function.comp_def]

@[simp] theorem map_fst_codesFrom (path : List Bool) (tr : HTree) : (codesFrom path tr).map (·.1) = treeSyms tr := by
  induction tr generalizing path with
  | leaf y => rfl
  | node l r ihl ihr => simp [codesFrom, treeSyms, ihl, ihr]

@[simp] theorem length_codesFrom (path : List Bool) (tr : HTree) : (codesFrom path tr).length = (treeSyms tr).length := by
  rw [← map_fst_codesFrom path tr, List.length_map]

/-- A codeword lengthens its path by no more than the depth of the tree. -/
theorem length_code_le {path : List Bool} {tr : HTree} {c : Word × List Bool} (h : c ∈ codesFrom path tr) :
    path.length ≤ c.2.length ∧ c.2.length ≤ path.length + treeDepth tr := by
  induction tr generalizing path with
  | leaf y => simp [codesFrom] at h; subst h; simp
  | node l r ihl ihr =>
    simp only [codesFrom, List.mem_append] at h
    rcases h with h | h
    · have := ihl h; simp [treeDepth] at this ⊢; omega
    · have := ihr h; simp [treeDepth] at this ⊢; omega

/-- The codewords of a tree with an internal root have at least one bit. -/
theorem length_code_pos {l r : HTree} {c : Word × List Bool} (h : c ∈ codesFrom [] (.node l r)) : 1 ≤ c.2.length := by
  simp only [codesFrom, List.mem_append] at h
  rcases h with h | h <;> simpa using (length_code_le h).1

/-- Every codeword of a tree begins with its path. -/
theorem prefix_of_mem_codesFrom {path : List Bool} {tr : HTree} {c : Word × List Bool} (h : c ∈ codesFrom path tr) :
    path <+: c.2 := by
  rw [codesFrom_eq_map] at h
  simp only [List.mem_map] at h
  obtain ⟨d, -, rfl⟩ := h
  exact List.prefix_append _ _

theorem not_prefix_of_branch {path : List Bool} {b : Bool} {u v : List Bool} (hu : path ++ [b] <+: u)
    (hv : path ++ [!b] <+: v) : ¬ u <+: v := by
  intro h
  have h1 := hu.trans h
  obtain ⟨x, rfl⟩ := h1
  obtain ⟨y, hy⟩ := hv
  simp at hy

/-- No codeword of a tree is a prefix of another (R202). -/
theorem codesFrom_prefix_free (path : List Bool) (tr : HTree) :
    (codesFrom path tr).Pairwise (fun a b => ¬ a.2 <+: b.2 ∧ ¬ b.2 <+: a.2) := by
  induction tr generalizing path with
  | leaf y => simp [codesFrom]
  | node l r ihl ihr =>
    simp only [codesFrom, List.pairwise_append]
    refine ⟨ihl _, ihr _, fun a ha b hb => ?_⟩
    have h1 := prefix_of_mem_codesFrom ha
    have h2 := prefix_of_mem_codesFrom hb
    exact ⟨not_prefix_of_branch (b := false) h1 h2, not_prefix_of_branch (b := true) h2 h1⟩

theorem map_fst_treeCodes (tr : HTree) : (treeCodes tr).map (·.1) = treeSyms tr := by
  cases tr with
  | leaf y => rfl
  | node l r => exact map_fst_codesFrom _ _

/-! ### Table entries -/

@[simp] theorem codeEntry_sym (c : Word × List Bool) : (codeEntry c).sym = c.1 := rfl

theorem codeEntry_len {c : Word × List Bool} (h : c.2.length ≤ 32) : (codeEntry c).len.toNat = c.2.length := by
  simp [codeEntry]; omega

/-- The entry of a codeword gives the codeword back (R190). -/
theorem entryBits_codeEntry {c : Word × List Bool} (h : c.2.length ≤ 32) : entryBits (codeEntry c) = c.2 := by
  apply List.ext_getElem
  · simp [entryBits, codeEntry_len h]
  · intro k h1 h2
    have hk : k < 32 := by omega
    simp only [entryBits, codeEntry, List.getElem_map, List.getElem_range]
    rw [BitVec.getLsbD_ofNat, testBit_natOfBits]
    simp [hk, h2]

theorem entryWf_codeEntry {c : Word × List Bool} (h1 : 1 ≤ c.2.length) (h : c.2.length ≤ 32) : entryWf (codeEntry c) := by
  refine ⟨by rw [codeEntry_len h]; exact h1, by rw [codeEntry_len h]; exact h, ?_⟩
  rw [codeEntry_len h]
  have h2 := natOfBits_lt c.2
  have h3 : natOfBits c.2 < 2 ^ 32 := lt_of_lt_of_le h2 (Nat.pow_le_pow_right (by decide) h)
  simp only [codeEntry, BitVec.toNat_ofNat, Nat.mod_eq_of_lt h3, h2]

/-- One more path bit 0 leaves the number of the path as it is. -/
theorem natOfBits_false (bits : List Bool) : natOfBits (bits ++ [false]) = natOfBits bits := by
  simp [natOfBits_append, natOfBits]

/-- One more path bit 1 sets the bit at the path's length (R198: `path OR (1 << depth)`). -/
theorem natOfBits_true (bits : List Bool) :
    BitVec.ofNat 32 (natOfBits (bits ++ [true])) = BitVec.ofNat 32 (natOfBits bits) ||| (1#32 <<< bits.length) := by
  apply BitVec.eq_of_getLsbD_eq
  intro k hk
  have h1 : (1#32 <<< bits.length).getLsbD k = decide (k = bits.length) := by
    rw [BitVec.getLsbD_shiftLeft]
    by_cases hb : k < bits.length
    · simp [hb]; omega
    · by_cases he : k = bits.length
      · simp [he, hk]; omega
      · have : k - bits.length ≠ 0 := by omega
        simp [hk, hb, he, this]
  rw [BitVec.getLsbD_or, h1, BitVec.getLsbD_ofNat, BitVec.getLsbD_ofNat, testBit_natOfBits, testBit_natOfBits]
  simp only [hk, decide_true, Bool.true_and]
  by_cases hb : k < bits.length
  · have : ¬ k = bits.length := by omega
    simp [hb, this, List.getElem?_append]
  · by_cases he : k = bits.length
    · simp [he]
    · have h3 : k - bits.length ≠ 0 := by omega
      have h4 : (bits ++ [true])[k]? = none := List.getElem?_eq_none (by simp; omega)
      have h5 : bits[k]? = none := List.getElem?_eq_none (by omega)
      simp [he, List.getD_eq_getElem?_getD, h4, h5]

end Sys2Proof.Machine
end

