-- ==== Sys2Proof/Laws/Decode.lean ====
section
/-! SUPPORT. The laws of the command's fields and of the opcode table (spec/30_encoding.md R90 to R98). -/

namespace Sys2Proof

/-! ### Fields of `CMD` -/

@[simp] theorem opField_cmdWord (op f : Byte) (idx : Half) : opField (cmdWord op f idx) = op := by
  apply BitVec.eq_of_getLsbD_eq
  intro k hk
  simp only [opField, cmdWord, BitVec.getLsbD_extractLsb', BitVec.getLsbD_append, hk, decide_true, Bool.true_and]
  rw [if_neg (by omega), if_neg (by omega)]
  congr 1; omega

@[simp] theorem fField_cmdWord (op f : Byte) (idx : Half) : fField (cmdWord op f idx) = f := by
  apply BitVec.eq_of_getLsbD_eq
  intro k hk
  simp only [fField, cmdWord, BitVec.getLsbD_extractLsb', BitVec.getLsbD_append, hk, decide_true, Bool.true_and]
  rw [if_neg (by omega), if_pos (by omega)]
  congr 1; omega

@[simp] theorem idxField_cmdWord (op f : Byte) (idx : Half) : idxField (cmdWord op f idx) = idx := by
  apply BitVec.eq_of_getLsbD_eq
  intro k hk
  simp only [idxField, cmdWord, BitVec.getLsbD_extractLsb', BitVec.getLsbD_append, hk, decide_true, Bool.true_and]
  rw [if_pos (by omega)]
  congr 1; omega

/-- A `CMD` word is its three fields. -/
theorem cmdWord_fields (cmd : Word) : cmdWord (opField cmd) (fField cmd) (idxField cmd) = cmd := by
  apply BitVec.eq_of_getLsbD_eq
  intro k hk
  simp only [opField, fField, idxField, cmdWord, BitVec.getLsbD_extractLsb', BitVec.getLsbD_append]
  split
  · simp [*]
  · split
    · have h1 : k - 16 < 8 := by omega
      have h2 : 16 + (k - 16) = k := by omega
      simp [*]
    · have h1 : k - 16 - 8 < 8 := by omega
      have h2 : 24 + (k - 16 - 8) = k := by omega
      simp [*]

/-- Masking works field by field. -/
theorem cmdWord_and (op f op' f' : Byte) (idx idx' : Half) :
    cmdWord op f idx &&& cmdWord op' f' idx' = cmdWord (op &&& op') (f &&& f') (idx &&& idx') := by
  apply BitVec.eq_of_getLsbD_eq
  intro k hk
  simp only [cmdWord, BitVec.getLsbD_and, BitVec.getLsbD_append]
  split
  · rfl
  · split <;> rfl

theorem cmdWord_inj {op f op' f' : Byte} {idx idx' : Half} :
    cmdWord op f idx = cmdWord op' f' idx' ↔ op = op' ∧ f = f' ∧ idx = idx' := by
  constructor
  · intro h
    exact ⟨by simpa using congrArg opField h, by simpa using congrArg fField h, by simpa using congrArg idxField h⟩
  · rintro ⟨rfl, rfl, rfl⟩; rfl

/-- The two halves of a `DATA` word. -/
theorem append_halves (d : Word) : (d.extractLsb' 16 16 ++ d.extractLsb' 0 16 : Word) = d := by
  apply BitVec.eq_of_getLsbD_eq
  intro k hk
  rw [BitVec.getLsbD_append]
  split
  · simp [*]
  · have h1 : k - 16 < 16 := by omega
    have h2 : 16 + (k - 16) = k := by omega
    simp [h1, h2]

@[simp] theorem extractLsb'_append_high (l r : Half) : (l ++ r : Word).extractLsb' 16 16 = l := by
  apply BitVec.eq_of_getLsbD_eq
  intro k hk
  rw [BitVec.getLsbD_extractLsb', BitVec.getLsbD_append, if_neg (by omega)]
  simp [hk]

@[simp] theorem extractLsb'_append_low (l r : Half) : (l ++ r : Word).extractLsb' 0 16 = r := by
  apply BitVec.eq_of_getLsbD_eq
  intro k hk
  rw [BitVec.getLsbD_extractLsb', BitVec.getLsbD_append, if_pos (by omega)]
  simp [hk]

/-! ### Selectors -/

@[simp] theorem regOfNumber_regNumber (r : Reg) : regOfNumber (regNumber r) = some r := by cases r <;> rfl

theorem regNumber_le (r : Reg) : regNumber r ≤ 19 := by cases r <;> decide

theorem regNumber_of_regOfNumber {n : Nat} {r : Reg} (h : regOfNumber n = some r) : regNumber r = n := by
  have hn : n < 20 := by
    by_contra hc
    have : regOfNumber n = none := by simp [regOfNumber]; omega
    simp [this] at h
  interval_cases n <;> (simp [regOfNumber] at h; subst h; rfl)

theorem regOfNumber_none (n : Nat) : regOfNumber n = none ↔ 19 < n := by
  simp [regOfNumber]; omega

@[simp] theorem ctFieldOfNumber_ctFieldNumber (f : CtField) : ctFieldOfNumber (ctFieldNumber f).toNat = some f := by
  cases f <;> rfl

@[simp] theorem treeFieldOfNumber_treeFieldNumber (f : TreeField) :
    treeFieldOfNumber (treeFieldNumber f).toNat = some f := by cases f <;> rfl

theorem ctFieldNumber_of_ctFieldOfNumber {n : Byte} {f : CtField} (h : ctFieldOfNumber n.toNat = some f) :
    ctFieldNumber f = n := by
  apply BitVec.eq_of_toNat_eq
  rcases hn : n.toNat with _ | _ | _ | k <;> rw [hn] at h <;> simp [ctFieldOfNumber] at h <;> subst h <;> rfl

theorem treeFieldNumber_of_treeFieldOfNumber {n : Byte} {f : TreeField} (h : treeFieldOfNumber n.toNat = some f) :
    treeFieldNumber f = n := by
  apply BitVec.eq_of_toNat_eq
  rcases hn : n.toNat with _ | _ | _ | k <;> rw [hn] at h <;> simp [treeFieldOfNumber] at h <;> subst h <;> rfl

theorem ctFieldOfNumber_none (n : Nat) : ctFieldOfNumber n = none ↔ 2 < n := by
  rcases n with _ | _ | _ | n <;> simp [ctFieldOfNumber]

theorem treeFieldOfNumber_none (n : Nat) : treeFieldOfNumber n = none ↔ 2 < n := by
  rcases n with _ | _ | _ | n <;> simp [treeFieldOfNumber]

/-! ### The opcode table -/

/-- No two rows of the table share an `op`: "`op` alone selects the row" (R98). -/
theorem opcodeTable_ops_distinct : opcodeTable.Pairwise (fun a b => opField a.pattern ≠ opField b.pattern) := by decide

/-- Every mnemonic has a row. -/
theorem opcodeTable_complete (m : Mnemonic) : ∃ row ∈ opcodeTable, row.mnemonic = m := by cases m <;> decide

/-- The decoder finds the row of its `op` (R98). -/
theorem find_row {row : OpcodeRow} (h : row ∈ opcodeTable) {cmd : Word} (ho : opField row.pattern = opField cmd) :
    opcodeTable.find? (fun r => opField r.pattern == opField cmd) = some row := by
  have key : ∀ table : List OpcodeRow, table.Pairwise (fun a b => opField a.pattern ≠ opField b.pattern) → row ∈ table →
      table.find? (fun r => opField r.pattern == opField cmd) = some row := by
    intro table hp hm
    induction hp with
    | nil => simp at hm
    | @cons a l hne _ ih =>
      rcases List.mem_cons.mp hm with rfl | hm
      · simp [ho]
      · have : opField a.pattern ≠ opField cmd := ho ▸ hne row hm
        simp [this, ih hm]
  exact key _ opcodeTable_ops_distinct h

/-- Decoding a word whose `op` is a row's: the mask, the selectors, the ranges (R93, R98). -/
theorem decode_row {row : OpcodeRow} (h : row ∈ opcodeTable) {cmd data : Word} (ho : opField row.pattern = opField cmd) :
    decode cmd data =
      if cmd &&& row.mask ≠ row.pattern then .error .unusedFieldNonZero
      else
        match operandsOf row.mnemonic (fField cmd) (idxField cmd) data with
        | none => .error .fieldOutOfRange
        | some i => if i.wellFormed then .ok i else .error .fieldOutOfRange := by
  simp only [decode, find_row h ho]
  all_goals rfl

/-- Decoding a word given by its fields: the fields that the row's mask covers must be 0 (R93 (b), R98). -/
theorem decode_cmdWord {m : Mnemonic} (op mf : Byte) (mi : Half)
    (h : ⟨m, cmdWord 0xFF#8 mf mi, cmdWord op 0#8 0#16⟩ ∈ opcodeTable) (f : Byte) (idx : Half) (data : Word) :
    decode (cmdWord op f idx) data =
      if f &&& mf ≠ 0#8 ∨ idx &&& mi ≠ 0#16 then .error .unusedFieldNonZero
      else
        match operandsOf m f idx data with
        | none => .error .fieldOutOfRange
        | some i => if i.wellFormed then .ok i else .error .fieldOutOfRange := by
  rw [decode_row h (by simp)]
  have hop : op &&& 0xFF#8 = op := BitVec.and_allOnes
  simp only [cmdWord_and, cmdWord_inj, hop, ne_eq, true_and, fField_cmdWord, idxField_cmdWord]
  simp only [not_and_or]

/-- A word whose `op` no row has decodes to nothing (R93 (a)). -/
theorem decode_unassigned {cmd : Word} (data : Word) (h : ∀ row ∈ opcodeTable, opField row.pattern ≠ opField cmd) :
    decode cmd data = .error .unassignedOp := by
  have : opcodeTable.find? (fun r => opField r.pattern == opField cmd) = none := by simpa using h
  simp [decode, this]

/-- What a successful decode went through: the row of its `op`, the mask, the operands, the ranges (R98). -/
theorem decode_ok {cmd data : Word} {i : Instr} (h : decode cmd data = .ok i) :
    ∃ row ∈ opcodeTable, opField row.pattern = opField cmd ∧ cmd &&& row.mask = row.pattern ∧
      operandsOf row.mnemonic (fField cmd) (idxField cmd) data = some i ∧ i.wellFormed = true := by
  unfold decode at h
  split at h
  · simp at h
  · next row hrow =>
    have hop := List.find?_some hrow
    have hmem := List.mem_of_find?_eq_some hrow
    split at h
    · simp at h
    · next hmask =>
      split at h
      · simp at h
      · next j hj =>
        split at h
        · next hwf =>
          simp at h; subst h
          exact ⟨row, hmem, by simpa using hop, by simpa using hmask, hj, hwf⟩
        · simp at h

/-- Only well-formed commands are decoded (R93 (c)). -/
theorem wellFormed_of_decode {cmd data : Word} {i : Instr} (h : decode cmd data = .ok i) : i.wellFormed = true := by
  obtain ⟨_, _, _, _, _, hwf⟩ := decode_ok h; exact hwf

end Sys2Proof
end

