-- ==== Sys2Proof/Laws/Float.lean ====
section
/-! SUPPORT. The laws of binary32 patterns and of rounding (spec/41_residual_and_quantizer.md R140, R141). -/

namespace Sys2Proof.Machine

/-! ### Patterns -/

theorem ffrac_lt (w : Word) : ffrac w < 2 ^ 23 := (w.extractLsb' 0 23).isLt

theorem fexp_lt (w : Word) : fexp w < 2 ^ 8 := (w.extractLsb' 23 8).isLt

theorem ffrac_eq (w : Word) : ffrac w = w.toNat % 2 ^ 23 := by
  simp [ffrac, BitVec.extractLsb'_toNat]

theorem fexp_eq (w : Word) : fexp w = w.toNat / 2 ^ 23 % 2 ^ 8 := by
  simp [fexp, BitVec.extractLsb'_toNat, Nat.shiftRight_eq_div_pow]

theorem fsign_eq (w : Word) : fsign w = decide (2 ^ 31 ≤ w.toNat) := by
  have := w.isLt
  rw [fsign, ← BitVec.testBit_toNat, Nat.testBit_eq_decide_div_mod_eq]
  congr 1
  simp only [eq_iff_iff]
  omega

theorem signedPattern_toNat {neg : Bool} {mag : Nat} (h : mag < 2 ^ 31) :
    (signedPattern neg mag).toNat = (if neg then 2 ^ 31 else 0) + mag := by
  have h1 : (BitVec.ofNat 31 mag).toNat = mag := by rw [BitVec.toNat_ofNat, Nat.mod_eq_of_lt h]
  rw [signedPattern, BitVec.toNat_append, h1, Nat.shiftLeft_eq]
  have h2 : (BitVec.ofBool neg).toNat * 2 ^ 31 ||| mag = (BitVec.ofBool neg).toNat * 2 ^ 31 + mag := by
    rw [Nat.mul_comm, Nat.two_pow_add_eq_or_of_lt h]
  rw [h2]
  cases neg <;> simp <;> omega

theorem fsign_signedPattern {neg : Bool} {mag : Nat} (h : mag < 2 ^ 31) : fsign (signedPattern neg mag) = neg := by
  rw [fsign_eq, signedPattern_toNat h]
  cases neg <;> simp <;> omega

theorem fexp_signedPattern {neg : Bool} {mag : Nat} (h : mag < 2 ^ 31) : fexp (signedPattern neg mag) = mag / 2 ^ 23 := by
  rw [fexp_eq, signedPattern_toNat h]
  cases neg <;> simp <;> omega

theorem ffrac_signedPattern {neg : Bool} {mag : Nat} (h : mag < 2 ^ 31) : ffrac (signedPattern neg mag) = mag % 2 ^ 23 := by
  rw [ffrac_eq, signedPattern_toNat h]
  cases neg <;> simp <;> omega

theorem getLsbD_signedPattern_zero {neg : Bool} {mag : Nat} (h : mag < 2 ^ 31) :
    (signedPattern neg mag).getLsbD 0 = decide (mag % 2 = 1) := by
  rw [← BitVec.testBit_toNat, signedPattern_toNat h, Nat.testBit_zero]
  cases neg <;> simp <;> omega

/-- A pattern is its sign and its other bits. -/
theorem signedPattern_fields (w : Word) : signedPattern (fsign w) (fexp w * 2 ^ 23 + ffrac w) = w := by
  have h1 := ffrac_lt w
  have h2 := fexp_lt w
  have h3 := w.isLt
  apply BitVec.eq_of_toNat_eq
  rw [signedPattern_toNat (by omega), fsign_eq, fexp_eq, ffrac_eq]
  simp only [decide_eq_true_eq]
  split <;> omega

theorem zero32_eq (z : Bool) : zero32 z = if z then 0x80000000#32 else 0#32 := by cases z <;> decide

theorem inf32_eq (z : Bool) : inf32 z = if z then 0xFF800000#32 else 0x7F800000#32 := by cases z <;> decide

/-- Patterns of one sign count the grid upwards: with exponent offset `k` the pattern `k * 2^23 + n` has the magnitude
`n * 2^k` units. -/
theorem magUnits_signedPattern {neg : Bool} {k n : Nat} (h : k = 0 ∨ 2 ^ 23 ≤ n) (hn : n ≤ 2 ^ 24)
    (hm : k * 2 ^ 23 + n < 2 ^ 31) : magUnits (signedPattern neg (k * 2 ^ 23 + n)) = n * 2 ^ k := by
  rw [magUnits, fexp_signedPattern hm, ffrac_signedPattern hm]
  by_cases h0 : n < 2 ^ 23
  · have hk : k = 0 := by omega
    subst hk
    rw [if_pos (by omega)]
    rw [Nat.pow_zero, Nat.mul_one]
    omega
  · rw [if_neg (by omega)]
    by_cases h1 : n = 2 ^ 24
    · have e : (k * 2 ^ 23 + n) / 2 ^ 23 - 1 = k + 1 := by omega
      have f : (k * 2 ^ 23 + n) % 2 ^ 23 = 0 := by omega
      have g : 2 ^ (k + 1) = 2 ^ k * 2 := Nat.pow_succ ..
      rw [e, f, g, h1]
      omega
    · have e : (k * 2 ^ 23 + n) / 2 ^ 23 - 1 = k := by omega
      have f : (k * 2 ^ 23 + n) % 2 ^ 23 = n - 2 ^ 23 := by omega
      have g : 2 ^ 23 + (n - 2 ^ 23) = n := by omega
      rw [e, f, g]

/-- Every finite value lies on the grid of step `2^k` or below that grid's binade. -/
theorem magUnits_grid (w : Word) (k : Nat) : (∃ m, magUnits w = m * 2 ^ k) ∨ magUnits w < 2 ^ 23 * 2 ^ k := by
  have h1 := ffrac_lt w
  have hpos : 0 < 2 ^ k := Nat.two_pow_pos k
  unfold magUnits
  split
  · right
    calc ffrac w < 2 ^ 23 * 1 := by omega
      _ ≤ 2 ^ 23 * 2 ^ k := Nat.mul_le_mul_left _ hpos
  · next he =>
    by_cases hk : k ≤ fexp w - 1
    · left
      refine ⟨(2 ^ 23 + ffrac w) * 2 ^ (fexp w - 1 - k), ?_⟩
      rw [Nat.mul_assoc, ← Nat.pow_add]
      congr 2; omega
    · right
      calc (2 ^ 23 + ffrac w) * 2 ^ (fexp w - 1) < 2 ^ 24 * 2 ^ (fexp w - 1) :=
            Nat.mul_lt_mul_of_pos_right (by omega) (Nat.two_pow_pos _)
        _ = 2 ^ 23 * 2 ^ (fexp w - 1 + 1) := by rw [Nat.pow_succ]; ring
        _ ≤ 2 ^ 23 * 2 ^ k := Nat.mul_le_mul_left _ (Nat.pow_le_pow_right (by decide) (by omega))

theorem natAbs_valUnits (w : Word) : (valUnits w).natAbs = magUnits w := by
  unfold valUnits; split <;> simp

/-! ### Rounding -/

/-- `nearestEven p d` is no farther from `p / d` than any integer, and even when another is as near (R141). -/
theorem nearestEven_nearest {d : Nat} (p : Nat) (hd : 0 < d) (m : Int) :
    ((nearestEven p d : Int) * d - p).natAbs ≤ (m * d - p).natAbs ∧
      (((nearestEven p d : Int) * d - p).natAbs = (m * d - p).natAbs → m ≠ nearestEven p d → nearestEven p d % 2 = 0) := by
  have hp : d * (p / d) + p % d = p := Nat.div_add_mod p d
  have hr : p % d < d := Nat.mod_lt p hd
  generalize hq : p / d = q at hp
  generalize hrr : p % d = r at hp hr
  have hpi : (p : Int) = d * q + r := by rw [← hp]; push_cast; ring
  have cases : m ≤ (q : Int) - 1 ∨ m = q ∨ m = q + 1 ∨ (q : Int) + 2 ≤ m := by omega
  have dist : ∀ x : Int, (x * d - p).natAbs = ((x - q) * d - r).natAbs := by
    intro x; rw [hpi]; congr 1; ring
  have lo : m ≤ (q : Int) - 1 → (m - q) * d ≤ -d := by
    intro h
    have : (m - q) * d ≤ (-1) * d := Int.mul_le_mul_of_nonneg_right (by omega) (by omega)
    linarith
  have hi : (q : Int) + 2 ≤ m → 2 * d ≤ (m - q) * d := by
    intro h; exact Int.mul_le_mul_of_nonneg_right (by omega) (by omega)
  unfold nearestEven
  rw [hq, hrr]
  have h1 : ((q : Int) - q) * d = 0 := by ring
  have h2 : ((q : Int) + 1 - q) * d = d := by ring
  split
  · rw [dist, dist, h1]
    rcases cases with h | h | h | h
    · have := lo h; omega
    · subst h; rw [h1]; omega
    · subst h; rw [h2]; omega
    · have := hi h; omega
  · split
    · push_cast
      rw [dist, dist, h2]
      rcases cases with h | h | h | h
      · have := lo h; omega
      · subst h; rw [h1]; omega
      · subst h; rw [h2]; omega
      · have := hi h; omega
    · have hq2 : q % 2 = 0 ∨ q % 2 = 1 := by omega
      refine ⟨?_, fun _ _ => by omega⟩
      rcases hq2 with hq2 | hq2 <;> rw [hq2] <;> push_cast <;> rw [dist, dist]
      · rw [show ((q : Int) + 0 - q) * d = 0 by ring]
        rcases cases with h | h | h | h
        · have := lo h; omega
        · subst h; rw [h1]
        · subst h; rw [h2]; omega
        · have := hi h; omega
      · rw [h2]
        rcases cases with h | h | h | h
        · have := lo h; omega
        · subst h; rw [h1]; omega
        · subst h; rw [h2]
        · have := hi h; omega

/-- A multiple of the step is its own nearest. -/
theorem nearestEven_mul {d : Nat} (n : Nat) (hd : 0 < d) : nearestEven (n * d) d = n := by
  simp [nearestEven, Nat.mul_mod_left, hd, Nat.mul_div_cancel _ hd]

/-- The nearest integer lies between any two integers the fraction lies between. -/
theorem nearestEven_between {p d a b : Nat} (hd : 0 < d) (ha : a * d ≤ p) (hb : p ≤ b * d) :
    a ≤ nearestEven p d ∧ nearestEven p d ≤ b := by
  have h1 : a ≤ p / d := (Nat.le_div_iff_mul_le hd).mpr ha
  have h2 : p / d ≤ b := Nat.div_le_of_le_mul (by rw [Nat.mul_comm]; exact hb)
  have hp := Nat.div_add_mod p d
  have hr := Nat.mod_lt p hd
  have h3 : p % d ≠ 0 → p / d + 1 ≤ b := by
    intro h
    by_contra hc
    have : b = p / d := by omega
    subst this
    rw [Nat.mul_comm] at hb
    omega
  unfold nearestEven
  split
  · omega
  · split
    · have := h3 (by omega); omega
    · have := h3 (by omega)
      have : p / d % 2 < 2 := Nat.mod_lt _ (by decide)
      omega

/-- The step's exponent that `round32` chooses. -/
theorem round32_shift {a d : Nat} (hd : 0 < d) (ha : 2 * a < (2 ^ 25 - 1) * 2 ^ 253 * d) :
    ∃ k n, k = Nat.log2 (a / d) - 23 ∧ n = nearestEven a (d * 2 ^ k) ∧ (k = 0 ∨ 2 ^ 23 * 2 ^ k * d ≤ a) ∧
      (k = 0 ∨ 2 ^ 23 ≤ n) ∧ n ≤ 2 ^ 24 ∧ k * 2 ^ 23 + n < 255 * 2 ^ 23 := by
  refine ⟨_, _, rfl, rfl, ?_⟩
  generalize hk : Nat.log2 (a / d) - 23 = k
  have hD : 0 < d * 2 ^ k := Nat.mul_pos hd (Nat.two_pow_pos k)
  have hlow : k = 0 ∨ 2 ^ 23 * 2 ^ k * d ≤ a := by
    by_cases h : k = 0
    · exact .inl h
    · right
      have h0 : a / d ≠ 0 := by intro h0; rw [h0] at hk; simp [Nat.log2_zero] at hk; omega
      have := Nat.log2_self_le h0
      have h23 : 2 ^ 23 * 2 ^ k = 2 ^ Nat.log2 (a / d) := by rw [← Nat.pow_add]; congr 1; omega
      rw [h23]
      exact (Nat.le_div_iff_mul_le hd).mp this
  have hup : a ≤ 2 ^ 24 * (d * 2 ^ k) := by
    have h1 : a / d < 2 ^ (Nat.log2 (a / d) + 1) := Nat.lt_log2_self
    have h2 : a / d < 2 ^ (24 + k) := lt_of_lt_of_le h1 (Nat.pow_le_pow_right (by decide) (by omega))
    have h3 : a < 2 ^ (24 + k) * d := (Nat.div_lt_iff_lt_mul hd).mp h2
    rw [Nat.pow_add] at h3
    calc a ≤ 2 ^ 24 * 2 ^ k * d := h3.le
      _ = 2 ^ 24 * (d * 2 ^ k) := by ring
  have hbet := nearestEven_between (a := if k = 0 then 0 else 2 ^ 23) hD
    (by split
        · simp
        · have := hlow.resolve_left ‹_›
          calc 2 ^ 23 * (d * 2 ^ k) = 2 ^ 23 * 2 ^ k * d := by ring
            _ ≤ a := this) hup
  have hn : k = 0 ∨ 2 ^ 23 ≤ nearestEven a (d * 2 ^ k) := by
    by_cases h : k = 0
    · exact .inl h
    · right; simpa [h] using hbet.1
  refine ⟨hlow, hn, hbet.2, ?_⟩
  -- the exponent is at most 253, and at 253 the nearest integer is below 2^24
  by_cases h253 : k < 253
  · have := hbet.2
    omega
  · have hkk : k = 253 := by
      by_contra hne
      have h254 : 254 ≤ k := by omega
      have h1 := hlow.resolve_left (by omega)
      have h2 : 2 ^ 23 * 2 ^ 254 ≤ 2 ^ 23 * 2 ^ k := Nat.mul_le_mul_left _ (Nat.pow_le_pow_right (by decide) h254)
      have h3 : 2 ^ 23 * 2 ^ 254 * d ≤ a := le_trans (Nat.mul_le_mul_right d h2) h1
      have h4 : (2 ^ 25 - 1) * 2 ^ 253 * d ≤ 2 * (2 ^ 23 * 2 ^ 254 * d) := by
        have : (2 ^ 25 - 1) * 2 ^ 253 ≤ 2 * (2 ^ 23 * 2 ^ 254) := by norm_num
        calc (2 ^ 25 - 1) * 2 ^ 253 * d ≤ 2 * (2 ^ 23 * 2 ^ 254) * d := Nat.mul_le_mul_right d this
          _ = 2 * (2 ^ 23 * 2 ^ 254 * d) := by ring
      omega
    subst hkk
    have hDa : 2 * a < (2 ^ 25 - 1) * (d * 2 ^ 253) := by
      calc 2 * a < (2 ^ 25 - 1) * 2 ^ 253 * d := ha
        _ = (2 ^ 25 - 1) * (d * 2 ^ 253) := by ring
    have hlt : nearestEven a (d * 2 ^ 253) < 2 ^ 24 := by
      generalize d * 2 ^ 253 = D at hD hDa
      have hp := Nat.div_add_mod a D
      have hr := Nat.mod_lt a hD
      have hq : a / D < 2 ^ 24 := by
        rw [Nat.div_lt_iff_lt_mul hD]; omega
      by_cases hq1 : a / D = 2 ^ 24 - 1
      · rw [hq1] at hp
        rw [nearestEven, if_pos (by omega)]; omega
      · unfold nearestEven
        split
        · omega
        · split <;> omega
    omega

/-- A finite value is below the overflow threshold. -/
theorem magUnits_no_overflow {w : Word} (h : fexp w < 255) : ¬ 2 * magUnits w ≥ (2 ^ 25 - 1) * 2 ^ 253 * 1 := by
  have h1 := ffrac_lt w
  have hm : magUnits w ≤ (2 ^ 24 - 1) * 2 ^ 253 := by
    unfold magUnits
    split
    · have : 1 ≤ 2 ^ 253 := Nat.two_pow_pos _
      calc ffrac w ≤ (2 ^ 24 - 1) * 1 := by omega
        _ ≤ (2 ^ 24 - 1) * 2 ^ 253 := Nat.mul_le_mul_left _ this
    · exact Nat.mul_le_mul (by omega) (Nat.pow_le_pow_right (by decide) (by omega))
  have : 0 < 2 ^ 253 := Nat.two_pow_pos 253
  omega

/-- Rounding a value that a finite pattern has gives that pattern, zeros apart (R141). -/
theorem round32_valUnits {w : Word} (z : Bool) (h : fexp w < 255) (h0 : valUnits w ≠ 0) :
    round32 (valUnits w) 1 z = w := by
  have hm0 : magUnits w ≠ 0 := by rw [← natAbs_valUnits]; omega
  have hneg : decide (valUnits w < 0) = fsign w := by
    unfold valUnits at h0 ⊢
    cases fsign w <;> simp_all <;> omega
  have hno := magUnits_no_overflow h
  unfold round32
  rw [if_neg h0, natAbs_valUnits, if_neg hno, hneg]
  conv_rhs => rw [← signedPattern_fields w]
  have hf := ffrac_lt w
  simp only [Nat.div_one, Nat.one_mul]
  by_cases he : fexp w = 0
  · have hmag : magUnits w = ffrac w := by simp [magUnits, he]
    have hk : Nat.log2 (magUnits w) - 23 = 0 := by
      have : Nat.log2 (magUnits w) < 23 := (Nat.log2_lt hm0).mpr (by rw [hmag]; exact hf)
      omega
    have hn := nearestEven_mul (ffrac w) (d := 1) (by decide)
    rw [Nat.mul_one] at hn
    rw [hk, hmag, he, Nat.pow_zero, hn]
  · have hmag : magUnits w = (2 ^ 23 + ffrac w) * 2 ^ (fexp w - 1) := by simp [magUnits, he]
    have hk : Nat.log2 (magUnits w) - 23 = fexp w - 1 := by
      have : Nat.log2 (magUnits w) = 23 + (fexp w - 1) := by
        rw [Nat.log2_eq_iff hm0, hmag]
        constructor
        · rw [Nat.pow_add]
          exact Nat.mul_le_mul_right _ (by omega)
        · rw [show 23 + (fexp w - 1) + 1 = 24 + (fexp w - 1) by omega, Nat.pow_add]
          exact Nat.mul_lt_mul_of_pos_right (by omega) (Nat.two_pow_pos _)
      omega
    have hp : (fexp w - 1) * 2 ^ 23 + (2 ^ 23 + ffrac w) = fexp w * 2 ^ 23 + ffrac w := by omega
    rw [hk, hmag, nearestEven_mul _ (Nat.two_pow_pos _), hp]

end Sys2Proof.Machine
end

