-- ==== Sys2Proof/Laws/PerInstr.lean ====
section
/-! SUPPORT. Per instruction: the command's encoding is spelled by its row of the opcode table (spec/30_encoding.md R92). -/

/-- A row of the opcode table spells the command's `CMD`, and its operands read from the encoding are the command's. -/
def Sys2Proof.Laws.Spells.Statement (i : Sys2Proof.Instr) : Prop :=
  ∃ row ∈ Sys2Proof.opcodeTable,
    (Sys2Proof.encode i).1 &&& row.mask = row.pattern ∧
    Sys2Proof.operandsOf row.mnemonic (Sys2Proof.fField (Sys2Proof.encode i).1) (Sys2Proof.idxField (Sys2Proof.encode i).1)
      (Sys2Proof.encode i).2 = some i

/-- A command whose `CMD` is three fields and whose row covers only fields that are 0 in it. -/
theorem Sys2Proof.Laws.Spells.of_fields {i : Sys2Proof.Instr} {m : Sys2Proof.Mnemonic} {op f mf : Sys2Proof.Byte}
    {idx mi : Sys2Proof.Half} {data : Sys2Proof.Word}
    (hmem : ⟨m, Sys2Proof.cmdWord 0xFF#8 mf mi, Sys2Proof.cmdWord op 0#8 0#16⟩ ∈ Sys2Proof.opcodeTable)
    (he : Sys2Proof.encode i = (Sys2Proof.cmdWord op f idx, data)) (hf : f &&& mf = 0#8) (hi : idx &&& mi = 0#16)
    (ho : Sys2Proof.operandsOf m f idx data = some i) : Sys2Proof.Laws.Spells.Statement i := by
  refine ⟨_, hmem, ?_, ?_⟩
  · have hop : op &&& 0xFF#8 = op := BitVec.and_allOnes
    rw [he]
    simp only [Sys2Proof.cmdWord_and, hf, hi, hop]
  · rw [he]
    simpa using ho

theorem Sys2Proof.Laws.Spells.nop (ignored : Sys2Proof.Word) : Sys2Proof.Laws.Spells.Statement (.nop ignored) :=
  Sys2Proof.Laws.Spells.of_fields (mf := 0xff#8) (mi := 0xffff#16) (m := .nop) (op := 0x00#8) (by decide) rfl
    (by simp) (by simp) (by simp [Sys2Proof.operandsOf])

theorem Sys2Proof.Laws.Spells.srst (ignored : Sys2Proof.Word) : Sys2Proof.Laws.Spells.Statement (.srst ignored) :=
  Sys2Proof.Laws.Spells.of_fields (mf := 0xff#8) (mi := 0xffff#16) (m := .srst) (op := 0x01#8) (by decide) rfl
    (by simp) (by simp) (by simp [Sys2Proof.operandsOf])

theorem Sys2Proof.Laws.Spells.rd (sel : Sys2Proof.Reg) (ignored : Sys2Proof.Word) : Sys2Proof.Laws.Spells.Statement (.rd sel ignored) :=
  Sys2Proof.Laws.Spells.of_fields (mf := 0xff#8) (mi := 0x0000#16) (m := .rd) (op := 0x02#8) (by decide) rfl
    (by simp) (by simp) (by cases sel <;> rfl)

theorem Sys2Proof.Laws.Spells.setme (v : Sys2Proof.Word) : Sys2Proof.Laws.Spells.Statement (.setme v) :=
  Sys2Proof.Laws.Spells.of_fields (mf := 0xff#8) (mi := 0xffff#16) (m := .setme) (op := 0x08#8) (by decide) rfl
    (by simp) (by simp) (by simp [Sys2Proof.operandsOf])

theorem Sys2Proof.Laws.Spells.setorig (v : Sys2Proof.Word) : Sys2Proof.Laws.Spells.Statement (.setorig v) :=
  Sys2Proof.Laws.Spells.of_fields (mf := 0xff#8) (mi := 0xffff#16) (m := .setorig) (op := 0x09#8) (by decide) rfl
    (by simp) (by simp) (by simp [Sys2Proof.operandsOf])

theorem Sys2Proof.Laws.Spells.setpred (v : Sys2Proof.Word) : Sys2Proof.Laws.Spells.Statement (.setpred v) :=
  Sys2Proof.Laws.Spells.of_fields (mf := 0xff#8) (mi := 0xffff#16) (m := .setpred) (op := 0x0a#8) (by decide) rfl
    (by simp) (by simp) (by simp [Sys2Proof.operandsOf])

theorem Sys2Proof.Laws.Spells.setsym (v : Sys2Proof.Word) : Sys2Proof.Laws.Spells.Statement (.setsym v) :=
  Sys2Proof.Laws.Spells.of_fields (mf := 0xff#8) (mi := 0xffff#16) (m := .setsym) (op := 0x0b#8) (by decide) rfl
    (by simp) (by simp) (by simp [Sys2Proof.operandsOf])

theorem Sys2Proof.Laws.Spells.resid (ignored : Sys2Proof.Word) : Sys2Proof.Laws.Spells.Statement (.resid ignored) :=
  Sys2Proof.Laws.Spells.of_fields (mf := 0xff#8) (mi := 0xffff#16) (m := .resid) (op := 0x10#8) (by decide) rfl
    (by simp) (by simp) (by simp [Sys2Proof.operandsOf])

theorem Sys2Proof.Laws.Spells.quant (ignored : Sys2Proof.Word) : Sys2Proof.Laws.Spells.Statement (.quant ignored) :=
  Sys2Proof.Laws.Spells.of_fields (mf := 0xff#8) (mi := 0xffff#16) (m := .quant) (op := 0x11#8) (by decide) rfl
    (by simp) (by simp) (by simp [Sys2Proof.operandsOf])

theorem Sys2Proof.Laws.Spells.dequant (ignored : Sys2Proof.Word) : Sys2Proof.Laws.Spells.Statement (.dequant ignored) :=
  Sys2Proof.Laws.Spells.of_fields (mf := 0xff#8) (mi := 0xffff#16) (m := .dequant) (op := 0x12#8) (by decide) rfl
    (by simp) (by simp) (by simp [Sys2Proof.operandsOf])

theorem Sys2Proof.Laws.Spells.recon (ignored : Sys2Proof.Word) : Sys2Proof.Laws.Spells.Statement (.recon ignored) :=
  Sys2Proof.Laws.Spells.of_fields (mf := 0xff#8) (mi := 0xffff#16) (m := .recon) (op := 0x13#8) (by decide) rfl
    (by simp) (by simp) (by simp [Sys2Proof.operandsOf])

theorem Sys2Proof.Laws.Spells.setwp (v : Sys2Proof.Word) : Sys2Proof.Laws.Spells.Statement (.setwp v) :=
  Sys2Proof.Laws.Spells.of_fields (mf := 0xff#8) (mi := 0xffff#16) (m := .setwp) (op := 0x20#8) (by decide) rfl
    (by simp) (by simp) (by simp [Sys2Proof.operandsOf])

theorem Sys2Proof.Laws.Spells.setrp (v : Sys2Proof.Word) : Sys2Proof.Laws.Spells.Statement (.setrp v) :=
  Sys2Proof.Laws.Spells.of_fields (mf := 0xff#8) (mi := 0xffff#16) (m := .setrp) (op := 0x21#8) (by decide) rfl
    (by simp) (by simp) (by simp [Sys2Proof.operandsOf])

theorem Sys2Proof.Laws.Spells.setrl (v : Sys2Proof.Word) : Sys2Proof.Laws.Spells.Statement (.setrl v) :=
  Sys2Proof.Laws.Spells.of_fields (mf := 0xff#8) (mi := 0xffff#16) (m := .setrl) (op := 0x22#8) (by decide) rfl
    (by simp) (by simp) (by simp [Sys2Proof.operandsOf])

theorem Sys2Proof.Laws.Spells.putbits (n : Sys2Proof.Byte) (v : Sys2Proof.Word) : Sys2Proof.Laws.Spells.Statement (.putbits n v) :=
  Sys2Proof.Laws.Spells.of_fields (mf := 0x00#8) (mi := 0xffff#16) (m := .putbits) (op := 0x23#8) (by decide) rfl
    (by simp) (by simp) (by simp [Sys2Proof.operandsOf])

theorem Sys2Proof.Laws.Spells.getbits (n : Sys2Proof.Byte) (ignored : Sys2Proof.Word) : Sys2Proof.Laws.Spells.Statement (.getbits n ignored) :=
  Sys2Proof.Laws.Spells.of_fields (mf := 0x00#8) (mi := 0xffff#16) (m := .getbits) (op := 0x24#8) (by decide) rfl
    (by simp) (by simp) (by simp [Sys2Proof.operandsOf])

theorem Sys2Proof.Laws.Spells.stb (byte : Sys2Proof.Byte) (addr : Sys2Proof.Word) : Sys2Proof.Laws.Spells.Statement (.stb byte addr) :=
  Sys2Proof.Laws.Spells.of_fields (mf := 0x00#8) (mi := 0xffff#16) (m := .stb) (op := 0x25#8) (by decide) rfl
    (by simp) (by simp) (by simp [Sys2Proof.operandsOf])

theorem Sys2Proof.Laws.Spells.ldb (addr : Sys2Proof.Word) : Sys2Proof.Laws.Spells.Statement (.ldb addr) :=
  Sys2Proof.Laws.Spells.of_fields (mf := 0xff#8) (mi := 0xffff#16) (m := .ldb) (op := 0x26#8) (by decide) rfl
    (by simp) (by simp) (by simp [Sys2Proof.operandsOf])

theorem Sys2Proof.Laws.Spells.ctclr (ignored : Sys2Proof.Word) : Sys2Proof.Laws.Spells.Statement (.ctclr ignored) :=
  Sys2Proof.Laws.Spells.of_fields (mf := 0xff#8) (mi := 0xffff#16) (m := .ctclr) (op := 0x30#8) (by decide) rfl
    (by simp) (by simp) (by simp [Sys2Proof.operandsOf])

theorem Sys2Proof.Laws.Spells.ctset (len : Sys2Proof.Byte) (code : Sys2Proof.Word) : Sys2Proof.Laws.Spells.Statement (.ctset len code) :=
  Sys2Proof.Laws.Spells.of_fields (mf := 0x00#8) (mi := 0xffff#16) (m := .ctset) (op := 0x31#8) (by decide) rfl
    (by simp) (by simp) (by simp [Sys2Proof.operandsOf])

theorem Sys2Proof.Laws.Spells.ctrd (field : Sys2Proof.CtField) (idx : Sys2Proof.Half) (ignored : Sys2Proof.Word) : Sys2Proof.Laws.Spells.Statement (.ctrd field idx ignored) :=
  Sys2Proof.Laws.Spells.of_fields (mf := 0x00#8) (mi := 0x0000#16) (m := .ctrd) (op := 0x32#8) (by decide) rfl
    (by simp) (by simp) (by simp [Sys2Proof.operandsOf])

theorem Sys2Proof.Laws.Spells.tclr (ignored : Sys2Proof.Word) : Sys2Proof.Laws.Spells.Statement (.tclr ignored) :=
  Sys2Proof.Laws.Spells.of_fields (mf := 0xff#8) (mi := 0xffff#16) (m := .tclr) (op := 0x33#8) (by decide) rfl
    (by simp) (by simp) (by simp [Sys2Proof.operandsOf])

theorem Sys2Proof.Laws.Spells.tleaf (idx : Sys2Proof.Half) (sym : Sys2Proof.Word) : Sys2Proof.Laws.Spells.Statement (.tleaf idx sym) :=
  Sys2Proof.Laws.Spells.of_fields (mf := 0xff#8) (mi := 0x0000#16) (m := .tleaf) (op := 0x34#8) (by decide) rfl
    (by simp) (by simp) (by simp [Sys2Proof.operandsOf])

theorem Sys2Proof.Laws.Spells.tint (idx : Sys2Proof.Half) (left right : Sys2Proof.Half) : Sys2Proof.Laws.Spells.Statement (.tint idx left right) :=
  Sys2Proof.Laws.Spells.of_fields (mf := 0xff#8) (mi := 0x0000#16) (m := .tint) (op := 0x35#8) (by decide) rfl
    (by simp) (by simp) (by simp [Sys2Proof.operandsOf])

theorem Sys2Proof.Laws.Spells.trd (field : Sys2Proof.TreeField) (idx : Sys2Proof.Half) (ignored : Sys2Proof.Word) : Sys2Proof.Laws.Spells.Statement (.trd field idx ignored) :=
  Sys2Proof.Laws.Spells.of_fields (mf := 0x00#8) (mi := 0x0000#16) (m := .trd) (op := 0x36#8) (by decide) rfl
    (by simp) (by simp) (by simp [Sys2Proof.operandsOf])

theorem Sys2Proof.Laws.Spells.cgen (ignored : Sys2Proof.Word) : Sys2Proof.Laws.Spells.Statement (.cgen ignored) :=
  Sys2Proof.Laws.Spells.of_fields (mf := 0xff#8) (mi := 0xffff#16) (m := .cgen) (op := 0x37#8) (by decide) rfl
    (by simp) (by simp) (by simp [Sys2Proof.operandsOf])

theorem Sys2Proof.Laws.Spells.enc (ignored : Sys2Proof.Word) : Sys2Proof.Laws.Spells.Statement (.enc ignored) :=
  Sys2Proof.Laws.Spells.of_fields (mf := 0xff#8) (mi := 0xffff#16) (m := .enc) (op := 0x38#8) (by decide) rfl
    (by simp) (by simp) (by simp [Sys2Proof.operandsOf])

theorem Sys2Proof.Laws.Spells.dec (ignored : Sys2Proof.Word) : Sys2Proof.Laws.Spells.Statement (.dec ignored) :=
  Sys2Proof.Laws.Spells.of_fields (mf := 0xff#8) (mi := 0xffff#16) (m := .dec) (op := 0x39#8) (by decide) rfl
    (by simp) (by simp) (by simp [Sys2Proof.operandsOf])

theorem Sys2Proof.Laws.Spells.tser (ignored : Sys2Proof.Word) : Sys2Proof.Laws.Spells.Statement (.tser ignored) :=
  Sys2Proof.Laws.Spells.of_fields (mf := 0xff#8) (mi := 0xffff#16) (m := .tser) (op := 0x40#8) (by decide) rfl
    (by simp) (by simp) (by simp [Sys2Proof.operandsOf])

theorem Sys2Proof.Laws.Spells.tdes (ignored : Sys2Proof.Word) : Sys2Proof.Laws.Spells.Statement (.tdes ignored) :=
  Sys2Proof.Laws.Spells.of_fields (mf := 0xff#8) (mi := 0xffff#16) (m := .tdes) (op := 0x41#8) (by decide) rfl
    (by simp) (by simp) (by simp [Sys2Proof.operandsOf])
end

