-- ==== Sys2Proof/Laws/Rules.lean ====
section
/-! SUPPORT. What each command's rule can answer, said once: the state when it completes, the cause when it faults. -/

namespace Sys2Proof.Machine

variable {s u : State} {c : Cause}

/-! ### Quantizer -/

theorem bucketOf_ok {d q : Word} (h : bucketOf d = .ok q) :
    isNan32 d = false ∧ isInf32 d = false ∧ -2 ^ 31 ≤ roundHalfAway d ∧ roundHalfAway d ≤ 2 ^ 31 - 1 ∧
      q = BitVec.ofInt 32 (roundHalfAway d) := by
  unfold bucketOf at h
  split at h
  · simp at h
  · next h1 =>
    split at h
    · simp at h
    · next h2 =>
      simp at h1 h2 h
      exact ⟨h1.1, h1.2, by omega, by omega, h.symm⟩

theorem bucketOf_error {d : Word} (h : bucketOf d = .error c) :
    c = .quantRange ∧ (isNan32 d = true ∨ isInf32 d = true ∨ roundHalfAway d < -2 ^ 31 ∨ 2 ^ 31 - 1 < roundHalfAway d) := by
  unfold bucketOf at h
  split at h
  · next h1 => simp at h1 h; exact ⟨h.symm, by tauto⟩
  · split at h
    · next h2 => simp at h2 h; exact ⟨h.symm, by omega⟩
    · simp at h

theorem quantRule_ok (h : quantRule s = .ok u) :
    ∃ q, bucketOf (fdiv32 s.res (bucketWidth s)) = .ok q ∧ u = { s with sym := q } := by
  unfold quantRule at h
  split at h
  · next q hq => simp at h; exact ⟨q, hq, h.symm⟩
  · simp at h

theorem quantRule_error (h : quantRule s = .error c) : bucketOf (fdiv32 s.res (bucketWidth s)) = .error c := by
  unfold quantRule at h
  split at h
  · simp at h
  · next h1 => simp at h; rw [h1, h]

/-! ### Bit-stream packer and unpacker -/

theorem setwpRule_ok {v : Word} (h : setwpRule v s = .ok u) : v.toNat ≤ bufBits s ∧ u = { s with wptr := v } := by
  unfold setwpRule at h
  split at h <;> simp at h
  exact ⟨by omega, h.symm⟩

theorem setrpRule_ok {v : Word} (h : setrpRule v s = .ok u) : v.toNat ≤ bufBits s ∧ u = { s with rptr := v } := by
  unfold setrpRule at h
  split at h <;> simp at h
  exact ⟨by omega, h.symm⟩

theorem setrlRule_ok {v : Word} (h : setrlRule v s = .ok u) : v.toNat ≤ bufBits s ∧ u = { s with rlim := v } := by
  unfold setrlRule at h
  split at h <;> simp at h
  exact ⟨by omega, h.symm⟩

theorem putbitsRule_ok {n : Byte} {v : Word} (h : putbitsRule n v s = .ok u) :
    s.wptr.toNat + n.toNat ≤ bufBits s ∧
      u = { s with
        buf := bitWrite s.buf s.wptr.toNat n.toNat v, wptr := BitVec.ofNat 32 (s.wptr.toNat + n.toNat) } := by
  unfold putbitsRule at h
  split at h <;> simp at h
  exact ⟨by omega, h.symm⟩

theorem getbitsRule_ok {n : Byte} (h : getbitsRule n s = .ok u) :
    s.rptr.toNat + n.toNat ≤ s.rlim.toNat ∧
      u = { s with
        out := bitRead s.buf s.rptr.toNat n.toNat, rptr := BitVec.ofNat 32 (s.rptr.toNat + n.toNat) } := by
  unfold getbitsRule at h
  split at h <;> simp at h
  exact ⟨by omega, h.symm⟩

theorem stbRule_ok {b : Byte} {addr : Word} (h : stbRule b addr s = .ok u) :
    addr.toNat < bufBytes s ∧ u = { s with buf := putByte s.buf addr.toNat b } := by
  unfold stbRule at h
  split at h <;> simp at h
  exact ⟨by omega, h.symm⟩

theorem ldbRule_ok {addr : Word} (h : ldbRule addr s = .ok u) :
    addr.toNat < bufBytes s ∧ u = { s with out := (byteAt s.buf addr.toNat).setWidth 32 } := by
  unfold ldbRule at h
  split at h <;> simp at h
  exact ⟨by omega, h.symm⟩

/-! ### Code table and tree -/

theorem ctsetRule_ok {len : Byte} {code : Word} (h : ctsetRule len code s = .ok u) :
    (∃ i e, entryOf s s.sym = some (i, e) ∧ u = { s with ct := putCell s.ct i (ctsetEntry s.sym len code) }) ∨
    (∃ i, entryOf s s.sym = none ∧ leastFree s.ct (ctEntries s) 0 = some i ∧
      u = { s with ct := putCell s.ct i (ctsetEntry s.sym len code), ctn := s.ctn + 1#32 }) := by
  unfold ctsetRule at h
  split at h
  · next i e he => simp at h; exact .inl ⟨i, e, he, h.symm⟩
  · next he =>
    split at h <;> simp at h
    next i hi => exact .inr ⟨i, he, hi, h.symm⟩

theorem ctrdRule_ok {f : CtField} {i : Half} (h : ctrdRule f i s = .ok u) :
    i.toNat < ctEntries s ∧ u = { s with out := ctFieldValue (cellAt s.ct i.toNat) f } := by
  unfold ctrdRule at h
  split at h <;> simp at h
  exact ⟨by omega, h.symm⟩

theorem putNodeRule_ok {i : Half} {n : Node} (h : putNodeRule i n s = .ok u) :
    i.toNat < treeNodes s ∧ u = { s with tree := putCell s.tree i.toNat n } := by
  unfold putNodeRule at h
  split at h <;> simp at h
  exact ⟨by omega, h.symm⟩

theorem trdRule_ok {f : TreeField} {i : Half} (h : trdRule f i s = .ok u) :
    i.toNat < treeNodes s ∧ u = { s with out := treeFieldValue (cellAt s.tree i.toNat) f } := by
  unfold trdRule at h
  split at h <;> simp at h
  exact ⟨by omega, h.symm⟩

theorem cgenRule_ok (h : cgenRule s = .ok u) :
    ∃ rows, cgenRows s = .ok rows ∧
      u = { s with ct := numberedFrom 0 rows, ctn := BitVec.ofNat 32 rows.length } := by
  unfold cgenRule at h
  split at h <;> simp at h
  next rows hr => exact ⟨rows, hr, h.symm⟩

theorem encRule_ok (h : encRule s = .ok u) :
    s.ctn ≠ 0#32 ∧ ∃ i e, entryOf s s.sym = some (i, e) ∧ s.wptr.toNat + e.len.toNat ≤ bufBits s ∧
      u = { s with
        buf := bitWrite s.buf s.wptr.toNat e.len.toNat e.code
        wptr := BitVec.ofNat 32 (s.wptr.toNat + e.len.toNat) } := by
  unfold encRule at h
  split at h
  · simp at h
  · next h0 =>
    split at h
    · simp at h
    · next i e he =>
      split at h <;> simp at h
      exact ⟨h0, i, e, he, by omega, h.symm⟩

theorem decRule_ok (h : decRule s = .ok u) :
    ∃ y p, decSymbol s = .ok (y, p) ∧ u = { s with sym := y, rptr := BitVec.ofNat 32 p } := by
  unfold decRule at h
  split at h <;> simp at h
  next y p hd => exact ⟨y, p, hd, h.symm⟩

/-! ### Serializer -/

theorem tserRule_ok (h : tserRule s = .ok u) :
    ∃ bits, tserBits s = .ok bits ∧
      u = { s with
        buf := writeBits s.buf s.wptr.toNat bits
        out := BitVec.ofNat 32 bits.length
        wptr := BitVec.ofNat 32 (s.wptr.toNat + bits.length) } := by
  unfold tserRule at h
  split at h <;> simp at h
  next bits hb => exact ⟨bits, hb, h.symm⟩

theorem tdesRule_ok (h : tdesRule s = .ok u) :
    ∃ k, desNode s (treeNodes s) { p := s.rptr.toNat, next := 0, nodes := [] } = .ok k ∧
      u = { s with
        tree := k.nodes
        out := BitVec.ofNat 32 (k.p - s.rptr.toNat)
        rptr := BitVec.ofNat 32 k.p } := by
  unfold tdesRule at h
  split at h <;> simp at h
  next k hk => exact ⟨k, hk, h.symm⟩

/-! ### What no rule writes -/

/-- The rule of no command writes the fault record, the counter, the parameters or the deliveries. -/
theorem ruleOf_keeps {i : Instr} (h : ruleOf i s = .ok u) :
    u.faulted = s.faulted ∧ u.fcode = s.fcode ∧ u.finfo = s.finfo ∧ u.fdata = s.fdata ∧ u.cmdcnt = s.cmdcnt ∧
      u.params = s.params ∧ u.inbox = s.inbox := by
  cases i <;> simp only [ruleOf, Except.ok.injEq] at h
  case quant => obtain ⟨q, -, rfl⟩ := quantRule_ok h; simp
  case setwp => obtain ⟨-, rfl⟩ := setwpRule_ok h; simp
  case setrp => obtain ⟨-, rfl⟩ := setrpRule_ok h; simp
  case setrl => obtain ⟨-, rfl⟩ := setrlRule_ok h; simp
  case putbits => obtain ⟨-, rfl⟩ := putbitsRule_ok h; simp
  case getbits => obtain ⟨-, rfl⟩ := getbitsRule_ok h; simp
  case stb => obtain ⟨-, rfl⟩ := stbRule_ok h; simp
  case ldb => obtain ⟨-, rfl⟩ := ldbRule_ok h; simp
  case ctset => obtain ⟨i, e, -, rfl⟩ | ⟨i, -, -, rfl⟩ := ctsetRule_ok h <;> simp
  case ctrd => obtain ⟨-, rfl⟩ := ctrdRule_ok h; simp
  case tleaf => obtain ⟨-, rfl⟩ := putNodeRule_ok h; simp
  case tint => obtain ⟨-, rfl⟩ := putNodeRule_ok h; simp
  case trd => obtain ⟨-, rfl⟩ := trdRule_ok h; simp
  case cgen => obtain ⟨r, -, rfl⟩ := cgenRule_ok h; simp
  case enc => obtain ⟨-, i, e, -, -, rfl⟩ := encRule_ok h; simp
  case dec => obtain ⟨y, p, -, rfl⟩ := decRule_ok h; simp
  case tser => obtain ⟨b, -, rfl⟩ := tserRule_ok h; simp
  case tdes => obtain ⟨k, -, rfl⟩ := tdesRule_ok h; simp
  all_goals (subst h; simp)

end Sys2Proof.Machine
end

