-- ==== Sys2Proof/Laws/Serial.lean ====
section
/-! SUPPORT. What the serializer's walks answer (spec/44_tree_serialization.md R220 to R222). -/

namespace Sys2Proof.Machine

variable {s : State}

/-! ### `TSER` -/

theorem length_treeBits_pos (tr : HTree) : 1 ≤ (treeBits tr).length := by cases tr <;> simp [treeBits]

/-- A leaf takes 33 bits, an internal node one, and there is one leaf more than there are internal nodes. -/
theorem length_treeBits (tr : HTree) : (treeBits tr).length + 16 = 17 * treeSize tr + 32 := by
  induction tr with
  | leaf y => simp [treeBits, treeSize]
  | node l r ihl ihr => simp [treeBits, treeSize]; omega

/-- `emit` of nodes that hold trees: their serialized forms one after the other when they fit the budget, else
`CapacityExceeded` (R221). -/
theorem emitNodes_of_holds {visits room : Nat} {pending : List (Nat × HTree)} (hh : ∀ c ∈ pending, holdsTree s c.1 c.2)
    (hv : room < visits) :
    emitNodes s visits room (pending.map (·.1)) =
      if (pending.flatMap (fun c => treeBits c.2)).length ≤ room then .ok (pending.flatMap (fun c => treeBits c.2))
      else .error .capacityExceeded := by
  induction visits generalizing room pending with
  | zero => omega
  | succ visits ih =>
    cases pending with
    | nil => simp [emitNodes]
    | cons c rest =>
      obtain ⟨n, tr⟩ := c
      have hn := hh (n, tr) List.mem_cons_self
      have hrest : ∀ c ∈ rest, holdsTree s c.1 c.2 := fun c hc => hh c (List.mem_cons_of_mem _ hc)
      cases tr with
      | leaf y =>
        simp only [holdsTree] at hn
        simp only [List.map_cons, emitNodes, hn, List.flatMap_cons, List.length_append, treeBits, List.length_cons,
          length_bitsOf]
        by_cases h : room < 33
        · rw [if_pos h, if_neg (by omega)]
        · rw [if_neg h, ih hrest (by omega)]
          by_cases h2 : (rest.flatMap (fun c => treeBits c.2)).length ≤ room - 33
          · rw [if_pos h2, if_pos (by omega)]; rfl
          · rw [if_neg h2, if_neg (by omega)]
      | node l r =>
        obtain ⟨a, b, hx, ha, hb⟩ := hn
        have hall : ∀ c ∈ (a.toNat, l) :: (b.toNat, r) :: rest, holdsTree s c.1 c.2 := by
          intro c hc
          simp only [List.mem_cons] at hc
          rcases hc with rfl | rfl | hc
          · exact ha
          · exact hb
          · exact hrest c hc
        simp only [List.map_cons, emitNodes, hx, List.flatMap_cons, List.length_append, treeBits, List.length_cons]
        by_cases h : room < 1
        · rw [if_pos h, if_neg (by omega)]
        · have hi := ih hall (room := room - 1) (by omega)
          simp only [List.map_cons, List.flatMap_cons, List.length_append] at hi
          rw [if_neg h, hi]
          by_cases h2 : (treeBits l).length + ((treeBits r).length + (rest.flatMap (fun c => treeBits c.2)).length) ≤ room - 1
          · rw [if_pos h2, if_pos (by omega)]; simp
          · rw [if_neg h2, if_neg (by omega)]

/-- `emit` appends no more bits than the budget has. -/
theorem emitNodes_ok {visits room : Nat} {pending : List Nat} {bits : List Bool}
    (h : emitNodes s visits room pending = .ok bits) : bits.length ≤ room := by
  induction visits generalizing room pending bits with
  | zero =>
    cases pending <;> simp [emitNodes] at h
    subst h; simp
  | succ visits ih =>
    cases pending with
    | nil => simp [emitNodes] at h; subst h; simp
    | cons n rest =>
      simp only [emitNodes] at h
      split at h
      · simp at h
      · split at h
        · simp at h
        · split at h
          · simp at h
          · next b hb => simp at h; subst h; have := ih hb; simp [leafBits]; omega
      · split at h
        · simp at h
        · split at h
          · simp at h
          · next b hb => simp at h; subst h; have := ih hb; simp; omega

theorem tserBits_ok {bits : List Bool} (h : tserBits s = .ok bits) : s.wptr.toNat + bits.length ≤ max (bufBits s) s.wptr.toNat := by
  unfold tserBits at h
  split at h
  · simp at h
  · have := emitNodes_ok h; omega

/-- `TSER`'s bits for a tree that `TREE` holds at node 0 (R221). -/
theorem tserBits_of_holds {tr : HTree} (hh : holdsTree s 0 tr) :
    tserBits s = if (treeBits tr).length ≤ bufBits s - s.wptr.toNat then .ok (treeBits tr) else .error .capacityExceeded := by
  obtain ⟨x, hx⟩ := nodeAt_of_holdsTree hh
  have := emitNodes_of_holds (pending := [(0, tr)]) (room := bufBits s - s.wptr.toNat)
    (visits := bufBits s - s.wptr.toNat + 1) (by simpa using hh) (by omega)
  simpa [tserBits, hx] using this

/-! ### `TDES` -/

/-- What `des` answers when it does not fault: the cursor moved, inside `RLIM`; nodes `k.next` to `k'.next - 1` filled
(R222). -/
theorem desNode_ok {depth : Nat} {k k' : DesScratch} (h : desNode s depth k = .ok k') :
    k.p < k'.p ∧ k'.p ≤ s.rlim.toNat ∧ k.next < k'.next ∧ k'.next ≤ treeNodes s ∧
      (cellsWf k.nodes = true → cellsWf k'.nodes = true) ∧
      ∀ c ∈ k'.nodes, c ∈ k.nodes ∨ c.1 < treeNodes s := by
  induction depth generalizing k k' with
  | zero => unfold desNode at h; split at h <;> simp at h
  | succ depth ih =>
    unfold desNode at h
    split at h
    · simp at h
    · split at h
      · simp at h
      · split at h
        · split at h
          · simp at h
          · simp only [Except.ok.injEq] at h
            subst h
            refine ⟨by simp, by simp; omega, by simp, by simp; omega, fun hw => cellsWf_putCell hw, fun c hc => ?_⟩
            rcases mem_putCell hc with rfl | hc
            · right; simp; omega
            · exact .inl hc
        · split at h
          · simp at h
          · next kl hl =>
            split at h
            · simp at h
            · next kr hr =>
              simp only [Except.ok.injEq] at h
              subst h
              obtain ⟨a1, a2, a3, a4, a5, a6⟩ := ih hl
              obtain ⟨b1, b2, b3, b4, b5, b6⟩ := ih hr
              simp only at a1 a3 a5 a6
              refine ⟨by simp; omega, b2, by simp; omega, b4, fun hw => cellsWf_putCell (b5 (a5 hw)), fun c hc => ?_⟩
              rcases mem_putCell hc with rfl | hc
              · right; simp; omega
              · rcases b6 c hc with hc | hc
                · exact a6 c hc
                · exact .inr hc

theorem treeSize_pos (tr : HTree) : 1 ≤ treeSize tr := by cases tr <;> simp [treeSize]

/-- Preorder numbering from `i` on uses the numbers `i` to `i + treeSize - 1`. -/
theorem mem_preorderNodes {i : Nat} {tr : HTree} {c : Nat × Node} (h : c ∈ preorderNodes i tr) :
    i ≤ c.1 ∧ c.1 < i + treeSize tr := by
  induction tr generalizing i with
  | leaf y => simp [preorderNodes] at h; subst h; simp [treeSize]
  | node l r ihl ihr =>
    simp only [preorderNodes, List.mem_cons, List.mem_append] at h
    rcases h with rfl | h | h
    · simp [treeSize]
    · have := ihl h; simp [treeSize]; omega
    · have := ihr h; simp [treeSize]; omega

theorem cellAt_append {α : Type} (a b : List (Nat × α)) (n : Nat) :
    cellAt (a ++ b) n = (cellAt a n).or (cellAt b n) := by
  induction a with
  | nil => simp
  | cons c a ih =>
    obtain ⟨k, v⟩ := c
    by_cases h : k = n <;> simp [cellAt, h, ih]

theorem cellAt_preorderNodes_outside {i n : Nat} {tr : HTree} (h : n < i ∨ i + treeSize tr ≤ n) :
    cellAt (preorderNodes i tr) n = none := by
  cases hc : cellAt (preorderNodes i tr) n with
  | none => rfl
  | some v => have := mem_preorderNodes (mem_of_cellAt hc); simp at this; omega

/-- The node of a serialized leaf's bits. -/
theorem bitRead_of_bits {m : Memory} {p : Nat} {y : Word} (h : ∀ k, k < 32 → bitAt m (p + k) = y.getLsbD k) :
    bitRead m p 32 = y := by
  apply BitVec.eq_of_getLsbD_eq
  intro k hk
  rw [getLsbD_bitRead _ _ _ _ (by omega), h k hk]
  simp [hk]

/-- `des` at a serialized tree fills its nodes in preorder numbering (R220, R222). -/
theorem desNode_of_bits {depth : Nat} {k : DesScratch} {tr : HTree} (hd : treeSize tr ≤ depth)
    (hbits : ∀ j (h : j < (treeBits tr).length), bitAt s.buf (k.p + j) = (treeBits tr)[j])
    (hl : k.p + (treeBits tr).length ≤ s.rlim.toNat) (hn : k.next + treeSize tr ≤ treeNodes s) :
    ∃ nodes, desNode s depth k = .ok { p := k.p + (treeBits tr).length, next := k.next + treeSize tr, nodes := nodes } ∧
      ∀ n, cellAt nodes n = (cellAt (preorderNodes k.next tr) n).or (cellAt k.nodes n) := by
  induction depth generalizing k tr with
  | zero => have := treeSize_pos tr; omega
  | succ depth ih =>
    have hp := length_treeBits_pos tr
    have hs := treeSize_pos tr
    have h1 : ¬ k.p + 1 > s.rlim.toNat := by omega
    have h2 : ¬ k.next ≥ treeNodes s := by omega
    unfold desNode
    rw [if_neg h1, if_neg h2]
    cases tr with
    | leaf y =>
      have hb : bitAt s.buf k.p = true := hbits 0 (by simp [treeBits])
      have h3 : ¬ k.p + 1 + 32 > s.rlim.toNat := by simp [treeBits] at hl; omega
      have hy : bitRead s.buf (k.p + 1) 32 = y := by
        apply bitRead_of_bits
        intro j hj
        have := hbits (j + 1) (by simp [treeBits]; omega)
        rw [show k.p + 1 + j = k.p + (j + 1) by omega, this]
        simp [treeBits]
      rw [if_pos hb, if_neg h3, hy]
      refine ⟨putCell k.nodes k.next (.leaf y), by simp [treeBits, treeSize], fun n => ?_⟩
      by_cases hkn : k.next = n <;> simp [cellAt_putCell, preorderNodes, cellAt, hkn]
    | node l r =>
      have hb : bitAt s.buf k.p = false := hbits 0 (by simp [treeBits])
      simp only [treeSize] at hd hn hs
      simp only [treeBits, List.length_cons, List.length_append] at hl hbits
      obtain ⟨nl, hl1, hl2⟩ := ih (k := { p := k.p + 1, next := k.next + 1, nodes := k.nodes }) (tr := l) (by omega)
        (fun j h => by
          have := hbits (j + 1) (by omega)
          simp only
          rw [show k.p + 1 + j = k.p + (j + 1) by omega, this]
          simp [List.getElem_append_left h])
        (by simp only; omega) (by simp only; omega)
      obtain ⟨nr, hr1, hr2⟩ := ih
        (k := { p := k.p + 1 + (treeBits l).length, next := k.next + 1 + treeSize l, nodes := nl }) (tr := r) (by omega)
        (fun j h => by
          have := hbits ((treeBits l).length + j + 1) (by omega)
          simp only
          rw [show k.p + 1 + (treeBits l).length + j = k.p + ((treeBits l).length + j + 1) by omega, this]
          simp)
        (by simp only; omega) (by simp only; omega)
      rw [if_neg (by simp [hb]), hl1]
      simp only [hr1]
      refine ⟨_, by
        simp only [treeBits, treeSize, List.length_cons, List.length_append, Except.ok.injEq, DesScratch.mk.injEq, and_true]
        exact ⟨by omega, by omega, rfl⟩, fun n => ?_⟩
      rw [cellAt_putCell, hr2, hl2]
      simp only [preorderNodes, cellAt]
      by_cases hkn : k.next = n
      · simp [hkn]
      · simp only [hkn, if_false, cellAt_append]
        by_cases hin : n < k.next + 1 + treeSize l
        · rw [cellAt_preorderNodes_outside (tr := r) (.inl hin)]; simp
        · rw [cellAt_preorderNodes_outside (tr := l) (.inr (by omega))]; simp

/-- A tree whose nodes are stored in preorder numbering is held (R222, R203). -/
theorem holdsTree_preorder {i : Nat} {tr : HTree} (hn : i + treeSize tr ≤ treeNodes s) (h16 : treeNodes s ≤ 2 ^ 16)
    (hc : ∀ n, i ≤ n → n < i + treeSize tr → cellAt s.tree n = cellAt (preorderNodes i tr) n) : holdsTree s i tr := by
  induction tr generalizing i with
  | leaf y =>
    have := hc i (by omega) (by simp [treeSize])
    simp [treeSize] at hn
    simp [holdsTree, nodeAt, this, preorderNodes, cellAt]
    omega
  | node l r ihl ihr =>
    simp only [treeSize] at hn hc
    have h0 := hc i (by omega) (by omega)
    simp only [preorderNodes, cellAt, if_true] at h0
    have hsl := treeSize_pos l
    have hsr := treeSize_pos r
    refine ⟨BitVec.ofNat 16 (i + 1), BitVec.ofNat 16 (i + 1 + treeSize l), ?_, ?_, ?_⟩
    · rw [nodeAt, if_pos (by omega), h0]
    · rw [BitVec.toNat_ofNat, Nat.mod_eq_of_lt (by omega)]
      refine ihl (by omega) (fun n h1 h2 => ?_)
      rw [hc n (by omega) (by omega), preorderNodes, cellAt, if_neg (by omega), cellAt_append,
        cellAt_preorderNodes_outside (tr := r) (.inl (by omega))]
      simp
    · rw [BitVec.toNat_ofNat, Nat.mod_eq_of_lt (by omega)]
      refine ihr (by omega) (fun n h1 h2 => ?_)
      rw [hc n (by omega) (by omega), preorderNodes, cellAt, if_neg (by omega), cellAt_append,
        cellAt_preorderNodes_outside (tr := l) (.inr (by omega))]
      simp

end Sys2Proof.Machine
end

