-- ==== Sys2Proof/Laws/Table.lean ====
section
/-! SUPPORT. Searching and writing the code table (spec/10_state.md R35, spec/43_huffman_table.md R192, R199). -/

namespace Sys2Proof.Machine

/-! ### The entry of a symbol -/

theorem entryOf_mem {s : State} {y : Word} {i : Nat} {e : CtEntry} (h : entryOf s y = some (i, e)) :
    (i, e) ∈ s.ct ∧ e.sym = y := by
  unfold entryOf at h
  exact ⟨List.mem_of_find?_eq_some h, by simpa using List.find?_some h⟩

theorem find_entry {ct : List (Nat × CtEntry)} {low i : Nat} {e : CtEntry} (hr : risingFrom low ct = true)
    (hp : ct.Pairwise (fun a b => a.2.sym ≠ b.2.sym)) (hc : cellAt ct i = some e) :
    ct.find? (fun cell => cell.2.sym == e.sym) = some (i, e) := by
  induction ct generalizing low with
  | nil => simp at hc
  | cons c rest ih =>
    obtain ⟨k, w⟩ := c
    simp [risingFrom] at hr
    rw [List.pairwise_cons] at hp
    by_cases hk : k = i
    · simp [cellAt, hk] at hc; subst hc; simp [hk]
    · simp only [cellAt, hk, if_false] at hc
      have := hp.1 _ (mem_of_cellAt hc)
      simp at this
      simp [this]
      exact ih hr.2 hp.2 hc

/-- In a well-kept state the search finds the one entry of a symbol (R35). -/
theorem entryOf_some {s : State} (hi : s.Inv) {i : Nat} {e : CtEntry} (hc : cellAt s.ct i = some e) :
    entryOf s e.sym = some (i, e) := find_entry hi.ctForm hi.ctSymsDistinct hc

/-- The search finds nothing where no entry has the symbol. -/
theorem entryOf_none {s : State} (hi : s.Inv) {y : Word} (h : ∀ j e, cellAt s.ct j = some e → e.sym ≠ y) :
    entryOf s y = none := by
  unfold entryOf
  rw [List.find?_eq_none]
  intro c hc
  simpa using h c.1 c.2 (cellAt_of_mem hi.ctForm hc)

/-- A table with an entry has `CTN` above 0 (R25, R40). -/
theorem ctn_ne_zero {s : State} (hi : s.Inv) {i : Nat} {e : CtEntry} (hc : cellAt s.ct i = some e) : s.ctn ≠ 0#32 := by
  intro h
  have h1 := hi.ctnCounts
  rw [h] at h1
  have h2 : s.ct = [] := List.eq_nil_of_length_eq_zero (by simpa using h1.symm)
  rw [h2] at hc
  simp at hc

/-! ### The least invalid entry -/

theorem leastFree_eq {α : Type} {cells : List (Nat × α)} {n i j : Nat} (h1 : i ≤ j) (h2 : j < i + n)
    (h3 : cellAt cells j = none) (h4 : ∀ k, k < j → cellAt cells k ≠ none) : leastFree cells n i = some j := by
  induction n generalizing i with
  | zero => omega
  | succ n ih =>
    unfold leastFree
    by_cases h : i = j
    · subst h; simp [h3]
    · cases hc : cellAt cells i with
      | none => exact absurd hc (h4 i (by omega))
      | some v => simp; exact ih (by omega) (by omega)

theorem leastFree_eq_none {α : Type} {cells : List (Nat × α)} {n i : Nat} (h : ∀ k, k < i + n → cellAt cells k ≠ none) :
    leastFree cells n i = none := by
  induction n generalizing i with
  | zero => rfl
  | succ n ih =>
    unfold leastFree
    cases hc : cellAt cells i with
    | none => exact absurd hc (h i (by omega))
    | some v => simp; exact ih (fun k hk => h k (by omega))

/-! ### Symbols stay distinct -/

/-- Writing an entry whose symbol no other entry has keeps the symbols distinct (R35). -/
theorem pairwise_putCell {ct : List (Nat × CtEntry)} {low i : Nat} {e : CtEntry} (hr : risingFrom low ct = true)
    (hp : ct.Pairwise (fun a b => a.2.sym ≠ b.2.sym)) (hn : ∀ c ∈ ct, c.1 ≠ i → c.2.sym ≠ e.sym) :
    (putCell ct i e).Pairwise (fun a b => a.2.sym ≠ b.2.sym) := by
  induction ct generalizing low with
  | nil => simp [putCell]
  | cons c rest ih =>
    obtain ⟨k, w⟩ := c
    simp [risingFrom] at hr
    rw [List.pairwise_cons] at hp
    have hge : ∀ c ∈ rest, k + 1 ≤ c.1 := fun c hc => le_of_mem_rising hr.2 hc
    unfold putCell
    split
    · next hlt =>
      rw [List.pairwise_cons, List.pairwise_cons]
      refine ⟨fun c hc => ?_, hp⟩
      have : c.1 ≠ i := by
        rcases List.mem_cons.mp hc with rfl | hc
        · simp; omega
        · have := hge c hc; omega
      exact (hn c hc this).symm
    · split
      · next h1 h2 =>
        rw [List.pairwise_cons]
        refine ⟨fun c hc => ?_, hp.2⟩
        have := hge c hc
        exact (hn c (List.mem_cons_of_mem _ hc) (by omega)).symm
      · next h1 h2 =>
        rw [List.pairwise_cons]
        refine ⟨fun c hc => ?_, ih hr.2 hp.2 (fun c hc => hn c (List.mem_cons_of_mem _ hc))⟩
        rcases mem_putCell hc with rfl | hc
        · exact hn (k, w) List.mem_cons_self (by simp; omega)
        · exact hp.1 c hc

end Sys2Proof.Machine
end

