-- ==== Sys2Proof/Laws/Walks.lean ====
section
/-! SUPPORT. What the walks over `TREE` answer: `CGEN`, `DEC` (spec/43_huffman_table.md R198, R200). -/

namespace Sys2Proof.Machine

variable {s : State}

/-! ### `CGEN` -/

/-- `rows'` is `rows` with the codes of a tree that `TREE` holds below a node added, and the checks that were made. -/
def cgenMade (s : State) (bits : List Bool) (rows : List CtEntry) (tr : HTree) (rows' : List CtEntry) : Prop :=
  treeDepth tr + bits.length ≤ 32 ∧ rows' = rows ++ (codesFrom bits tr).map codeEntry ∧
    ((rows.map (·.sym)).Nodup → (rows'.map (·.sym)).Nodup) ∧
    (rows.length ≤ ctEntries s → rows'.length ≤ ctEntries s)

theorem cgenChild_ok {descend : Half → Half → Word → List CtEntry → Except Cause (List CtEntry)} {c : Half}
    {bits : List Bool} {rows rows' : List CtEntry} (hb : bits.length ≤ 32)
    (hd : ∀ a b, descend a b (BitVec.ofNat 32 (natOfBits bits)) rows = .ok rows' →
      ∃ l r, holdsTree s a.toNat l ∧ holdsTree s b.toNat r ∧ cgenMade s bits rows (.node l r) rows')
    (h : cgenChild s bits.length descend c (BitVec.ofNat 32 (natOfBits bits)) rows = .ok rows') :
    ∃ tr, holdsTree s c.toNat tr ∧ cgenMade s bits rows tr rows' := by
  unfold cgenChild at h
  split at h
  · simp at h
  · next y hn =>
    split at h
    · simp at h
    · next hdup =>
      split at h
      · simp at h
      · next hroom =>
        simp only [Except.ok.injEq] at h
        subst h
        refine ⟨.leaf y, hn, by simpa [treeDepth] using hb, rfl, fun h => ?_, fun h => ?_⟩
        · simp at hdup
          rw [List.map_append, List.nodup_append]
          refine ⟨h, by simp, ?_⟩
          intro a ha b hb'
          simp at ha hb'
          obtain ⟨e, he, rfl⟩ := ha
          subst hb'
          exact hdup e he
        · simp; omega
  · next a b hn =>
    obtain ⟨l, r, hl, hr, hm⟩ := hd a b h
    exact ⟨.node l r, ⟨a, b, hn, hl, hr⟩, hm⟩

/-- Everything `walk` can answer when it does not fault: `TREE` holds two subtrees, and their codes are added (R198). -/
theorem cgenWalk_ok {room : Nat} {left right : Half} {bits : List Bool} {rows rows' : List CtEntry}
    (hb : bits.length + room = 32)
    (h : cgenWalk s room left right (BitVec.ofNat 32 (natOfBits bits)) rows = .ok rows') :
    ∃ l r, holdsTree s left.toNat l ∧ holdsTree s right.toNat r ∧ cgenMade s bits rows (.node l r) rows' := by
  induction room generalizing left right bits rows rows' with
  | zero => simp [cgenWalk] at h
  | succ room ih =>
    have hc : Config.codeMax - room = bits.length + 1 := by simp [Config.codeMax]; omega
    have hc' : Config.codeMax - 1 - room = bits.length := by simp [Config.codeMax]; omega
    simp only [cgenWalk] at h
    rw [hc, hc', ← natOfBits_true, ← natOfBits_false bits] at h
    split at h
    · simp at h
    · next mid hleft =>
      have e1 : (bits ++ [false]).length = bits.length + 1 := by simp
      have e2 : (bits ++ [true]).length = bits.length + 1 := by simp
      rw [← e1] at hleft
      rw [← e2] at h
      obtain ⟨l, hl, dl, ml, nl, cl⟩ := cgenChild_ok (by simp; omega) (fun a b hab => ih (by simp; omega) hab) hleft
      obtain ⟨r, hr, dr, mr, nr, cr⟩ := cgenChild_ok (by simp; omega) (fun a b hab => ih (by simp; omega) hab) h
      refine ⟨l, r, hl, hr, ?_, ?_, fun hn => nr (nl hn), fun hn => cr (cl hn)⟩
      · simp [treeDepth] at dl dr ⊢; omega
      · rw [mr, ml]; simp [codesFrom]

theorem cgenChild_of_holds {descend : Half → Half → Word → List CtEntry → Except Cause (List CtEntry)} {c : Half}
    {bits : List Bool} {rows : List CtEntry} {tr : HTree} (hh : holdsTree s c.toNat tr)
    (hn : (rows.map (·.sym) ++ treeSyms tr).Nodup) (hl : rows.length + (treeSyms tr).length ≤ ctEntries s)
    (hd : ∀ a b l r, tr = .node l r → holdsTree s a.toNat l → holdsTree s b.toNat r →
      descend a b (BitVec.ofNat 32 (natOfBits bits)) rows = .ok (rows ++ (codesFrom bits tr).map codeEntry)) :
    cgenChild s bits.length descend c (BitVec.ofNat 32 (natOfBits bits)) rows =
      .ok (rows ++ (codesFrom bits tr).map codeEntry) := by
  cases tr with
  | leaf y =>
    have hroom : rows.length ≠ ctEntries s := by simp [treeSyms] at hl; omega
    have hdup : ∀ e ∈ rows, ¬ e.sym = y := by
      intro e he hy
      rw [List.nodup_append] at hn
      exact hn.2.2 e.sym (List.mem_map_of_mem he) y (by simp [treeSyms]) hy
    simp only [holdsTree] at hh
    have hany : rows.any (fun r => r.sym == y) = false := by simpa using hdup
    simp only [cgenChild, hh, hany, hroom]
    rfl
  | node l r =>
    obtain ⟨a, b, hx, ha, hb⟩ := hh
    simp only [cgenChild, hx]
    exact hd a b l r rfl ha hb

/-- `walk` on two subtrees that `TREE` holds, no deeper than `CODE_MAX`, with fresh symbols and room for them (R198). -/
theorem cgenWalk_of_holds {room : Nat} {left right : Half} {bits : List Bool} {rows : List CtEntry} {l r : HTree}
    (hb : bits.length + room = 32) (hd : treeDepth (.node l r) ≤ room) (hl : holdsTree s left.toNat l)
    (hr : holdsTree s right.toNat r) (hn : (rows.map (·.sym) ++ treeSyms (.node l r)).Nodup)
    (hc : rows.length + (treeSyms (.node l r)).length ≤ ctEntries s) :
    cgenWalk s room left right (BitVec.ofNat 32 (natOfBits bits)) rows =
      .ok (rows ++ (codesFrom bits (.node l r)).map codeEntry) := by
  induction room generalizing left right bits rows l r with
  | zero => simp [treeDepth] at hd
  | succ room ih =>
    have hc1 : Config.codeMax - room = bits.length + 1 := by simp [Config.codeMax]; omega
    have hc2 : Config.codeMax - 1 - room = bits.length := by simp [Config.codeMax]; omega
    simp [treeDepth] at hd
    simp only [treeSyms, List.length_append] at hc
    simp only [treeSyms, ← List.append_assoc] at hn
    have e1 : (bits ++ [false]).length = bits.length + 1 := by simp
    have e2 : (bits ++ [true]).length = bits.length + 1 := by simp
    have step : ∀ (tr : HTree) (rows : List CtEntry) (b : Bool), treeDepth tr ≤ room →
        (rows.map (·.sym) ++ treeSyms tr).Nodup → rows.length + (treeSyms tr).length ≤ ctEntries s →
        ∀ x y l r, tr = .node l r → holdsTree s x.toNat l → holdsTree s y.toNat r →
          cgenWalk s room x y (BitVec.ofNat 32 (natOfBits (bits ++ [b]))) rows =
            .ok (rows ++ (codesFrom (bits ++ [b]) tr).map codeEntry) := by
      rintro _ rows b h1 h2 h3 x y l r rfl hx hy
      exact ih (by simp; omega) h1 hx hy h2 h3
    have h1 := cgenChild_of_holds (bits := bits ++ [false]) (descend := cgenWalk s room) hl (List.nodup_append.mp hn).1
      (by omega) (step l rows false hd.1 (List.nodup_append.mp hn).1 (by omega))
    have hn2 : ((rows ++ (codesFrom (bits ++ [false]) l).map codeEntry).map (·.sym) ++ treeSyms r).Nodup := by
      simp only [List.map_append, List.map_map]
      rw [show (fun x : CtEntry => x.sym) ∘ codeEntry = (·.1) from rfl, map_fst_codesFrom]
      exact hn
    have h2 := cgenChild_of_holds (bits := bits ++ [true]) (descend := cgenWalk s room) hr hn2 (by simp; omega)
      (step r _ true hd.2 hn2 (by simp; omega))
    rw [e1] at h1
    rw [e2] at h2
    simp only [cgenWalk]
    rw [hc1, hc2, ← natOfBits_true, ← natOfBits_false bits, h1]
    simp only [h2]
    simp [codesFrom]

/-- `CGEN`'s rows are the codes of a tree that `TREE` holds at node 0 (R198, R201). -/
theorem cgenRows_ok {rows : List CtEntry} (h : cgenRows s = .ok rows) :
    ∃ tr, holdsTree s 0 tr ∧ treeDepth tr ≤ 32 ∧ (treeSyms tr).Nodup ∧
      ((treeSyms tr).length ≤ ctEntries s ∨ ∃ y, tr = .leaf y) ∧ rows = (treeCodes tr).map codeEntry := by
  unfold cgenRows at h
  split at h
  · simp at h
  · next y hn =>
    simp only [Except.ok.injEq] at h
    subst h
    exact ⟨.leaf y, hn, by simp [treeDepth], by simp [treeSyms], .inr ⟨y, rfl⟩, rfl⟩
  · next a b hn =>
    obtain ⟨l, r, hl, hr, hd, rfl, hnd, hlen⟩ := cgenWalk_ok (bits := []) (by simp [Config.codeMax]) h
    refine ⟨.node l r, ⟨a, b, hn, hl, hr⟩, by simpa using hd, ?_, .inl ?_, by simp [treeCodes]⟩
    · have := hnd (by simp)
      simp only [List.nil_append, List.map_map] at this
      rwa [show (fun x : CtEntry => x.sym) ∘ codeEntry = (·.1) from rfl, map_fst_codesFrom] at this
    · simpa using hlen (by simp)

/-- `CGEN`'s rows for a tree that `TREE` holds at node 0 and that passes the checks (R198, R201). -/
theorem cgenRows_of_holds {tr : HTree} (hh : holdsTree s 0 tr) (hd : treeDepth tr ≤ 32) (hn : (treeSyms tr).Nodup)
    (hc : (treeSyms tr).length ≤ ctEntries s ∨ ∃ y, tr = .leaf y) : cgenRows s = .ok ((treeCodes tr).map codeEntry) := by
  cases tr with
  | leaf y => simp only [holdsTree] at hh; simp [cgenRows, hh, treeCodes, codeEntry, natOfBits]
  | node l r =>
    obtain ⟨a, b, hx, ha, hb⟩ := hh
    have hc' : (treeSyms (.node l r)).length ≤ ctEntries s := by simpa using hc
    simp only [cgenRows, hx, treeCodes]
    simpa [Config.codeMax] using cgenWalk_of_holds (bits := []) (rows := []) (by simp) hd ha hb (by simpa using hn)
      (by simpa using hc')

/-- A row of `CGEN` is a valid entry of `CT` (R35). -/
theorem entryWf_treeCodes {tr : HTree} (hd : treeDepth tr ≤ 32) : ∀ e ∈ (treeCodes tr).map codeEntry, entryWf e := by
  intro e he
  simp only [List.mem_map] at he
  obtain ⟨c, hc, rfl⟩ := he
  cases tr with
  | leaf y => simp [treeCodes] at hc; subst hc; exact entryWf_codeEntry (by simp) (by simp)
  | node l r =>
    have h1 := (length_code_le hc).2
    exact entryWf_codeEntry (length_code_pos hc) (by simp at h1; omega)

/-! ### `DEC` -/

/-- The position after a codeword lies beyond where it began and not beyond `RLIM` (R200). -/
theorem decWalk_ok {avail p q : Nat} {l r : Half} {y : Word} (h : decWalk s avail p l r = .ok (y, q)) :
    p < q ∧ q ≤ p + avail := by
  induction avail generalizing p l r with
  | zero => simp [decWalk] at h
  | succ avail ih =>
    unfold decWalk at h
    split at h
    · simp at h
    · simp at h; omega
    · have := ih h; omega

theorem decSymbol_ok {y : Word} {q : Nat} (h : decSymbol s = .ok (y, q)) : s.rptr.toNat < q ∧ q ≤ s.rlim.toNat := by
  unfold decSymbol at h
  split at h
  · simp at h
  · split at h
    · simp at h
    · simp at h; omega
  · have := decWalk_ok h; omega

/-- `DEC`'s loop follows the path of a leaf (R200). -/
theorem decWalk_of_code {avail p : Nat} {a b : Half} {l r : HTree} {y : Word} {path : List Bool}
    (ha : holdsTree s a.toNat l) (hb : holdsTree s b.toNat r) (hc : (y, path) ∈ codesFrom [] (.node l r))
    (hbits : ∀ k (h : k < path.length), bitAt s.buf (p + k) = path[k]) (hl : path.length ≤ avail) :
    decWalk s avail p a b = .ok (y, p + path.length) := by
  induction avail generalizing p a b l r path with
  | zero =>
    have := length_code_pos hc
    simp only at this
    omega
  | succ avail ih =>
    have hchild : ∃ (side : Bool) (rest : List Bool), path = side :: rest ∧
        (y, rest) ∈ codesFrom [] (if side then r else l) := by
      simp only [codesFrom, List.nil_append, List.mem_append] at hc
      rcases hc with hc | hc
      · rw [codesFrom_eq_map] at hc
        simp only [List.mem_map, Prod.mk.injEq] at hc
        obtain ⟨c, hc, rfl, rfl⟩ := hc
        exact ⟨false, c.2, rfl, hc⟩
      · rw [codesFrom_eq_map] at hc
        simp only [List.mem_map, Prod.mk.injEq] at hc
        obtain ⟨c, hc, rfl, rfl⟩ := hc
        exact ⟨true, c.2, rfl, hc⟩
    obtain ⟨side, rest, rfl, hside'⟩ := hchild
    have hside : bitAt s.buf p = side := hbits 0 (by simp)
    have hheld : holdsTree s (if side then b else a).toNat (if side then r else l) := by
      cases side
      · exact ha
      · exact hb
    have hrest : ∀ k (h : k < rest.length), bitAt s.buf (p + 1 + k) = rest[k] := by
      intro k hk
      have := hbits (k + 1) (by simpa using hk)
      rw [show p + 1 + k = p + (k + 1) by omega]
      simpa using this
    simp only [List.length_cons] at hl
    unfold decWalk
    rw [hside]
    cases ht : (if side then r else l) with
    | leaf z =>
      rw [ht] at hheld hside'
      simp only [holdsTree] at hheld
      simp [codesFrom] at hside'
      obtain ⟨rfl, rfl⟩ := hside'
      simp [hheld]
    | node l' r' =>
      rw [ht] at hheld hside'
      obtain ⟨x, z, hx, hl', hr'⟩ := hheld
      simp only [hx]
      rw [ih hl' hr' hside' hrest (by omega)]
      simp; omega

end Sys2Proof.Machine
end

