-- ==== Sys2Proof/Laws/Ways.lean ====
section
/-! SUPPORT. What the walks answer at the end of a way, said once: a walk that has passed good nodes answers what it answers
at the node it has come to (spec/43_huffman_table.md R198, R200; spec/44_tree_serialization.md R221, R222). -/

namespace Sys2Proof.Machine

variable {s : State} {c : Cause}

/-- A way that does not end at once begins at an internal node. -/
theorem nodeAt_of_leadsTo {w : Way} {n m : Nat} (h : leadsTo s w n m) (hw : w ≠ .here) :
    ∃ a b : Half, nodeAt s n = some (.internal a b) := by
  cases w with
  | here => exact absurd rfl hw
  | left w => obtain ⟨a, b, hx, -⟩ := h; exact ⟨a, b, hx⟩
  | right t w => obtain ⟨a, b, hx, -⟩ := h; exact ⟨a, b, hx⟩

/-! ### `CGEN` -/

/-- `walk` ends in what it raises at the child at the end of the way, after rows for the symbols passed. -/
theorem cgenWalk_of_way {w : Way} {room n m : Nat} {a b : Half} {bits : List Bool} {rows : List CtEntry}
    (hx : nodeAt s n = some (.internal a b)) (hw : w ≠ .here) (hl : leadsTo s w n m) (hb : bits.length + room = 32)
    (hd : wayDepth w ≤ room) (hn : (rows.map (·.sym) ++ waySyms w).Nodup)
    (hc : rows.length + (waySyms w).length ≤ ctEntries s)
    (hend : ∀ (rows' : List CtEntry) depth descend (k : Half) p, rows'.map (·.sym) = rows.map (·.sym) ++ waySyms w →
      k.toNat = m → cgenChild s depth descend k p rows' = .error c) :
    cgenWalk s room a b (BitVec.ofNat 32 (natOfBits bits)) rows = .error c := by
  induction w generalizing room n a b bits rows with
  | here => exact absurd rfl hw
  | left w ih =>
    obtain ⟨a', b', hx', hl⟩ := hl
    rw [hx] at hx'
    obtain ⟨rfl, rfl⟩ : a = a' ∧ b = b' := by simpa using hx'
    cases room with
    | zero => simp [wayDepth] at hd
    | succ room =>
      simp only [wayDepth] at hd
      have key : ∀ depth, cgenChild s depth (cgenWalk s room) a (BitVec.ofNat 32 (natOfBits bits)) rows = .error c := by
        intro depth
        by_cases hw' : w = .here
        · subst hw'
          exact hend _ _ _ _ _ (by simp [waySyms]) hl
        · obtain ⟨x, y, hy⟩ := nodeAt_of_leadsTo hl hw'
          simp only [cgenChild, hy]
          rw [← natOfBits_false bits]
          exact ih hy hw' hl (by simp; omega) (by omega) hn hc hend
      simp only [cgenWalk, key]
  | right t w ih =>
    obtain ⟨a', b', hx', ht, hl⟩ := hl
    rw [hx] at hx'
    obtain ⟨rfl, rfl⟩ : a = a' ∧ b = b' := by simpa using hx'
    cases room with
    | zero => simp [wayDepth] at hd
    | succ room =>
      simp only [wayDepth, Nat.add_le_add_iff_right, Nat.max_le] at hd
      simp only [waySyms, List.length_append, ← List.append_assoc] at hn hc hend
      have hn1 := (List.nodup_append.mp hn).1
      have hc1 : Config.codeMax - room = bits.length + 1 := by simp [Config.codeMax]; omega
      have hc2 : Config.codeMax - 1 - room = bits.length := by simp [Config.codeMax]; omega
      have hfst : (rows ++ (codesFrom (bits ++ [false]) t).map codeEntry).map (·.sym) = rows.map (·.sym) ++ treeSyms t := by
        simp only [List.map_append, List.map_map]
        rw [show (fun x : CtEntry => x.sym) ∘ codeEntry = (·.1) from rfl, map_fst_codesFrom]
      have h1 := cgenChild_of_holds (bits := bits ++ [false]) (descend := cgenWalk s room) ht hn1 (by omega) (by
        rintro x y l r rfl hx hy
        exact cgenWalk_of_holds (by simp; omega) hd.1 hx hy hn1 (by omega))
      rw [show (bits ++ [false]).length = bits.length + 1 by simp, natOfBits_false] at h1
      simp only [cgenWalk, hc1, hc2, h1]
      rw [← natOfBits_true]
      by_cases hw' : w = .here
      · subst hw'
        exact hend _ _ _ _ _ (by simpa [waySyms] using hfst) hl
      · obtain ⟨x, y, hy⟩ := nodeAt_of_leadsTo hl hw'
        simp only [cgenChild, hy]
        refine ih hy hw' hl (by simp; omega) hd.2 (by rw [hfst]; exact hn) (by simp; omega) ?_
        intro rows' depth descend k p hr hk
        exact hend rows' depth descend k p (by rw [hr, hfst]) hk

/-- `CGEN` ends in what its walk raises at the end of a way from the root. -/
theorem cgenRows_of_way {w : Way} {m : Nat} (hw : w ≠ .here) (hl : leadsTo s w 0 m) (hd : wayDepth w ≤ 32)
    (hn : (waySyms w).Nodup) (hc : (waySyms w).length ≤ ctEntries s)
    (hend : ∀ (rows : List CtEntry) depth descend (k : Half) p, rows.map (·.sym) = waySyms w → k.toNat = m →
      cgenChild s depth descend k p rows = .error c) : cgenRows s = .error c := by
  obtain ⟨a, b, hx⟩ := nodeAt_of_leadsTo hl hw
  simp only [cgenRows, hx]
  simpa [Config.codeMax] using cgenWalk_of_way (bits := []) (rows := []) hx hw hl (by simp) hd (by simpa using hn)
    (by simpa using hc) (by simpa using hend)

/-- The way to leaf number `i` of a tree that `TREE` holds. -/
theorem way_to_leaf {tr : HTree} {n i : Nat} (hh : holdsTree s n tr) (hi : i < (treeSyms tr).length) :
    ∃ w m y, leadsTo s w n m ∧ nodeAt s m = some (.leaf y) ∧ (waySyms w).length = i ∧
      waySyms w ++ [y] <+: treeSyms tr ∧ wayDepth w ≤ treeDepth tr := by
  induction tr generalizing n i with
  | leaf y =>
    have : i = 0 := by simpa [treeSyms] using hi
    exact ⟨.here, n, y, rfl, hh, by simp [waySyms, this], by simp [waySyms, treeSyms], by simp [wayDepth]⟩
  | node l r ihl ihr =>
    obtain ⟨a, b, hx, ha, hb⟩ := hh
    simp only [treeSyms, List.length_append] at hi
    by_cases h : i < (treeSyms l).length
    · obtain ⟨w, m, y, h1, h2, h3, h4, h5⟩ := ihl ha h
      exact ⟨.left w, m, y, ⟨a, b, hx, h1⟩, h2, h3, h4.trans (List.prefix_append _ _), by simp [wayDepth, treeDepth]; omega⟩
    · obtain ⟨w, m, y, h1, h2, h3, h4, h5⟩ := ihr (i := i - (treeSyms l).length) hb (by omega)
      refine ⟨.right l w, m, y, ⟨a, b, hx, ha, h1⟩, h2, by simp [waySyms, h3]; omega, ?_, by
        simp [wayDepth, treeDepth]; omega⟩
      simpa [waySyms, treeSyms] using h4

/-! ### `DEC` -/

/-- `DEC`'s loop goes where the bits lead. -/
theorem decWalk_of_descent {bits : List Bool} {avail p n m : Nat} {l r : Half} (hx : nodeAt s n = some (.internal l r))
    (hbits : ∀ k (h : k < bits.length), bitAt s.buf (p + k) = bits[k]) (hl : bits.length ≤ avail)
    (hd : descendsTo s bits n m) :
    (bits ≠ [] → nodeAt s m = none → decWalk s avail p l r = .error .badTree) ∧
    (∀ x y, nodeAt s m = some (.internal x y) →
      decWalk s avail p l r = decWalk s (avail - bits.length) (p + bits.length) x y) := by
  induction bits generalizing avail p n l r with
  | nil =>
    refine ⟨fun h => absurd rfl h, fun x y hm => ?_⟩
    rw [descendsTo] at hd
    subst hd
    rw [hx] at hm
    obtain ⟨rfl, rfl⟩ : l = x ∧ r = y := by simpa using hm
    simp
  | cons b bits ih =>
    obtain ⟨l', r', hx', hd⟩ := hd
    rw [hx] at hx'
    obtain ⟨rfl, rfl⟩ : l = l' ∧ r = r' := by simpa using hx'
    have hb : bitAt s.buf p = b := hbits 0 (by simp)
    have hrest : ∀ k (h : k < bits.length), bitAt s.buf (p + 1 + k) = bits[k] := by
      intro k hk
      have := hbits (k + 1) (by simpa using hk)
      rw [show p + 1 + k = p + (k + 1) by omega]
      simpa using this
    cases avail with
    | zero => simp at hl
    | succ avail =>
      simp only [List.length_cons, Nat.add_le_add_iff_right] at hl
      cases bits with
      | nil =>
        rw [descendsTo] at hd
        subst hd
        constructor
        · intro _ hm; simp only [decWalk, hb, hm]
        · intro x y hm; simp [decWalk, hb, hm]
      | cons b' bits =>
        obtain ⟨x', y', hx'', -⟩ := id hd
        have h := ih hx'' hrest hl hd
        simp only [decWalk, hb, hx'']
        refine ⟨fun _ hm => h.1 (by simp) hm, fun x y hm => ?_⟩
        rw [h.2 x y hm]
        simp only [List.length_cons]
        congr 1 <;> omega

/-! ### `TSER` -/

/-- `emit` of a tree that fits and of more nodes ends in what the rest ends in. -/
theorem emitNodes_error_of_holds {tr : HTree} {visits room n : Nat} {rest : List Nat} (hh : holdsTree s n tr)
    (hv : room < visits) (hf : (treeBits tr).length ≤ room)
    (hrest : ∀ visits', room - (treeBits tr).length < visits' →
      emitNodes s visits' (room - (treeBits tr).length) rest = .error c) :
    emitNodes s visits room (n :: rest) = .error c := by
  induction tr generalizing visits room n rest with
  | leaf y =>
    obtain ⟨v, rfl⟩ : ∃ v, visits = v + 1 := ⟨visits - 1, by omega⟩
    have e : (treeBits (.leaf y)).length = 33 := by simp [treeBits]
    rw [e] at hf hrest
    simp only [holdsTree] at hh
    simp only [emitNodes, hh, hrest v (by omega)]
    rw [if_neg (by omega)]
  | node l r ihl ihr =>
    obtain ⟨v, rfl⟩ : ∃ v, visits = v + 1 := ⟨visits - 1, by omega⟩
    obtain ⟨a, b, hx, ha, hb⟩ := hh
    have e : (treeBits (.node l r)).length = (treeBits l).length + (treeBits r).length + 1 := by simp [treeBits]
    rw [e] at hf hrest
    have h : emitNodes s v (room - 1) (a.toNat :: b.toNat :: rest) = .error c := by
      refine ihl ha (by omega) (by omega) (fun v' hv' => ihr hb hv' (by omega) (fun v'' hv'' => ?_))
      rw [show room - 1 - (treeBits l).length - (treeBits r).length =
        room - ((treeBits l).length + (treeBits r).length + 1) by omega] at hv'' ⊢
      exact hrest v'' hv''
    simp only [emitNodes, hx, h]
    rw [if_neg (by omega)]

/-- `emit` ends in what it raises at the end of the way, with the budget less what it has passed. -/
theorem emitNodes_of_way {w : Way} {visits room n m : Nat} {rest : List Nat} (hl : leadsTo s w n m) (hv : room < visits)
    (hf : (wayBits w).length ≤ room)
    (hend : ∀ visits' rest', room - (wayBits w).length < visits' →
      emitNodes s visits' (room - (wayBits w).length) (m :: rest') = .error c) :
    emitNodes s visits room (n :: rest) = .error c := by
  induction w generalizing visits room n rest with
  | here => rw [leadsTo] at hl; subst hl; exact hend _ _ hv
  | left w ih =>
    obtain ⟨v, rfl⟩ : ∃ v, visits = v + 1 := ⟨visits - 1, by omega⟩
    obtain ⟨a, b, hx, hl⟩ := hl
    have e : (wayBits (.left w)).length = (wayBits w).length + 1 := by simp [wayBits]
    rw [e] at hf hend
    have h : emitNodes s v (room - 1) (a.toNat :: b.toNat :: rest) = .error c := by
      refine ih hl (by omega) (by omega) (fun v' rest' hv' => ?_)
      rw [show room - 1 - (wayBits w).length = room - ((wayBits w).length + 1) by omega] at hv' ⊢
      exact hend v' rest' hv'
    simp only [emitNodes, hx, h]
    rw [if_neg (by omega)]
  | right t w ih =>
    obtain ⟨v, rfl⟩ : ∃ v, visits = v + 1 := ⟨visits - 1, by omega⟩
    obtain ⟨a, b, hx, ht, hl⟩ := hl
    have e : (wayBits (.right t w)).length = (treeBits t).length + (wayBits w).length + 1 := by simp [wayBits]
    rw [e] at hf hend
    have h : emitNodes s v (room - 1) (a.toNat :: b.toNat :: rest) = .error c := by
      refine emitNodes_error_of_holds ht (by omega) (by omega) (fun v' hv' => ih hl hv' (by omega) (fun v'' rest' hv'' => ?_))
      rw [show room - 1 - (treeBits t).length - (wayBits w).length =
        room - ((treeBits t).length + (wayBits w).length + 1) by omega] at hv'' ⊢
      exact hend v'' rest' hv''
    simp only [emitNodes, hx, h]
    rw [if_neg (by omega)]

/-! ### `TDES` -/

/-- `des` ends in what it raises at the next node, after the nodes of the way. -/
theorem desNode_of_way {w : Way} {depth : Nat} {k : DesScratch} (hd : treeNodes s ≤ depth + k.next)
    (hbits : ∀ j (h : j < (wayBits w).length), bitAt s.buf (k.p + j) = (wayBits w)[j])
    (hl : k.p + (wayBits w).length ≤ s.rlim.toNat) (hn : k.next + wayNodes w ≤ treeNodes s)
    (hend : ∀ depth' k', k'.p = k.p + (wayBits w).length → k'.next = k.next + wayNodes w →
      treeNodes s ≤ depth' + k'.next → desNode s depth' k' = .error c) : desNode s depth k = .error c := by
  induction w generalizing depth k with
  | here => exact hend depth k (by simp [wayBits]) (by simp [wayNodes]) hd
  | left w ih =>
    simp only [wayNodes, wayBits, List.length_cons] at hn hl hbits hend
    obtain ⟨d, rfl⟩ : ∃ d, depth = d + 1 := ⟨depth - 1, by omega⟩
    have hb : bitAt s.buf k.p = false := hbits 0 (by simp)
    have h := ih (depth := d) (k := { p := k.p + 1, next := k.next + 1, nodes := k.nodes }) (by simp only; omega)
      (fun j hj => by
        have := hbits (j + 1) (by omega)
        simp only
        rw [show k.p + 1 + j = k.p + (j + 1) by omega, this]
        simp)
      (by simp only; omega) (by simp only; omega)
      (fun d' k' h1 h2 h3 => hend d' k' (by simp only at h1; omega) (by simp only at h2; omega) h3)
    unfold desNode
    rw [if_neg (by omega), if_neg (by omega), if_neg (by simp [hb]), h]
  | right t w ih =>
    simp only [wayNodes, wayBits, List.length_cons, List.length_append] at hn hl hbits hend
    obtain ⟨d, rfl⟩ : ∃ d, depth = d + 1 := ⟨depth - 1, by omega⟩
    have hb : bitAt s.buf k.p = false := hbits 0 (by simp)
    obtain ⟨nodes, ht, -⟩ := desNode_of_bits (s := s) (depth := d) (tr := t)
      (k := { p := k.p + 1, next := k.next + 1, nodes := k.nodes }) (by omega)
      (fun j hj => by
        have := hbits (j + 1) (by omega)
        simp only
        rw [show k.p + 1 + j = k.p + (j + 1) by omega, this]
        simp [List.getElem_append_left hj])
      (by simp only; omega) (by simp only; omega)
    have h := ih (depth := d) (k := { p := k.p + 1 + (treeBits t).length, next := k.next + 1 + treeSize t, nodes := nodes })
      (by simp only; omega)
      (fun j hj => by
        have := hbits ((treeBits t).length + j + 1) (by omega)
        simp only
        rw [show k.p + 1 + (treeBits t).length + j = k.p + ((treeBits t).length + j + 1) by omega, this]
        simp)
      (by simp only; omega) (by simp only; omega)
      (fun d' k' h1 h2 h3 => hend d' k' (by simp only at h1; omega) (by simp only at h2; omega) h3)
    unfold desNode
    rw [if_neg (by omega), if_neg (by omega), if_neg (by simp [hb]), ht]
    simp only [h]

/-- The way to node number `i` in preorder. -/
theorem way_to_node {tr : HTree} {i : Nat} (hi : i < treeSize tr) :
    ∃ w rest, wayNodes w = i ∧ rest ≠ [] ∧ treeBits tr = wayBits w ++ rest := by
  induction tr generalizing i with
  | leaf y =>
    have : i = 0 := by simpa [treeSize] using hi
    exact ⟨.here, treeBits (.leaf y), by simp [wayNodes, this], by simp [treeBits], by simp [wayBits]⟩
  | node l r ihl ihr =>
    cases i with
    | zero => exact ⟨.here, treeBits (.node l r), rfl, by simp [treeBits], by simp [wayBits]⟩
    | succ i =>
      simp only [treeSize, Nat.add_lt_add_iff_right] at hi
      by_cases h : i < treeSize l
      · obtain ⟨w, rest, h1, h2, h3⟩ := ihl h
        exact ⟨.left w, rest ++ treeBits r, by simp [wayNodes, h1], by simp [h2], by simp [treeBits, wayBits, h3]⟩
      · obtain ⟨w, rest, h1, h2, h3⟩ := ihr (i := i - treeSize l) (by omega)
        exact ⟨.right l w, rest, by simp [wayNodes, h1]; omega, h2, by simp [treeBits, wayBits, h3]⟩

end Sys2Proof.Machine
end

