-- ==== Sys2Proof/Machine/HostContracts.lean ====
section
/-! DEFINITION. The host's side (spec/49_host_contracts.md R230 to R259, spec/30_encoding.md R97), as plain functions beside
the machine: "Nothing here constrains the block's step function". The step calls none of them. Log 12; the points that the spec leaves open
and these functions settle are in log 14, each marked DESIGN CHOICE where it is settled. -/

namespace Sys2Proof.Machine

/-! ### Predictor (R231 to R236) -/

/-- The predictor's method (R231). -/
inductive Method where
  | none | piecewise | linear | quadratic | regression
  deriving DecidableEq, Repr

/-- binary32 3.0. -/
def three32 : Word := 0x40400000#32

/-- `history[k]` as a pattern. DESIGN CHOICE (log 14): the spec does not say what a `k` beyond the history gives; it is the
pattern 0 here. -/
def histAt (history : List Word) (k : Nat) : Word := history.getD k 0#32

/-- `Piecewise`: `history[index-1]` (R233). DESIGN CHOICE (log 14): at index 0, where there is no previous value and the spec
is silent, it gives `history[0]`. -/
def predictPiecewise (history : List Word) (index : Nat) : Word := histAt history (index - 1)

/-- `Linear`: `2*h[i-1] - h[i-2]`, falling back to `Piecewise` and `None` with fewer points (R234), in binary32 (D41). -/
def predictLinear (history : List Word) (index : Nat) : Word :=
  if 2 ≤ index then fsub32 (fmul32 two32 (histAt history (index - 1))) (histAt history (index - 2))
  else predictPiecewise history index

/-- `Quadratic`: `h[i-3] - 3*h[i-2] + 3*h[i-1]`, left to right; with fewer than three points `Linear` (R235, D41). -/
def predictQuadratic (history : List Word) (index : Nat) : Word :=
  if 3 ≤ index then
    fadd32 (fsub32 (histAt history (index - 3)) (fmul32 three32 (histAt history (index - 2))))
      (fmul32 three32 (histAt history (index - 1)))
  else predictLinear history index

/-- The last `k` points before `index`. DESIGN CHOICE (log 14): with fewer than `k` points there, those there are. -/
def lookback (k : Nat) (history : List Word) (index : Nat) : List Word := (history.take index).drop (index - k)

/-- `Regression`: the fit over the last `k` points, or `Linear` where it is not finite (R236). The fit's formula is not in
the source (91_not_in_source.md N11): it is the argument `fit`. -/
def predictRegression (fit : List Word → Word) (k : Nat) (history : List Word) (index : Nat) : Word :=
  if isNan32 (fit (lookback k history index)) || isInf32 (fit (lookback k history index)) then
    predictLinear history index
  else fit (lookback k history index)

/-- `predict(history, index, method)` (R231 to R236). -/
def predict (fit : List Word → Word) (k : Nat) (method : Method) (history : List Word) (index : Nat) : Word :=
  match method with
  | .none => histAt history 0
  | .piecewise => predictPiecewise history index
  | .linear => predictLinear history index
  | .quadratic => predictQuadratic history index
  | .regression => predictRegression fit k history index

/-! ### maxError (R238) -/

/-- `errorMode` with the number it takes (R238). DESIGN CHOICE (log 14): the spec gives the format of neither the caller's
absolute `maxError` nor `relativeFraction`; both are binary32 patterns here, so that in absolute mode the one rounding of R238
has nothing left to round. -/
inductive ErrorMode where
  | absolute (maxError : Word)
  | relative (fraction : Word)
  deriving DecidableEq, Repr

/-- The greatest and the least sample, in units of 2^-149. DESIGN CHOICE (log 14): the spec does not say what a NaN or an
infinity among the samples does here; its pattern is read through `valUnits`. -/
def greatestUnits (samples : List Word) : Int := samples.foldl (fun m w => max m (valUnits w)) (valUnits (histAt samples 0))
def leastUnits (samples : List Word) : Int := samples.foldl (fun m w => min m (valUnits w)) (valUnits (histAt samples 0))

/-- The effective `maxError` over finite samples: given, or `relativeFraction * (max(sample) - min(sample))` rounded to
binary32 once (R238). DESIGN CHOICE (log 14): the spec is silent on a NaN or infinite `relativeFraction`; the product is then
`fmul32` of it and the rounded range, hence a NaN or an infinity. -/
def effectiveMaxError (samples : List Word) : ErrorMode → Word
  | .absolute maxError => maxError
  | .relative fraction =>
    let range := greatestUnits samples - leastUnits samples
    if fexp fraction = 255 then fmul32 fraction (round32 range 1 false)
    else round32 (valUnits fraction * range) (2 ^ 149) false

/-! ### Frequency counter and tree builder (R239 to R243, D42) -/

/-- Count one more occurrence of a symbol; a new symbol goes last. -/
def countSym : List (Word × Nat) → Word → List (Word × Nat)
  | [], y => [(y, 1)]
  | (x, n) :: rest, y => if x = y then (x, n + 1) :: rest else (x, n) :: countSym rest y

/-- The frequency map of a symbol stream, in order of first appearance (R239). -/
def tally (syms : List Word) : List (Word × Nat) := syms.foldl countSym []

/-- An entry of the builder's priority structure; its key is (frequency, sequence number), smaller first (R241). -/
structure BuildItem where
  freq : Nat
  seq : Nat
  tree : HTree
  deriving DecidableEq, Repr

/-- The key order of R241. -/
def buildBefore (a b : BuildItem) : Bool := a.freq < b.freq || (a.freq == b.freq && a.seq < b.seq)

/-- Take the item with the smallest key out. -/
def extractLeast : List BuildItem → Option (BuildItem × List BuildItem)
  | [] => none
  | a :: rest =>
    match extractLeast rest with
    | none => some (a, [])
    | some (b, rest') => if buildBefore a b then some (a, rest) else some (b, a :: rest')

/-- Combine the two least items until one remains; `n` bounds the rounds, `next` is the next sequence number. DESIGN CHOICE
(log 14): the spec gives no size of the host's priority structure, whose overflow is the host's own `CapacityExceeded` (R244);
the list of items is unbounded here, so that the host never raises it for the structure. -/
def combine : (n : Nat) → (next : Nat) → List BuildItem → Option HTree
  | 0, _, items => (extractLeast items).map (·.1.tree)
  | n + 1, next, items =>
    match extractLeast items with
    | none => none
    | some (a, rest) =>
      match extractLeast rest with
      | none => some a.tree
      | some (b, rest') => combine n (next + 1) (⟨a.freq + b.freq, next, .node a.tree b.tree⟩ :: rest')

/-- The leaves of a frequency map, numbered by first appearance. -/
def buildLeaves (freqs : List (Word × Nat)) : List BuildItem :=
  (numberedFrom 0 freqs).map (fun c => ⟨c.2.2, c.1, .leaf c.2.1⟩)

/-- `build(frequencyMap)`; `none` is `EmptyAlphabet` (R240, R242). -/
def buildTree (freqs : List (Word × Nat)) : Option HTree := combine freqs.length freqs.length (buildLeaves freqs)

/-- The command that stores a node (R243). Its index has 16 bits: `compress` loads no tree with more than 65536 nodes. -/
def storeNode : Nat × Node → Instr
  | (i, .leaf sym) => .tleaf (BitVec.ofNat 16 i) sym
  | (i, .internal l r) => .tint (BitVec.ofNat 16 i) l r

/-- Load a tree in preorder numbering and make its table: `TCLR`, the nodes, `CGEN` (R243). -/
def loadTree (t : HTree) : List Instr := .tclr 0#32 :: (preorderNodes 0 t).map storeNode ++ [.cgen 0#32]

/-! ### Pseudo-instructions (R97) -/

/-- `ESTEP`. -/
def estep : List Instr := [.resid 0#32, .quant 0#32, .dequant 0#32, .recon 0#32]
/-- `DSTEP`. -/
def dstep : List Instr := [.dec 0#32, .dequant 0#32, .recon 0#32]
/-- `PUTBIT b`. -/
def putBitCommand (b : Bool) : List Instr := [.putbits 1#8 ((BitVec.ofBool b).setWidth 32)]
/-- `GETBIT`. -/
def getBitCommand : List Instr := [.getbits 1#8 0#32]
/-- `PUTSYM s`. -/
def putSymCommand (sym : Word) : List Instr := [.setsym sym, .enc 0#32]

/-! ### Failures (R254, R255) -/

/-- The error kinds that are surfaced to the caller (R255). `DegeneratePrediction` is "recovered locally via fallback"
(`predictRegression`) and never surfaced, so it is none of them. The block's codes 1, 5, 6 and 7 "have no counterpart in the
list". -/
inductive ErrorKind where
  | inputUnreadable | insufficientData | emptyAlphabet | capacityExceeded | malformedContainer
  | noCounterpart (fcode : BitVec 4)
  deriving DecidableEq, Repr

/-- The kind of a fault of the block by its `FCODE` (R255). -/
def kindOfCode (fcode : BitVec 4) : ErrorKind :=
  if fcode = causeCode .emptyAlphabet then .emptyAlphabet
  else if fcode = causeCode .capacityExceeded then .capacityExceeded
  else if fcode = causeCode .malformedContainer then .malformedContainer
  else .noCounterpart fcode

/-- What the host reads of a faulted block: `STATUS`, `FINFO`, `FDATA`, `CMDCNT` (R254). -/
structure FaultRecord where
  status : Word
  finfo : Word
  fdata : Word
  cmdcnt : Word
  deriving DecidableEq, Repr

/-- How a run fails: its kind, and the record of the block where the block raised it (R254). -/
structure Failure where
  kind : ErrorKind
  record : Option FaultRecord
  deriving DecidableEq, Repr

/-- A failure that the host finds itself. -/
def hostFailure (kind : ErrorKind) : Failure := { kind := kind, record := none }

/-! ### Container (R245 to R249) -/

/-- The container's header and its two streams as bytes (R246). -/
structure Container where
  seed0 : Word
  seed1 : Word
  maxError : Word
  treeBitLength : Nat
  symbolBitLength : Nat
  body : List Byte
  deriving DecidableEq, Repr

/-- `⌈n/8⌉`. -/
def bytesFor (n : Nat) : Nat := (n + 7) / 8

/-- `n` bytes of a number, little-endian (R246, D33). -/
def littleEndian : (n : Nat) → Nat → List Byte
  | 0, _ => []
  | n + 1, v => BitVec.ofNat 8 v :: littleEndian n (v / 256)

/-- The number of little-endian bytes. -/
def ofLittleEndian : List Byte → Nat
  | [] => 0
  | b :: rest => b.toNat + 256 * ofLittleEndian rest

/-- The file of a container (R246). -/
def containerBytes (c : Container) : List Byte :=
  littleEndian 4 c.seed0.toNat ++ littleEndian 4 c.seed1.toNat ++ littleEndian 4 c.maxError.toNat ++
    littleEndian 4 c.treeBitLength ++ littleEndian 8 c.symbolBitLength ++ c.body

/-- The field of `n` bytes at `offset`. -/
def headerField (file : List Byte) (offset n : Nat) : Nat := ofLittleEndian ((file.drop offset).take n)

/-- Parsing, "purely sequential and positional"; a file that is too short is the host's `MalformedContainer` (R247).
DESIGN CHOICE (log 14): the spec speaks only of a shorter file; bytes beyond the length of R246 are ignored. -/
def parseContainer (file : List Byte) : Except Failure Container :=
  let t := headerField file 12 4
  let n := headerField file 16 8
  if file.length < 24 + bytesFor t + bytesFor n then .error (hostFailure .malformedContainer)
  else .ok {
    seed0 := BitVec.ofNat 32 (headerField file 0 4)
    seed1 := BitVec.ofNat 32 (headerField file 4 4)
    maxError := BitVec.ofNat 32 (headerField file 8 4)
    treeBitLength := t
    symbolBitLength := n
    body := (file.drop 24).take (bytesFor t + bytesFor n) }

/-! ### Orchestrator (R250 to R256) -/

/-- Deliver one command and let the block take it. -/
def hand (s : State) (i : Instr) : State :=
  match step { s with inbox := [.command (encode i).1 (encode i).2] } with
  | .next t => t
  | .fault f => nomatch f
  | .refused _ => s

/-- What a faulted block shows: the host reads `STATUS`, `FINFO`, `FDATA` and `CMDCNT` with `RD` and gives the kind of
R255 (R254). -/
def blockFailure (s : State) : Failure :=
  let s₁ := hand s (.rd .status 0#32)
  let s₂ := hand s₁ (.rd .finfo 0#32)
  let s₃ := hand s₂ (.rd .fdata 0#32)
  let s₄ := hand s₃ (.rd .cmdcnt 0#32)
  { kind := kindOfCode (s₁.out.extractLsb' 4 4)
    record := some { status := s₁.out, finfo := s₂.out, fdata := s₃.out, cmdcnt := s₄.out } }

/-- Deliver one command; when `fault_o` is 1 the host stops, reads what the block recorded and discards the run (R254). -/
def deliver (s : State) (i : Instr) : Except Failure State :=
  if faultO (hand s i) then .error (blockFailure (hand s i)) else .ok (hand s i)

/-- Deliver commands in order. -/
def deliverAll : State → List Instr → Except Failure State
  | s, [] => .ok s
  | s, i :: rest =>
    match deliver s i with
    | .error e => .error e
    | .ok t => deliverAll t rest

/-- `RD` a register and look at `OUT`. -/
def readBack (s : State) (r : Reg) : Except Failure (State × Word) :=
  (deliver s (.rd r 0#32)).map (fun t => (t, t.out))

/-- What a run gives its caller: whether the near-zero `maxError` warning was reported, which is "not an error", and the
result or how it failed (R238, R251, R254, R255). -/
structure HostRun (α : Type) where
  warning : Bool
  result : Except Failure α

/-- A run that the host ends before `SETME`. -/
def endedEarly {α : Type} (kind : ErrorKind) : HostRun α := { warning := false, result := .error (hostFailure kind) }

/-- `before`, then `SETME`; the host reads `warn_o`, reports the warning and goes on with the rest (R238, R251, R253). -/
def runWithBound {α : Type} (s : State) (before : List Instr) (maxError : Word) (rest : State → Except Failure α) :
    HostRun α :=
  match deliverAll s (before ++ [.setme maxError]) with
  | .error e => { warning := false, result := .error e }
  | .ok t => { warning := warnO t, result := rest t }

/-- The per-sample loop of R251: predict, `ESTEP`, read the symbol and the reconstructed sample back. `history` is
oldest first. Answers the symbols and the whole history. -/
def encodeSamples (guess : List Word → Nat → Word) (s : State) (history syms : List Word) :
    List Word → Except Failure (State × List Word × List Word)
  | [] => .ok (s, syms, history)
  | x :: rest => do
    let s ← deliverAll s ([.setpred (guess history history.length), .setorig x] ++ estep)
    let (s, y) ← readBack s .sym
    let (s, r) ← readBack s .recn
    encodeSamples guess s (history ++ [r]) (syms ++ [y]) rest

/-- Read bytes `a`, `a + 1`, … of `BUF` back with `LDB` (R251). -/
def readBody (s : State) (a : Nat) : (n : Nat) → Except Failure (List Byte)
  | 0 => .ok []
  | n + 1 => do
    let s ← deliver s (.ldb (BitVec.ofNat 32 a))
    let rest ← readBody s (a + 1) n
    pure (s.out.setWidth 8 :: rest)

/-- The tree of a symbol stream (R239 to R242). R244's "at most `TREE_NODES` nodes": the block reports a node it has no room
for, but an index has 16 bits, so that it could not see node 65536, which no `TREE_NODES` admits (R8). DESIGN CHOICE
(log 14): the host refuses such a tree itself, with the kind R244 names. -/
def treeOf (syms : List Word) : Except Failure HTree :=
  match buildTree (tally syms) with
  | none => .error (hostFailure .emptyAlphabet)
  | some tree => if 65536 < treeSize tree then .error (hostFailure .capacityExceeded) else .ok tree

/-- The steps of R251 after `SETME maxError`: the container and the reconstructed samples. -/
def compressFrom (guess : List Word → Nat → Word) (maxError : Word) (samples : List Word) (s : State) :
    Except Failure (Container × List Word) := do
  let (s, syms, history) ← encodeSamples guess s (samples.take 2) [] (samples.drop 2)
  let tree ← treeOf syms
  let s ← deliverAll s (loadTree tree ++ [.setwp 0#32, .tser 0#32])
  let t := s.out.toNat
  let s ← deliver s (.setwp (BitVec.ofNat 32 (8 * bytesFor t)))
  let s ← deliverAll s (syms.flatMap putSymCommand)
  let (s, w) ← readBack s .wptr
  let n := w.toNat - 8 * bytesFor t
  let body ← readBody s 0 (bytesFor t + bytesFor n)
  pure ({
    seed0 := histAt samples 0, seed1 := histAt samples 1, maxError := maxError,
    treeBitLength := t, symbolBitLength := n, body := body }, history)

/-- `compress` (R250, R251), from any state of the block: the container and the reconstructed samples. -/
def compress (fit : List Word → Word) (k : Nat) (method : Method) (mode : ErrorMode) (s : State) (samples : List Word) :
    HostRun (Container × List Word) :=
  if samples.length < 2 then endedEarly .insufficientData
  else
    let maxError := effectiveMaxError samples mode
    runWithBound s [.srst 0#32] maxError (compressFrom (predict fit k method) maxError samples)

/-- The symbol loop of R253: until `RPTR` is the end of the stream; `n` bounds the symbols, each of which takes a bit. -/
def decodeSamples (guess : List Word → Nat → Word) (endOffset : Nat) :
    (n : Nat) → State → List Word → Except Failure (List Word)
  | 0, _, history => .ok history
  | n + 1, s, history => do
    let (s, p) ← readBack s .rptr
    if p.toNat = endOffset then pure history
    else
      let s ← deliverAll s [.dec 0#32, .dequant 0#32, .setpred (guess history history.length), .recon 0#32]
      let (s, r) ← readBack s .recn
      decodeSamples guess endOffset n s (history ++ [r])

/-- Load bytes into `BUF` from address 0 on (R253). -/
def storeBody (body : List Byte) : List Instr :=
  (numberedFrom 0 body).map (fun c => .stb c.2 (BitVec.ofNat 32 c.1))

/-- The steps of R253 after `SETME`. -/
def decompressFrom (guess : List Word → Nat → Word) (c : Container) (s : State) : Except Failure (List Word) := do
  let start := 8 * bytesFor c.treeBitLength
  let endOffset := start + c.symbolBitLength
  let s ← deliverAll s
    [.setrp 0#32, .setrl (BitVec.ofNat 32 c.treeBitLength), .tdes 0#32,
     .setrp (BitVec.ofNat 32 start), .setrl (BitVec.ofNat 32 endOffset)]
  decodeSamples guess endOffset (c.symbolBitLength + 1) s [c.seed0, c.seed1]

/-- `decompress` (R252, R253), from any state of the block. DESIGN CHOICE (log 14): of R246's "refuse, or process in pieces"
the host refuses a stream that does not fit `BUF`, and the spec names no kind for that; it is `CapacityExceeded` here, the
kind the block itself gives a stream beyond `BUF` (R244). -/
def decompress (fit : List Word → Word) (k : Nat) (method : Method) (s : State) (c : Container) : HostRun (List Word) :=
  if bufBits s < 8 * bytesFor c.treeBitLength + c.symbolBitLength then endedEarly .capacityExceeded
  else runWithBound s (.srst 0#32 :: storeBody c.body) c.maxError (decompressFrom (predict fit k method) c)

/-- `compress` of a source that may be "missing/unopenable" (`none`): `InputUnreadable` (R255). -/
def compressSource (fit : List Word → Word) (k : Nat) (method : Method) (mode : ErrorMode) (s : State)
    (source : Option (List Word)) : HostRun (Container × List Word) :=
  match source with
  | none => endedEarly .inputUnreadable
  | some samples => compress fit k method mode s samples

/-- `decompress` of a container file that may be missing (R247, R252, R255). -/
def decompressSource (fit : List Word → Word) (k : Nat) (method : Method) (s : State) (source : Option (List Byte)) :
    HostRun (List Word) :=
  match source with
  | none => endedEarly .inputUnreadable
  | some file =>
    match parseContainer file with
    | .error e => { warning := false, result := .error e }
    | .ok c => decompress fit k method s c

/-! ### Reporting (R256) -/

/-- The original size in bytes. -/
def originalSize (samples : List Word) : Nat := 4 * samples.length

/-- The compressed size in bytes. -/
def compressedSize (c : Container) : Nat := 24 + bytesFor c.treeBitLength + bytesFor c.symbolBitLength

/-- The absolute reconstruction errors of a run, in units of 2^-149. DESIGN CHOICE (log 14): the spec does not say what a NaN
or an infinity does here; its pattern is read through `valUnits`. -/
def reconstructionErrors (samples reconstructed : List Word) : List Nat :=
  List.zipWith (fun x y => (valUnits y - valUnits x).natAbs) samples reconstructed

/-- The maximum absolute reconstruction error, exact. DESIGN CHOICE (log 14): the spec gives it no number format. -/
def maxAbsError (samples reconstructed : List Word) : Rat :=
  ((reconstructionErrors samples reconstructed).foldl max 0 : Nat) / 2 ^ 149

/-- The average absolute reconstruction error, exact. DESIGN CHOICE (log 14): over all samples, the two seeds with their
error 0 among them, which the spec neither says nor excludes. -/
def averageAbsError (samples reconstructed : List Word) : Rat :=
  ((reconstructionErrors samples reconstructed).foldl (· + ·) 0 : Nat) / (samples.length * 2 ^ 149)

/-- What a run exposes. -/
structure RunReport where
  originalBytes : Nat
  compressedBytes : Nat
  maxAbsError : Rat
  averageAbsError : Rat
  deriving DecidableEq, Repr

/-- The report of a run of `compress` over `samples` that gave `c` and `reconstructed`. -/
def runReport (samples : List Word) (c : Container) (reconstructed : List Word) : RunReport where
  originalBytes := originalSize samples
  compressedBytes := compressedSize c
  maxAbsError := Sys2Proof.Machine.maxAbsError samples reconstructed
  averageAbsError := Sys2Proof.Machine.averageAbsError samples reconstructed

end Sys2Proof.Machine
end

