-- ==== Sys2Proof/Tests/Slice0.lean ====
section
/-! SUPPORT. Tests. Expected values are the spec's: 95_test_vectors.md (groups V0 to V10, B, H, S), the tables R92 and R96 of
30_encoding.md, and the examples that end the rules. Each behaviour test is one step on a small state. The last part has
a witness for the hypotheses of every statement. -/

namespace Sys2Proof.Tests

open Sys2Proof Sys2Proof.Machine

/-! ### Well-formedness (30_encoding.md R93 (c)) -/

theorem test_putbits_33_ill_formed : (Instr.putbits 33#8 0#32).wellFormed = false := by decide
theorem test_getbits_33_ill_formed : (Instr.getbits 33#8 0#32).wellFormed = false := by decide
theorem test_ctset_0_ill_formed : (Instr.ctset 0#8 0#32).wellFormed = false := by decide
theorem test_ctset_33_ill_formed : (Instr.ctset 33#8 0#32).wellFormed = false := by decide
theorem test_ctset_high_code_bit_ill_formed : (Instr.ctset 2#8 4#32).wellFormed = false := by decide

/-! ### Words written out from R90 to R92 and R96 -/

theorem test_decode_control :
    decode 0x00000000#32 5#32 = .ok (.nop 5#32) ∧ decode 0x01000000#32 0x55#32 = .ok (.srst 0x55#32) ∧
    decode 0x02000000#32 0#32 = .ok (.rd .orig 0#32) ∧ decode 0x0200000C#32 0#32 = .ok (.rd .status 0#32) ∧
    decode 0x02000013#32 0#32 = .ok (.rd .meEps 0#32) := ⟨rfl, rfl, rfl, rfl, rfl⟩

theorem test_decode_loads :
    decode 0x08000000#32 0x3C23D70A#32 = .ok (.setme 0x3C23D70A#32) ∧
    decode 0x09000000#32 0x3F800000#32 = .ok (.setorig 0x3F800000#32) ∧
    decode 0x0A000000#32 0x3F000000#32 = .ok (.setpred 0x3F000000#32) ∧
    decode 0x0B000000#32 0xFFFFFFFD#32 = .ok (.setsym 0xFFFFFFFD#32) := ⟨rfl, rfl, rfl, rfl⟩

theorem test_decode_arithmetic :
    decode 0x10000000#32 1#32 = .ok (.resid 1#32) ∧ decode 0x11000000#32 2#32 = .ok (.quant 2#32) ∧
    decode 0x12000000#32 3#32 = .ok (.dequant 3#32) ∧ decode 0x13000000#32 4#32 = .ok (.recon 4#32) :=
  ⟨rfl, rfl, rfl, rfl⟩

theorem test_decode_bitstream :
    decode 0x20000000#32 0x8001#32 = .ok (.setwp 0x8001#32) ∧ decode 0x21000000#32 40#32 = .ok (.setrp 40#32) ∧
    decode 0x22000000#32 42#32 = .ok (.setrl 42#32) ∧ decode 0x23030000#32 5#32 = .ok (.putbits 3#8 5#32) ∧
    decode 0x24090000#32 0#32 = .ok (.getbits 9#8 0#32) ∧ decode 0x25A50000#32 0xFFF#32 = .ok (.stb 0xA5#8 0xFFF#32) ∧
    decode 0x26000000#32 0x1000#32 = .ok (.ldb 0x1000#32) := ⟨rfl, rfl, rfl, rfl, rfl, rfl, rfl⟩

theorem test_decode_table :
    decode 0x30000000#32 0#32 = .ok (.ctclr 0#32) ∧ decode 0x31030000#32 3#32 = .ok (.ctset 3#8 3#32) ∧
    decode 0x31200000#32 0xFFFFFFFF#32 = .ok (.ctset 32#8 0xFFFFFFFF#32) ∧
    decode 0x32000100#32 0#32 = .ok (.ctrd .len 256#16 0#32) ∧ decode 0x32010000#32 0#32 = .ok (.ctrd .sym 0#16 0#32) ∧
    decode 0x32020000#32 0#32 = .ok (.ctrd .code 0#16 0#32) ∧ decode 0x37000000#32 0#32 = .ok (.cgen 0#32) ∧
    decode 0x38000000#32 0#32 = .ok (.enc 0#32) := ⟨rfl, rfl, rfl, rfl, rfl, rfl, rfl, rfl⟩

theorem test_decode_tree :
    decode 0x33000000#32 0#32 = .ok (.tclr 0#32) ∧ decode 0x340001FF#32 0#32 = .ok (.tleaf 511#16 0#32) ∧
    decode 0x35000000#32 0x00010004#32 = .ok (.tint 0#16 1#16 4#16) ∧
    decode 0x36000008#32 0#32 = .ok (.trd .kind 8#16 0#32) ∧ decode 0x36010008#32 0#32 = .ok (.trd .sym 8#16 0#32) ∧
    decode 0x36020008#32 0#32 = .ok (.trd .kids 8#16 0#32) ∧ decode 0x39000000#32 0#32 = .ok (.dec 0#32) ∧
    decode 0x40000000#32 0#32 = .ok (.tser 0#32) ∧ decode 0x41000000#32 0#32 = .ok (.tdes 0#32) :=
  ⟨rfl, rfl, rfl, rfl, rfl, rfl, rfl, rfl, rfl⟩

/-- V10's illegal words, by the check of R93 that refuses each. -/
theorem test_decode_refuses :
    decode 0x03000000#32 0#32 = .error .unassignedOp ∧ decode 0xFF000000#32 0#32 = .error .unassignedOp ∧
    decode 0x00000001#32 0#32 = .error .unusedFieldNonZero ∧ decode 0x10000001#32 0#32 = .error .unusedFieldNonZero ∧
    decode 0x02010000#32 0#32 = .error .unusedFieldNonZero ∧ decode 0x25000001#32 0#32 = .error .unusedFieldNonZero ∧
    decode 0x34010000#32 0#32 = .error .unusedFieldNonZero ∧ decode 0x02000014#32 0#32 = .error .fieldOutOfRange ∧
    decode 0x23210000#32 0#32 = .error .fieldOutOfRange ∧ decode 0x32030000#32 0#32 = .error .fieldOutOfRange ∧
    decode 0x36030000#32 0#32 = .error .fieldOutOfRange ∧ decode 0x31020000#32 4#32 = .error .fieldOutOfRange :=
  ⟨rfl, rfl, rfl, rfl, rfl, rfl, rfl, rfl, rfl, rfl, rfl, rfl⟩

/-- The table's numbering: `CMD` in bits 31 to 0, `DATA` above it. -/
theorem test_table_word :
    decodeTableWord 32 0x35000001 = some (.tint 1#16 0#16 0#16) ∧
    decodeTableWord 64 0x0002000335000001 = some (.tint 1#16 2#16 3#16) ∧
    decodeTableWord 32 0x31000000 = none := by decide

/-! ### One step -/

/-- The state a command leads to. -/
def after (s : State) (i : Instr) : State :=
  match exec i s with
  | .next t => t
  | .fault _ => s
  | .refused _ => s

/-- `STATUS`, `FINFO`, `FDATA`. -/
def record (s : State) : Word × Word × Word := (statusWord s, s.finfo, s.fdata)

/-- The state that a delivered pair leads to from reset. -/
def delivered (s : State) (cmd data : Word) : State :=
  match step { s with inbox := [.command cmd data] } with
  | .next t => t
  | .fault _ => s
  | .refused _ => s

/-- A faulted block: after V10's `GETBITS 1` with `RLIM = 0`, one command counted. -/
def dead : State :=
  { State.reset with faulted := true, fcode := 4#4, finfo := 0x24010000#32, cmdcnt := 1#32 }

/-- R198's example tree: leaves 7 and -7. -/
def twoLeaves : State :=
  { State.reset with tree := [(0, .internal 1#16 2#16), (1, .leaf 7#32), (2, .leaf 0xFFFFFFF9#32)] }

/-- The tree of the P3 program (H1, H2, H4, S5). -/
def fiveLeaves : State :=
  { State.reset with
    tree := [(0, .internal 1#16 4#16), (1, .internal 2#16 3#16), (2, .leaf 0xFFFFFFFF#32), (3, .leaf 3#32)] ++
      [(4, .internal 5#16 6#16), (5, .leaf 1#32), (6, .internal 7#16 8#16), (7, .leaf 0xFFFFFFFD#32), (8, .leaf 0#32)] }

/-- A lone leaf. -/
def loneLeaf (y : Word) : State := { State.reset with tree := [(0, .leaf y)] }

/-- Bytes in `BUF` from address 0 on. -/
def bytes (l : List Byte) : Memory := numberedFrom 0 l

-- V10, sticky fault table
theorem test_step_nop : (delivered State.reset 0x00000000#32 0#32).cmdcnt = 1#32 := by decide
theorem test_step_illegal :
    record (delivered State.reset 0x31020000#32 4#32) = (0x13#32, 0x31020000#32, 4#32) := by decide
theorem test_step_discards : delivered dead 0x03000000#32 7#32 = dead ∧ delivered dead 0x01000001#32 0#32 = dead := by
  decide
theorem test_step_reset_input : (match step { dead with inbox := [.reset], buf := bytes [7#8] } with
    | .next t => (t.faulted, t.finfo, t.buf)
    | _ => (true, 0#32, [])) = (false, 0#32, bytes [7#8]) := by decide
theorem test_fetch_word : (match step (State.reset.withFetchWord 64 0x3C23D70A08000000) with
    | .next t => (t.maxerr, t.cmdcnt)
    | _ => (0#32, 0#32)) = (0x3C23D70A#32, 1#32) := by decide

theorem test_srst : after { dead with sym := 3#32, buf := bytes [9#8] } (.srst 0x55#32) =
    { State.reset with buf := bytes [9#8] } := by decide
theorem test_rd_status_after_reset :
    ((after State.reset (.rd .status 0#32)).out, (after State.reset (.rd .status 0#32)).cmdcnt) = (2#32, 1#32) := by decide
theorem test_rd_while_faulted :
    ((after dead (.rd .cmdcnt 0#32)).out, (after dead (.rd .cmdcnt 0#32)).cmdcnt) = (1#32, 1#32) := by decide

-- V7
theorem test_setme_below : statusWord (after State.reset (.setme 0xA6901D7C#32)) = 2#32 := by decide
theorem test_setme_equal : statusWord (after State.reset (.setme 0x26901D7D#32)) = 0#32 := by decide
theorem test_operand_loads :
    (after State.reset (.setorig 1#32)).orig = 1#32 ∧ (after State.reset (.setpred 2#32)).pred = 2#32 ∧
    (after State.reset (.setsym 3#32)).sym = 3#32 := by decide

-- V0
theorem test_i2f32 : i2f32 0x01000003#32 = 0x4B800002#32 ∧ i2f32 0x7FFFFFFF#32 = 0x4F000000#32 := by decide +kernel

-- V1
theorem test_resid_inexact :
    (after { State.reset with orig := 0x3DCCCCCD#32, pred := 0x3E99999A#32 } (.resid 0#32)).res = 0xBE4CCCCE#32 := by
  decide +kernel
theorem test_resid_tie_to_even :
    (after { State.reset with orig := 0x4B800000#32, pred := 0x3F000000#32 } (.resid 0#32)).res = 0x4B800000#32 := by
  decide +kernel

-- V2
theorem test_quant_tie_away :
    (after { State.reset with res := 0x3E800000#32, maxerr := 0x3D4CCCCD#32 } (.quant 0#32)).sym = 3#32 := by
  decide +kernel
theorem test_quant_range :
    record (after { State.reset with res := 0x4F000000#32, maxerr := 0x3F000000#32 } (.quant 0#32)) =
      (0x51#32, 0x11000000#32, 0#32) := by decide +kernel

-- V3
theorem test_dequant_below :
    (after { State.reset with sym := 5#32, maxerr := 0x3C23D70A#32 } (.dequant 0#32)).apx = 0x3DCCCCCC#32 := by
  decide +kernel
theorem test_dequant_zero_times_infinity :
    (after { State.reset with sym := 0#32, maxerr := 0x7F7FFFFF#32 } (.dequant 0#32)).apx = 0x7FC00000#32 := by
  decide +kernel

-- V4
theorem test_recon_rounds :
    (after { State.reset with pred := 0x3F000000#32, apx := 0x3E99999A#32 } (.recon 0#32)).recn = 0x3F4CCCCD#32 := by
  decide +kernel
theorem test_recon_zeros :
    (after { State.reset with pred := 0x80000000#32, apx := 0#32 } (.recon 0#32)).recn = 0#32 := by decide +kernel

-- V9: B5, B9, B1, B2, B6, B10, B7, B11
theorem test_setwp_beyond : record (after State.reset (.setwp 32769#32)) = (0x33#32, 0x20000000#32, 0x8001#32) := by decide
theorem test_pointer_loads :
    (after State.reset (.setwp 32768#32)).wptr = 32768#32 ∧ (after State.reset (.setrp 1#32)).rptr = 1#32 ∧
    (after State.reset (.setrl 16#32)).rlim = 16#32 := by decide
theorem test_putbits_lsb_first :
    ((after State.reset (.putbits 3#8 5#32)).buf, (after State.reset (.putbits 3#8 5#32)).wptr) =
      (bytes [5#8], 3#32) := by decide
theorem test_putbits_clears_above :
    (after { State.reset with buf := bytes [0xFF#8], wptr := 3#32 } (.putbits 1#8 0#32)).buf = bytes [7#8] := by decide
theorem test_getbits_straddles :
    (let t := after { State.reset with buf := bytes [0xB4#8, 1#8], rlim := 16#32, rptr := 2#32 } (.getbits 9#8 0#32);
      (t.out, t.rptr)) = (0x6D#32, 11#32) := by decide
theorem test_getbits_zero_beyond :
    statusWord (after { State.reset with rptr := 1#32 } (.getbits 0#8 0#32)) = 0x43#32 := by decide
theorem test_stb_beyond : record (after State.reset (.stb 1#8 4096#32)) = (0x33#32, 0x25010000#32, 0x1000#32) := by decide
theorem test_stb_last : (after State.reset (.stb 0xA5#8 4095#32)).buf = [(4095, 0xA5#8)] := by decide
theorem test_ldb_last : (after { State.reset with buf := [(4095, 0xA5#8)] } (.ldb 4095#32)).out = 0xA5#32 := by decide
theorem test_ldb_beyond : statusWord (after State.reset (.ldb 4096#32)) = 0x33#32 := by decide

-- V5: H13, H14, H17, H18, H10, H19, H5, H6, H8, R198's and R199's examples, H11, H4, H12
theorem test_ctclr :
    (let t := after { State.reset with ct := [(0, ⟨1#32, 1#6, 0#32⟩)], ctn := 1#32 } (.ctclr 0#32);
      (t.ct, t.ctn)) = ([], 0#32) := by decide
theorem test_ctset_fills :
    (let t := after { State.reset with sym := 0xFFFFFFFD#32 } (.ctset 3#8 3#32);
      (t.ct, t.ctn)) = ([(0, ⟨0xFFFFFFFD#32, 3#6, 3#32⟩)], 1#32) := by decide
theorem test_ctset_replaces :
    (let t := after { State.reset with sym := 5#32, ct := [(0, ⟨5#32, 3#6, 3#32⟩)], ctn := 1#32 } (.ctset 2#8 1#32);
      (t.ct, t.ctn)) = ([(0, ⟨5#32, 2#6, 1#32⟩)], 1#32) := by decide
theorem test_ctrd :
    (let s := { State.reset with ct := [(0, ⟨0xFFFFFFFD#32, 3#6, 3#32⟩)] };
      ((after s (.ctrd .len 0#16 0#32)).out, (after s (.ctrd .sym 0#16 0#32)).out, (after s (.ctrd .code 0#16 0#32)).out,
        (after s (.ctrd .len 1#16 0#32)).out)) = (3#32, 0xFFFFFFFD#32, 3#32, 0#32) := by decide
theorem test_ctrd_beyond : statusWord (after State.reset (.ctrd .len 256#16 0#32)) = 0x33#32 := by decide
theorem test_tclr : (after twoLeaves (.tclr 0#32)).tree = [] := by decide
theorem test_tleaf_beyond : statusWord (after State.reset (.tleaf 511#16 0#32)) = 0x33#32 := by decide
theorem test_tleaf_overwrites : (after { State.reset with tree := [(0, .internal 1#16 4#16)] } (.tleaf 0#16 7#32)).tree =
    [(0, .leaf 7#32)] := by decide
theorem test_tint_child_unchecked : (after State.reset (.tint 0#16 1#16 600#16)).tree = [(0, .internal 1#16 600#16)] := by
  decide
theorem test_trd :
    (let s := { State.reset with tree := [(0, .internal 1#16 4#16)] };
      ((after s (.trd .kind 0#16 0#32)).out, (after s (.trd .kids 0#16 0#32)).out, (after s (.trd .sym 0#16 0#32)).out,
        (after s (.trd .kind 1#16 0#32)).out)) = (2#32, 0x00010004#32, 0#32, 0#32) := by decide
theorem test_cgen_example :
    (let t := after twoLeaves (.cgen 0#32);
      (t.ct, t.ctn)) = ([(0, ⟨7#32, 1#6, 0#32⟩), (1, ⟨0xFFFFFFF9#32, 1#6, 1#32⟩)], 2#32) := by decide
theorem test_cgen_faults :
    statusWord (after State.reset (.cgen 0#32)) = 0x23#32 ∧
    statusWord (after { State.reset with tree := [(0, .internal 1#16 2#16), (1, .leaf 5#32)] } (.cgen 0#32)) = 0x73#32 ∧
    statusWord (after { State.reset with tree := [(0, .internal 0#16 0#16)] } (.cgen 0#32)) = 0x33#32 := by decide
theorem test_enc_first_path_bit_first :
    (let t := after { State.reset with sym := 3#32, ct := [(1, ⟨3#32, 2#6, 2#32⟩)], ctn := 1#32 } (.enc 0#32);
      (t.buf, t.wptr)) = (bytes [2#8], 2#32) := by decide
theorem test_enc_unknown :
    record (after { State.reset with sym := 1#32, ct := [(0, ⟨9#32, 1#6, 0#32⟩)], ctn := 1#32 } (.enc 0#32)) =
      (0x63#32, 0x38000000#32, 0#32) := by decide
theorem test_dec_walks :
    (let t := after { fiveLeaves with buf := bytes [0x2E#8], rlim := 16#32, rptr := 2#32 } (.dec 0#32);
      (t.sym, t.rptr)) = (0xFFFFFFFD#32, 5#32) := by decide
theorem test_dec_lone_leaf_ignores_the_bit :
    (let t := after { loneLeaf 9#32 with buf := bytes [0xFF#8], rlim := 2#32 } (.dec 0#32);
      (t.sym, t.rptr)) = (9#32, 1#32) := by decide

-- V6: S1, S12, S4, S10
theorem test_tser_lone_leaf :
    (let t := after (loneLeaf 0#32) (.tser 0#32);
      (t.out, t.wptr, t.buf)) = (33#32, 33#32, bytes [1#8, 0#8, 0#8, 0#8, 0#8]) := by decide
theorem test_tser_bad_tree :
    (let t := after { State.reset with tree := [(0, .internal 1#16 2#16), (1, .leaf 0#32)] } (.tser 0#32);
      (statusWord t, t.buf, t.wptr)) = (0x73#32, [], 0#32) := by decide
theorem test_tdes_example :
    (let s := { State.reset with
        buf := bytes [2#8, 0#8, 0#8, 0#8, 0xF8#8, 0xFF#8, 0xFF#8, 0xFF#8, 0x3F#8, 0#8, 0#8, 0#8, 0#8], rlim := 101#32 };
      ((after s (.tdes 0#32)).tree, (after s (.tdes 0#32)).out, (after s (.tdes 0#32)).rptr)) =
    ([(0, .internal 1#16 2#16), (1, .leaf 0#32), (2, .internal 3#16 4#16), (3, .leaf 0xFFFFFFFF#32), (4, .leaf 1#32)],
      101#32, 101#32) := by decide +kernel
theorem test_tdes_too_many_nodes :
    statusWord (after { State.reset with
      params := { Config.Params.default with treeNodes := 3#32 }, buf := bytes [0#8, 0#8], rlim := 16#32 } (.tdes 0#32)) =
        0x33#32 := by decide

/-! ### The host (49_host_contracts.md) -/

-- R247
theorem test_short_file : parseContainer [0#8] = .error (hostFailure .malformedContainer) := rfl
-- V10: `GETBITS 1` at `RLIM`; R254, R255
theorem test_block_failure :
    (deliver State.reset (.getbits 1#8 0#32)).toOption = none ∧
    blockFailure (hand State.reset (.getbits 1#8 0#32)) =
      { kind := .malformedContainer, record := some ⟨0x43#32, 0x24010000#32, 0#32, 0#32⟩ } := ⟨rfl, by decide⟩
-- R123, R238: `MAXERR = ME_EPS` does not warn, one pattern below does
theorem test_warning :
    (runWithBound State.reset [] 0x26901D7C#32 (fun _ => .ok ())).warning = true ∧
    (runWithBound State.reset [] 0x26901D7D#32 (fun _ => .ok ())).warning = false := by decide

/-! ### Witnesses: states and operands that meet the hypotheses of each statement, clause by clause -/

/-- The hypotheses of a statement about one delivered pair. -/
def withPair (s : State) (cmd data : Word) : State := { s with inbox := [.command cmd data] }

theorem after_eq {s t : State} {i : Instr} (h : exec i s = .next t) : after s i = t := by simp [after, h]

theorem exec_after (s : State) (i : Instr) (h : (exec i s matches .next _) = true) : exec i s = .next (after s i) := by
  unfold after
  cases hx : exec i s <;> simp_all

/-- A well-kept state with something in every memory: a byte, a table of two, a tree of three nodes. -/
def busy : State :=
  { twoLeaves with
    buf := [(0, 5#8)], wptr := 3#32, rptr := 1#32, rlim := 3#32, sym := 7#32
    ct := [(0, ⟨7#32, 1#6, 0#32⟩), (1, ⟨0xFFFFFFF9#32, 1#6, 1#32⟩)], ctn := 2#32 }

theorem busy_inv : busy.Inv := by constructor <;> decide
theorem reset_inv : State.reset.Inv := by constructor <;> decide
theorem dead_inv : dead.Inv := by constructor <;> decide
theorem twoLeaves_inv : twoLeaves.Inv := by constructor <;> decide

theorem twoLeaves_holds : holdsTree twoLeaves 0 (.node (.leaf 7#32) (.leaf 0xFFFFFFF9#32)) := ⟨1#16, 2#16, rfl, rfl, rfl⟩

/-- A chain tree: `depth` internal nodes, each with a leaf to its left. -/
def chain : (depth : Nat) → Nat → HTree
  | 0, y => .leaf (BitVec.ofNat 32 y)
  | depth + 1, y => .node (.leaf (BitVec.ofNat 32 y)) (chain depth (y + 1))

/-- `TREE` with a chain in preorder numbering (H20, H21). -/
def chainState (depth : Nat) : State := { State.reset with tree := preorderNodes 0 (chain depth 100) }

theorem chain_holds {depth : Nat} (h : treeSize (chain depth 100) ≤ 511) : holdsTree (chainState depth) 0 (chain depth 100) :=
  holdsTree_preorder (by simpa [treeNodes, chainState, State.reset, State.powerOn, Config.Params.default] using h)
    (show (511#32 : Word).toNat ≤ 2 ^ 16 by decide) (fun _ _ _ => rfl)

/-! #### Encoding and the step -/

theorem witness_DecodeInvertsEncode :
    (Instr.putbits 32#8 7#32).wellFormed = true ∧ (Instr.getbits 0#8 7#32).wellFormed = true ∧
    (Instr.ctset 1#8 1#32).wellFormed = true ∧ (Instr.ctset 32#8 0xFFFFFFFF#32).wellFormed = true ∧
    (Instr.tint 1#16 2#16 3#16).wellFormed = true := by decide

theorem witness_EncodeInvertsDecode :
    decode 0x02000013#32 9#32 = .ok (.rd .meEps 9#32) ∧ decode 0x3602FFFF#32 9#32 = .ok (.trd .kids 0xFFFF#16 9#32) :=
  ⟨rfl, rfl⟩

theorem witness_IllegalCommandExactlyOnWrongFields :
    (withPair State.reset 0x03000000#32 1#32).inbox = [.command 0x03000000#32 1#32] ∧
    (withPair State.reset 0x03000000#32 1#32).faulted = false ∧
    spellsNothing 0x03000000#32 1#32 ∧ spellsNothing 0x10010000#32 0#32 ∧ spellsNothing 0x10000001#32 0#32 ∧
    spellsNothing 0x02000014#32 0#32 ∧ spellsNothing 0x23210000#32 0#32 ∧ spellsNothing 0x31000000#32 0#32 ∧
    spellsNothing 0x31210000#32 0#32 ∧ spellsNothing 0x31020000#32 4#32 ∧ spellsNothing 0x32030000#32 0#32 ∧
    ¬ spellsNothing 0x02000013#32 0#32 ∧ ¬ spellsNothing 0x23200000#32 0#32 ∧ ¬ spellsNothing 0x31020000#32 3#32 ∧
    ¬ spellsNothing 0x31200000#32 0xFFFFFFFF#32 ∧ ¬ spellsNothing 0x32020000#32 0#32 :=
  ⟨rfl, rfl, by decide, by decide, by decide, by decide, by decide, by decide, by decide, by decide, by decide,
    by decide, by decide, by decide, by decide, by decide⟩

theorem witness_IllegalCommandExactlyOnWrongFields_index :
    State.reset.faulted = false ∧ treeNodes State.reset ≤ (511#16 : Half).toNat ∧
    ctEntries State.reset ≤ (256#16 : Half).toNat ∧
    ∃ t, exec (.tleaf 511#16 0#32) State.reset = .next t ∧ t.faulted = true := ⟨rfl, by decide, by decide, _, rfl, rfl⟩

theorem witness_StepRunsDecodedCommand :
    (withPair dead 0x23070000#32 0x55#32).inbox = .command 0x23070000#32 0x55#32 :: [] ∧
    decode 0x23070000#32 0x55#32 = .ok (.putbits 7#8 0x55#32) := ⟨rfl, rfl⟩

theorem witness_StepWithoutCommand :
    State.reset.inbox = [] ∧ { busy with inbox := [.reset] }.inbox = .reset :: [] := ⟨rfl, rfl⟩

theorem witness_FaultedBlockRunsOnlyRdAndSrst :
    (dead.faulted = true ∧ (withPair dead 0x0200000D#32 0#32).inbox = .command 0x0200000D#32 0#32 :: [] ∧
      decode 0x0200000D#32 0#32 = .ok (.rd .finfo 0#32)) ∧
    ((withPair dead 0x01000000#32 1#32).inbox = .command 0x01000000#32 1#32 :: [] ∧
      decode 0x01000000#32 1#32 = .ok (.srst 1#32)) ∧
    ((withPair dead 0x08000000#32 1#32).inbox = .command 0x08000000#32 1#32 :: [] ∧
      (∀ sel d, decode 0x08000000#32 1#32 ≠ .ok (.rd sel d)) ∧ ∀ d, decode 0x08000000#32 1#32 ≠ .ok (.srst d)) ∧
    ((∀ sel d, decode 0x02000014#32 0#32 ≠ .ok (.rd sel d)) ∧ ∀ d, decode 0x02000014#32 0#32 ≠ .ok (.srst d)) := by
  have h : decode 0x08000000#32 1#32 = .ok (.setme 1#32) := rfl
  have h' : decode 0x02000014#32 0#32 = .error .fieldOutOfRange := rfl
  refine ⟨⟨rfl, rfl, rfl⟩, ⟨rfl, rfl⟩, ⟨rfl, ?_, ?_⟩, ?_, ?_⟩ <;> intros <;> simp [h, h']

theorem witness_FaultEntryWritesOnlyTheRecord :
    busy.faulted = false ∧ (withPair busy 0x20000000#32 32769#32).inbox = .command 0x20000000#32 32769#32 :: [] ∧
    ∃ t, step (withPair busy 0x20000000#32 32769#32) = .next t ∧ t.faulted = true := ⟨rfl, rfl, _, rfl, rfl⟩

theorem witness_CompletedCommandsAreCounted :
    (∃ t, step (withPair busy 0x01000000#32 0#32) = .next t) ∧ decode 0x01000000#32 0#32 = .ok (.srst 0#32) ∧
    (∀ d, decode 0x10000000#32 0#32 ≠ .ok (.srst d)) ∧ busy.faulted = false ∧
    (∃ t, step (withPair { busy with cmdcnt := 0xFFFFFFFF#32 } 0x00000000#32 0#32) = .next t ∧ t.faulted = false ∧
      t.cmdcnt = 0#32) ∧
    (∃ t, step (withPair dead 0x10000000#32 0#32) = .next t ∧ t.faulted = true) := by
  have h : decode 0x10000000#32 0#32 = .ok (.resid 0#32) := rfl
  refine ⟨⟨_, rfl⟩, rfl, ?_, rfl, ⟨_, rfl, rfl, rfl⟩, _, rfl, rfl⟩
  intro d; simp [h]

theorem witness_OnlyResetLeavesTheFaultedState :
    dead.faulted = true ∧ (∃ t, step (withPair dead 0x00000000#32 0#32) = .next t ∧ t.faulted = true) ∧
    (∃ t, step { dead with inbox := [.reset] } = .next t ∧ t.faulted = false) ∧
    (∃ t, step (withPair dead 0x01000000#32 0#32) = .next t ∧ t.faulted = false) :=
  ⟨rfl, ⟨_, rfl, rfl⟩, ⟨_, rfl, rfl⟩, _, rfl, rfl⟩

theorem witness_ParametersNeverChange :
    (∃ t, step (withPair busy 0x37000000#32 0#32) = .next t) ∧ busy.faulted = false := ⟨⟨_, rfl⟩, rfl⟩

theorem witness_EveryStepKeepsTheInvariant :
    busy.Inv ∧ dead.Inv ∧ ∃ t, step busy = .next t := ⟨busy_inv, dead_inv, _, rfl⟩

theorem witness_ResetMeetsTheInvariant :
    Config.Params.default.wf = true ∧ (⟨1#32, 1#32, 1#32, 1#32⟩ : Config.Params).wf = true ∧
    (⟨0x10000000#32, 65536#32, 65536#32, 0x7F7FFFFF#32⟩ : Config.Params).wf = true := by decide

theorem witness_OnlyListedCommandsWrite :
    (∀ d, Instr.enc 0#32 ≠ .srst d) ∧
    (∃ t, exec (.enc 0#32) busy = .next t ∧ t.faulted = busy.faulted) ∧
    (∃ t, exec (.rd .finfo 0#32) dead = .next t ∧ t.faulted = dead.faulted) :=
  ⟨by intro d; simp, ⟨_, rfl, rfl⟩, _, rfl, rfl⟩

theorem witness_WarnExactlyBelowTheThreshold : State.reset.params.wf = true ∧ warn State.reset = true := by decide

/-! #### Control, loads, arithmetic -/

/-- Also the hypotheses of `spelledBy` and `rejected`, for every statement that uses them. -/
theorem witness_NopOnlyCounts :
    State.reset.faulted = false ∧ dead.faulted = true ∧
    (opField 0x00000001#32 = opField 0x00000000#32 ∧ (0x00000001#32 : Word) ≠ 0x00000000#32) ∧
    (withPair State.reset 0x00000001#32 0#32).inbox = .command 0x00000001#32 0#32 :: [] ∧
    (withPair State.reset 0x00000001#32 0#32).faulted = false ∧ (withPair dead 0x00000001#32 0#32).faulted = true := by
  decide

theorem witness_SrstGivesTheResetState : dead.params.wf = true := by decide

theorem witness_RdCopiesTheRegister :
    (0 ≤ 19 ∧ 19 ≤ 19) ∧ busy.faulted = false ∧ dead.faulted = true ∧
    opField 0x02010000#32 = 0x02#8 ∧ fField 0x02010000#32 ≠ 0#8 ∧
    opField 0x02000014#32 = 0x02#8 ∧ 19 < (idxField 0x02000014#32).toNat := by decide

theorem witness_OperandLoadsStoreData : busy.faulted = false := rfl
theorem witness_ResidDequantReconCompute : busy.faulted = false := rfl

/-- Both ends of the range: -2^31 and the greatest bucket reachable complete, 2^31 does not; nor do a NaN and an infinity. -/
theorem witness_QuantStoresTheBucket :
    (let q := fdiv32 0xCF000000#32 (fmul32 0x40000000#32 0x3F000000#32);
      isNan32 q = false ∧ isInf32 q = false ∧ -2 ^ 31 ≤ roundHalfAway q ∧ roundHalfAway q ≤ 2 ^ 31 - 1) ∧
    (let q := fdiv32 0x4EFFFFFF#32 (fmul32 0x40000000#32 0x3F000000#32);
      isNan32 q = false ∧ isInf32 q = false ∧ -2 ^ 31 ≤ roundHalfAway q ∧ roundHalfAway q ≤ 2 ^ 31 - 1) ∧
    2 ^ 31 - 1 < roundHalfAway (fdiv32 0x4F000000#32 (fmul32 0x40000000#32 0x3F000000#32)) ∧
    roundHalfAway (fdiv32 0xCF000001#32 (fmul32 0x40000000#32 0x3F000000#32)) < -2 ^ 31 ∧
    isNan32 (fdiv32 0#32 (fmul32 0x40000000#32 0#32)) = true ∧
    isInf32 (fdiv32 0x3F800000#32 (fmul32 0x40000000#32 0#32)) = true ∧ State.reset.faulted = false := by decide +kernel

theorem witness_ZeroMaxErrorFaultsQuant :
    State.reset.faulted = false ∧ State.reset.maxerr = 0#32 ∧
    { State.reset with maxerr := 0x80000000#32 }.maxerr = 0x80000000#32 := by decide

theorem witness_RoundsToNearestTiesToEven :
    0 < 1 ∧ (3 : Int) ≠ 0 ∧ 2 * (3 : Int).natAbs < (2 ^ 25 - 1) * 2 ^ 253 * 2 ∧
    (2 ^ 25 - 1) * 2 ^ 252 * 2 ≤ 2 * ((2 ^ 25 - 1) * 2 ^ 252 : Int).natAbs ∧ fexp 0x7F7FFFFF#32 < 255 ∧
    2 * ((2 ^ 25 - 1) * 2 ^ 252 - 1 : Int).natAbs < (2 ^ 25 - 1) * 2 ^ 253 * 1 := by decide +kernel

theorem witness_RoundsHalvesAwayFromZero :
    isNan32 0xBF000000#32 = false ∧ isInf32 0xBF000000#32 = false ∧
    2 * (roundHalfAway 0xBF000000#32 * 2 ^ 149 - valUnits 0xBF000000#32).natAbs = 2 ^ 149 := by decide +kernel

/-- Operands for each case: infinities of both signs, zeros of both signs, finite values, a NaN; `sgn` of unlike and of like
signs. -/
theorem witness_PrimitivesFollowTheirCases :
    isNan32 0xFFFFFFFF#32 = true ∧ isInf32 0x7F800000#32 = true ∧ isInf32 0xFF800000#32 = true ∧
    isZero32 0#32 = true ∧ isZero32 0x80000000#32 = true ∧
    (isNan32 0x7F7FFFFF#32 = false ∧ isInf32 0x7F7FFFFF#32 = false ∧ isZero32 0x7F7FFFFF#32 = false) ∧
    (isNan32 0x80000001#32 = false ∧ isInf32 0x80000001#32 = false ∧ isZero32 0x80000001#32 = false) ∧
    (0x80000000#32 : Word) = (0x7F800000#32 ^^^ 0xFF800000#32) &&& 0x80000000#32 ∧
    (0#32 : Word) = (0x80000001#32 ^^^ 0xFF800000#32) &&& 0x80000000#32 := by decide

theorem witness_NanResultsAreCanonical :
    isNan32 (fadd32 0x7F800000#32 0xFF800000#32) = true ∧ isNan32 (fsub32 0x7F800000#32 0x7F800000#32) = true ∧
    isNan32 (fmul32 0#32 0x7F800000#32) = true ∧ isNan32 (fdiv32 0#32 0x80000000#32) = true ∧
    isNan32 0x7F800001#32 = true := by decide +kernel

/-- Magnitudes at 2^24 and beyond; a finite value as near to 2^24 + 1 as the result, which is a tie. -/
theorem witness_IntegersConvertToTheNearest :
    (0x01000000#32 : Word).toInt.natAbs ≤ 2 ^ 24 ∧ (0xFF000000#32 : Word).toInt.natAbs ≤ 2 ^ 24 ∧
    ¬ (0x01000001#32 : Word).toInt.natAbs ≤ 2 ^ 24 ∧ fexp 0x4B800001#32 < 255 ∧
    (valUnits (i2f32 0x01000001#32) - (0x01000001#32 : Word).toInt * 2 ^ 149).natAbs =
      (valUnits 0x4B800001#32 - (0x01000001#32 : Word).toInt * 2 ^ 149).natAbs ∧
    valUnits (i2f32 0x01000001#32) ≠ valUnits 0x4B800001#32 := by decide +kernel

theorem witness_RawValueModeCopies :
    State.reset.faulted = false ∧ State.reset.pred = 0#32 ∧
    isNan32 { State.reset with orig := 0x80000000#32 }.orig = false ∧
    (isNan32 { State.reset with apx := 0xFF800000#32 }.apx = false ∧ (0xFF800000#32 : Word) ≠ 0x80000000#32) ∧
    { State.reset with apx := 0x80000000#32 }.apx = 0x80000000#32 ∧
    isNan32 { State.reset with orig := 0xFFFFFFFF#32 }.orig = true ∧
    isNan32 { State.reset with apx := 0x7F800001#32 }.apx = true := by decide

theorem witness_ReconstructionDependsOnThreePatterns :
    (∃ t, runs [.dequant 0#32, .recon 0#32] twoLeaves t) ∧ (∃ t, runs [.dequant 1#32, .recon 2#32] State.reset t) ∧
    twoLeaves.pred = State.reset.pred ∧ twoLeaves.sym = State.reset.sym ∧ twoLeaves.maxerr = State.reset.maxerr ∧
    twoLeaves.faulted = false ∧ State.reset.faulted = false :=
  ⟨⟨_, _, rfl, rfl, _, rfl, rfl, rfl⟩, ⟨_, _, rfl, rfl, _, rfl, rfl, rfl⟩, rfl, rfl, rfl, rfl, rfl⟩

/-! #### Bit stream -/

theorem witness_PointerLoadsCheckTheirBound :
    State.reset.faulted = false ∧ (32768#32 : Word).toNat ≤ 8 * State.reset.params.bufBytes.toNat ∧
    8 * State.reset.params.bufBytes.toNat < (32769#32 : Word).toNat := by decide

theorem witness_PutbitsAppendsBits :
    (32#8 : Byte).toNat ≤ 32 ∧ (0#8 : Byte).toNat ≤ 32 ∧ State.reset.faulted = false ∧
    (32736#32 : Word).toNat + (32#8 : Byte).toNat ≤ 8 * State.reset.params.bufBytes.toNat ∧
    8 * State.reset.params.bufBytes.toNat < (32737#32 : Word).toNat + (32#8 : Byte).toNat ∧
    opField 0x23210000#32 = 0x23#8 ∧ 32 < (fField 0x23210000#32).toNat ∧
    opField 0x23200001#32 = 0x23#8 ∧ idxField 0x23200001#32 ≠ 0#16 := by decide

theorem witness_GetbitsReadsBits :
    (32#8 : Byte).toNat ≤ 32 ∧ State.reset.faulted = false ∧
    (∃ s : State, s.faulted = false ∧ s.rptr.toNat + (32#8 : Byte).toNat = s.rlim.toNat) ∧
    (∃ s : State, s.faulted = false ∧ s.rlim.toNat + 1 = s.rptr.toNat + (0#8 : Byte).toNat) ∧
    opField 0x24210000#32 = 0x24#8 ∧ 32 < (fField 0x24210000#32).toNat ∧
    opField 0x24200001#32 = 0x24#8 ∧ idxField 0x24200001#32 ≠ 0#16 :=
  ⟨by decide, rfl, ⟨{ State.reset with rlim := 32#32 }, rfl, rfl⟩, ⟨{ State.reset with rptr := 1#32 }, rfl, rfl⟩,
    by decide, by decide, by decide, by decide⟩

theorem witness_BitWriteKeepsBelowAndClearsAbove : 0 ≤ 32 ∧ 32 ≤ 32 := by decide

theorem witness_ByteStoreAndLoad :
    State.reset.faulted = false ∧ (4095#32 : Word).toNat < State.reset.params.bufBytes.toNat ∧
    State.reset.params.bufBytes.toNat ≤ (4096#32 : Word).toNat ∧
    opField 0x25000001#32 = 0x25#8 ∧ idxField 0x25000001#32 ≠ 0#16 := by decide

theorem witness_UnwrittenBytesKeepTheirPowerOnValue :
    busy.faulted = false ∧ (4095#32 : Word).toNat < busy.params.bufBytes.toNat ∧
    cellAt busy.buf (4095#32 : Word).toNat = none ∧ (∃ t, exec (.srst 0#32) busy = .next t) ∧
    ∃ t, step { busy with inbox := [.reset] } = .next t :=
  ⟨rfl, by decide, rfl, ⟨_, rfl⟩, _, rfl⟩

/-- The run ends exactly at the end of `BUF`, and the chunk read at its end. -/
theorem witness_PackedBitsReadBack :
    ∃ (s : State) (chunks : List (Byte × Word)) (bits : List Bool), s.Inv ∧ s.faulted = false ∧
      (∀ c ∈ chunks, c.1.toNat ≤ 32) ∧
      bits = chunks.flatMap (fun c => (List.range c.1.toNat).map c.2.getLsbD) ∧
      s.wptr.toNat + bits.length = 8 * s.params.bufBytes.toNat ∧
      (3#8 : Byte).toNat ≤ 32 ∧ 32 + (3#8 : Byte).toNat ≤ bits.length :=
  ⟨{ State.reset with wptr := 32733#32 }, [(0#8, 9#32), (3#8, 5#32), (32#8, 0xDEADBEEF#32)], _,
    by constructor <;> decide, rfl, by simp, rfl, by decide, by decide, by decide⟩

/-! #### Table and tree -/

theorem witness_CtclrAndTclrEmptyTheirMemory : busy.faulted = false := rfl

theorem witness_CtsetReplacesOrFillsTheLeast :
    (busy.Inv ∧ busy.faulted = false ∧ wellFormedCode 32#8 0xFFFFFFFF#32 = true ∧ wellFormedCode 1#8 0#32 = true) ∧
    (cellAt busy.ct 0 = some ⟨7#32, 1#6, 0#32⟩ ∧ (⟨7#32, 1#6, 0#32⟩ : CtEntry).sym = busy.sym) ∧
    (State.reset.Inv ∧ 0 < State.reset.params.ctEntries.toNat ∧ cellAt State.reset.ct 0 = none ∧
      ∀ j e, cellAt State.reset.ct j = some e → e.sym ≠ State.reset.sym) ∧
    (∃ s : State, s.Inv ∧ s.faulted = false ∧ (∀ j e, cellAt s.ct j = some e → e.sym ≠ s.sym) ∧
      ∀ i, i < s.params.ctEntries.toNat → cellAt s.ct i ≠ none) ∧
    (opField 0x31000000#32 = 0x31#8 ∧ fField 0x31000000#32 = 0#8) ∧
    (opField 0x31020000#32 = 0x31#8 ∧ (fField 0x31020000#32).toNat < 32 ∧
      (4#32 : Word) >>> (fField 0x31020000#32).toNat ≠ 0#32) := by
  refine ⟨⟨busy_inv, rfl, by decide, by decide⟩, ⟨rfl, rfl⟩, ⟨reset_inv, by decide, rfl, ?_⟩, ?_, by decide, by decide⟩
  · intro j e h; simp [State.reset, State.powerOn] at h
  · refine ⟨{ State.reset with
        sym := 3#32, ct := [(0, ⟨2#32, 1#6, 0#32⟩)], ctn := 1#32
        params := { Config.Params.default with ctEntries := 1#32 } }, by constructor <;> decide, rfl, ?_, ?_⟩
    · intro j e h
      have := mem_of_cellAt h
      simp at this
      simp [this.2]
    · intro i hi
      have : i = 0 := by simp at hi; exact hi
      subst this; simp [cellAt]

theorem witness_CtrdReadsAnEntry :
    busy.faulted = false ∧ (255#16 : Half).toNat < busy.params.ctEntries.toNat ∧ cellAt busy.ct (255#16 : Half).toNat = none ∧
    cellAt busy.ct (1#16 : Half).toNat = some ⟨0xFFFFFFF9#32, 1#6, 1#32⟩ ∧
    busy.params.ctEntries.toNat ≤ (256#16 : Half).toNat ∧ opField 0x32030000#32 = 0x32#8 ∧
    2 < (fField 0x32030000#32).toNat := by decide

theorem witness_NodeStoresOverwrite :
    busy.faulted = false ∧ (510#16 : Half).toNat < busy.params.treeNodes.toNat ∧
    busy.params.treeNodes.toNat ≤ (511#16 : Half).toNat ∧ opField 0x34010000#32 = 0x34#8 ∧ fField 0x34010000#32 ≠ 0#8 ∧
    opField 0x35FF0000#32 = 0x35#8 ∧ fField 0x35FF0000#32 ≠ 0#8 := by decide

theorem witness_TrdReadsANode :
    busy.faulted = false ∧ (510#16 : Half).toNat < busy.params.treeNodes.toNat ∧
    cellAt busy.tree (510#16 : Half).toNat = none ∧ cellAt busy.tree (1#16 : Half).toNat = some (.leaf 7#32) ∧
    cellAt busy.tree (0#16 : Half).toNat = some (.internal 1#16 2#16) ∧
    busy.params.treeNodes.toNat ≤ (511#16 : Half).toNat ∧ opField 0x36030000#32 = 0x36#8 ∧
    2 < (fField 0x36030000#32).toNat := by decide

/-- The deepest tree `CGEN` takes, and one with exactly `CT_ENTRIES` leaves. -/
theorem witness_CgenMakesTheCodesOfTheTree :
    ((chainState 32).faulted = false ∧ holdsTree (chainState 32) 0 (chain 32 100) ∧ treeDepth (chain 32 100) = 32 ∧
      (treeSyms (chain 32 100)).Nodup ∧
      (treeSyms (chain 32 100)).length ≤ (chainState 32).params.ctEntries.toNat) ∧
    ∃ s : State, s.faulted = false ∧ holdsTree s 0 (.node (.leaf 7#32) (.leaf 0xFFFFFFF9#32)) ∧
      s.params.ctEntries.toNat = 2 :=
  ⟨⟨rfl, chain_holds (by decide), by decide, by decide, by decide⟩,
    { twoLeaves with params := { Config.Params.default with ctEntries := 2#32 } }, rfl,
    ⟨1#16, 2#16, rfl, rfl, rfl⟩, rfl⟩

theorem witness_CgenCompletesOnlyOnATree :
    twoLeaves.faulted = false ∧ (∃ t, exec (.cgen 0#32) twoLeaves = .next t ∧ t.faulted = false) ∧
    ∃ t, exec (.cgen 0#32) (loneLeaf 9#32) = .next t ∧ t.faulted = false := ⟨rfl, ⟨_, rfl, rfl⟩, _, rfl, rfl⟩

theorem witness_DeepTreesExceedTheCodeLength :
    (chainState 33).faulted = false ∧ holdsTree (chainState 33) 0 (chain 33 100) ∧ treeDepth (chain 33 100) = 33 ∧
    (treeSyms (chain 33 100)).Nodup ∧ (treeSyms (chain 33 100)).length ≤ (chainState 33).params.ctEntries.toNat :=
  ⟨rfl, chain_holds (by decide), by decide, by decide, by decide⟩

/-- H22: three leaves and two entries. -/
theorem witness_TooManyLeavesExceedTheTable :
    ∃ s : State, s.faulted = false ∧ holdsTree s 0 (.node (.leaf 1#32) (.node (.leaf 2#32) (.leaf 3#32))) ∧
      treeDepth (.node (.leaf 1#32) (.node (.leaf 2#32) (.leaf 3#32))) ≤ 32 ∧
      (treeSyms (.node (.leaf 1#32) (.node (.leaf 2#32) (.leaf 3#32)))).Nodup ∧
      s.params.ctEntries.toNat + 1 = (treeSyms (.node (.leaf 1#32) (.node (.leaf 2#32) (.leaf 3#32)))).length :=
  ⟨{ State.reset with
      tree := [(0, .internal 1#16 2#16), (1, .leaf 1#32), (2, .internal 3#16 4#16), (3, .leaf 2#32), (4, .leaf 3#32)]
      params := ⟨4096#32, 2#32, 7#32, 0x26901D7D#32⟩ },
    rfl, ⟨1#16, 2#16, rfl, rfl, 3#16, 4#16, rfl, rfl, rfl⟩, by decide, by decide, rfl⟩

/-- H6 and S12: past a leaf to an invalid right child, with just the room for what is passed; a leaf of a symbol passed below
the root; an invalid child where the bits lead, the last of them just before `RLIM`; a root that is its own child. -/
theorem witness_BadTreesFaultByTheirCause :
    (∃ s : State, s.faulted = false ∧ leadsTo s (.right (.leaf 5#32) .here) 0 2 ∧ nodeAt s 2 = none ∧
      wayDepth (.right (.leaf 5#32) .here) ≤ 32 ∧ (waySyms (.right (.leaf 5#32) .here)).Nodup ∧
      (waySyms (.right (.leaf 5#32) .here)).length = s.params.ctEntries.toNat ∧
      s.wptr.toNat + (wayBits (.right (.leaf 5#32) .here)).length = 8 * s.params.bufBytes.toNat) ∧
    (∃ s : State, s.faulted = false ∧ leadsTo s (.right (.leaf 5#32) (.left .here)) 0 3 ∧ nodeAt s 3 = some (.leaf 5#32) ∧
      5#32 ∈ waySyms (.right (.leaf 5#32) (.left .here)) ∧ wayDepth (.right (.leaf 5#32) (.left .here)) ≤ 32 ∧
      (waySyms (.right (.leaf 5#32) (.left .here))).Nodup ∧
      (waySyms (.right (.leaf 5#32) (.left .here))).length ≤ s.params.ctEntries.toNat) ∧
    (∃ s : State, s.faulted = false ∧ (∀ k (h : k < [true].length), bitAt s.buf (s.rptr.toNat + k) = [true][k]) ∧
      s.rptr.toNat + [true].length = s.rlim.toNat ∧ descendsTo s [true] 0 600 ∧ nodeAt s 600 = none) ∧
    ∃ s : State, s.faulted = false ∧ nodeAt s 0 = some (.internal 0#16 0#16) := by
  refine ⟨⟨{ State.reset with
      tree := [(0, .internal 1#16 2#16), (1, .leaf 5#32)], wptr := 32734#32
      params := { Config.Params.default with ctEntries := 1#32 } },
      rfl, ⟨1#16, 2#16, rfl, rfl, rfl⟩, rfl, by decide, by decide, by decide, by decide⟩,
    ⟨{ State.reset with tree := [(0, .internal 1#16 2#16), (1, .leaf 5#32), (2, .internal 3#16 4#16), (3, .leaf 5#32)] },
      rfl, ⟨1#16, 2#16, rfl, rfl, 3#16, 4#16, rfl, rfl⟩, rfl, by decide, by decide, by decide, by decide⟩,
    ⟨{ State.reset with tree := [(0, .internal 1#16 600#16)], buf := [(0, 1#8)], rlim := 1#32 },
      rfl, ?_, rfl, ⟨1#16, 600#16, rfl, rfl⟩, rfl⟩,
    { State.reset with tree := [(0, .internal 0#16 0#16)] }, rfl, rfl⟩
  intro k h
  have : k = 0 := by simp at h; exact h
  subst this; rfl

theorem witness_EncAppendsTheCodeword :
    (∃ s : State, s.Inv ∧ s.faulted = false ∧ cellAt s.ct 0 = some ⟨7#32, 1#6, 0#32⟩ ∧
      (⟨7#32, 1#6, 0#32⟩ : CtEntry).sym = s.sym ∧ s.wptr.toNat + 1 = 8 * s.params.bufBytes.toNat) ∧
    (∃ s : State, s.Inv ∧ s.faulted = false ∧ cellAt s.ct 0 = some ⟨7#32, 1#6, 0#32⟩ ∧
      (⟨7#32, 1#6, 0#32⟩ : CtEntry).sym = s.sym ∧ s.wptr.toNat = 8 * s.params.bufBytes.toNat) ∧
    (∃ s : State, s.Inv ∧ s.faulted = false ∧ s.ctn ≠ 0#32 ∧ ∀ i e, cellAt s.ct i = some e → e.sym ≠ s.sym) ∧
    State.reset.Inv ∧ State.reset.ctn = 0#32 := by
  refine ⟨⟨{ busy with wptr := 32767#32 }, by constructor <;> decide, rfl, rfl, rfl, rfl⟩,
    ⟨{ busy with wptr := 32768#32 }, by constructor <;> decide, rfl, rfl, rfl, rfl⟩,
    ⟨{ busy with sym := 1#32 }, by constructor <;> decide, rfl, by decide, ?_⟩, reset_inv, rfl⟩
  intro i e h
  have := mem_of_cellAt h
  simp [busy] at this
  rcases this with ⟨-, rfl⟩ | ⟨-, rfl⟩ <;> simp

theorem witness_DecFollowsThePath :
    (∃ s : State, s.faulted = false ∧ holdsTree s 0 (.node (.leaf 7#32) (.leaf 0xFFFFFFF9#32)) ∧
      (0xFFFFFFF9#32, [true]) ∈ codesFrom [] (.node (.leaf 7#32) (.leaf 0xFFFFFFF9#32)) ∧
      (∀ k (h : k < [true].length), bitAt s.buf (s.rptr.toNat + k) = [true][k]) ∧
      s.rptr.toNat + [true].length = s.rlim.toNat) ∧
    ∃ s : State, s.faulted = false ∧ holdsTree s 0 (.leaf 9#32) ∧ s.rptr.toNat + 1 = s.rlim.toNat := by
  refine ⟨⟨{ twoLeaves with buf := [(0, 1#8)], rlim := 1#32 }, rfl, ⟨1#16, 2#16, rfl, rfl, rfl⟩, by decide, ?_, rfl⟩,
    { loneLeaf 9#32 with rlim := 1#32 }, rfl, rfl, rfl⟩
  intro k h
  have : k = 0 := by simp at h; exact h
  subst this; rfl

/-- The stream ends after one bit, at an internal node. -/
theorem witness_DecFaultsInsideACodeword :
    ∃ s : State, s.faulted = false ∧ (∀ k (h : k < [true].length), bitAt s.buf (s.rptr.toNat + k) = [true][k]) ∧
      s.rptr.toNat + [true].length = s.rlim.toNat ∧ descendsTo s [true] 0 2 ∧ nodeAt s 2 = some (.internal 3#16 4#16) := by
  refine ⟨{ State.reset with
    tree := [(0, .internal 1#16 2#16), (1, .leaf 5#32), (2, .internal 3#16 4#16)], buf := [(0, 1#8)], rlim := 1#32 },
    rfl, ?_, rfl, ⟨1#16, 2#16, rfl, rfl⟩, rfl⟩
  intro k h
  have : k = 0 := by simp at h; exact h
  subst this; rfl

theorem witness_EmptyTreeAndStreamEndFault :
    State.reset.faulted = false ∧ nodeAt State.reset 0 = none ∧ State.reset.rlim.toNat ≤ State.reset.rptr.toNat ∧
    1 ≤ (1#8 : Byte).toNat ∧ twoLeaves.rlim.toNat ≤ twoLeaves.rptr.toNat ∧ nodeAt twoLeaves 0 ≠ none := by decide

theorem witness_GeneratedTableIsPrefixFree :
    twoLeaves.faulted = false ∧ nodeAt twoLeaves 0 = some (.internal 1#16 2#16) ∧
    ∃ t, exec (.cgen 0#32) twoLeaves = .next t ∧ t.faulted = false ∧
      cellAt t.ct 0 = some ⟨7#32, 1#6, 0#32⟩ ∧ cellAt t.ct 1 = some ⟨0xFFFFFFF9#32, 1#6, 1#32⟩ :=
  ⟨rfl, rfl, _, rfl, rfl, rfl, rfl⟩

theorem witness_DecInvertsEnc :
    twoLeaves.Inv ∧ twoLeaves.faulted = false ∧
    ∃ s u, exec (.cgen 0#32) twoLeaves = .next s ∧ s.faulted = false ∧
      runs ([7#32, 0xFFFFFFF9#32].flatMap (fun y => [.setsym y, .enc 0#32])) s u :=
  ⟨twoLeaves_inv, rfl, _, _, rfl, rfl, _, rfl, rfl, _, rfl, rfl, _, rfl, rfl, _, rfl, rfl, rfl⟩

/-! #### Serializer -/

/-- S2 and S11: the form fits exactly, or is one bit too long. -/
theorem witness_TserWritesTheSerializedTree :
    (∃ s : State, s.faulted = false ∧ holdsTree s 0 (.leaf 0xFFFFFFFE#32) ∧
      s.wptr.toNat + (treeBits (.leaf 0xFFFFFFFE#32)).length = 8 * s.params.bufBytes.toNat) ∧
    ∃ s : State, s.faulted = false ∧ holdsTree s 0 (.leaf 0#32) ∧ s.wptr.toNat ≤ 8 * s.params.bufBytes.toNat ∧
      8 * s.params.bufBytes.toNat + 1 = s.wptr.toNat + (treeBits (.leaf 0#32)).length :=
  ⟨⟨{ loneLeaf 0xFFFFFFFE#32 with params := { Config.Params.default with bufBytes := 5#32 }, wptr := 7#32 }, rfl, rfl,
      by decide⟩,
    { loneLeaf 0#32 with params := { Config.Params.default with bufBytes := 4#32 } }, rfl, rfl, by decide, by decide⟩

/-- A serialized leaf that ends at `RLIM`, in a `TREE` of one node. -/
theorem witness_TdesReadsASerializedTree :
    ∃ s : State, s.faulted = false ∧
      (∀ k (h : k < (treeBits (.leaf 2#32)).length), bitAt s.buf (s.rptr.toNat + k) = (treeBits (.leaf 2#32))[k]) ∧
      s.rptr.toNat + (treeBits (.leaf 2#32)).length = s.rlim.toNat ∧
      treeSize (.leaf 2#32) = s.params.treeNodes.toNat := by
  refine ⟨{ State.reset with
    buf := bytes [5#8, 0#8, 0#8, 0#8, 0#8], rlim := 33#32, params := { Config.Params.default with treeNodes := 1#32 } },
    rfl, ?_, by decide, by decide⟩
  decide

/-- S9: the stream ends after a marker 0. S10: three nodes are filled and a fourth marker is there. S7: the symbol is cut
short by one bit. A whole serialized tree of three nodes where two fit. -/
theorem witness_TdesFaultsWhereTheStreamBreaks :
    (∃ s : State, s.faulted = false ∧
      (∀ k (h : k < (wayBits (.left .here)).length), bitAt s.buf (s.rptr.toNat + k) = (wayBits (.left .here))[k]) ∧
      wayNodes (.left .here) ≤ s.params.treeNodes.toNat ∧
      s.rptr.toNat + (wayBits (.left .here)).length = s.rlim.toNat) ∧
    (∃ s : State, s.faulted = false ∧
      (∀ k (h : k < (wayBits (.left (.left (.left .here)))).length),
        bitAt s.buf (s.rptr.toNat + k) = (wayBits (.left (.left (.left .here))))[k]) ∧
      wayNodes (.left (.left (.left .here))) = s.params.treeNodes.toNat ∧
      s.rptr.toNat + (wayBits (.left (.left (.left .here)))).length < s.rlim.toNat) ∧
    (∃ s : State, s.faulted = false ∧ s.rptr.toNat + (wayBits .here).length < s.rlim.toNat ∧
      s.rlim.toNat + 1 = s.rptr.toNat + (wayBits .here).length + 33 ∧ wayNodes .here < s.params.treeNodes.toNat ∧
      bitAt s.buf (s.rptr.toNat + (wayBits .here).length) = true) ∧
    ∃ s : State, s.faulted = false ∧
      (∀ k (h : k < (treeBits (.node (.leaf 0#32) (.leaf 1#32))).length),
        bitAt s.buf (s.rptr.toNat + k) = (treeBits (.node (.leaf 0#32) (.leaf 1#32)))[k]) ∧
      s.rptr.toNat + (treeBits (.node (.leaf 0#32) (.leaf 1#32))).length = s.rlim.toNat ∧
      s.params.treeNodes.toNat + 1 = treeSize (.node (.leaf 0#32) (.leaf 1#32)) :=
  ⟨⟨{ State.reset with buf := bytes [0#8], rlim := 1#32 }, rfl, by decide, by decide, rfl⟩,
    ⟨{ State.reset with buf := bytes [0#8, 0#8], rlim := 16#32, params := { Config.Params.default with treeNodes := 3#32 } },
      rfl, by decide, rfl, by decide⟩,
    ⟨{ State.reset with buf := bytes [1#8, 0#8, 0#8, 0#8, 0#8], rlim := 32#32 }, rfl, by decide, rfl, by decide, rfl⟩,
    { State.reset with
      buf := bytes [2#8, 0#8, 0#8, 0#8, 12#8, 0#8, 0#8, 0#8, 0#8], rlim := 67#32
      params := { Config.Params.default with treeNodes := 2#32 } },
    rfl, by decide +kernel, rfl, rfl⟩

theorem witness_SerializerCompletesOnlyOnATree :
    (twoLeaves.Inv ∧ twoLeaves.faulted = false ∧ ∃ t, exec (.tser 0#32) twoLeaves = .next t ∧ t.faulted = false) ∧
    ∃ s t : State, s.Inv ∧ s.faulted = false ∧ exec (.tdes 0#32) s = .next t ∧ t.faulted = false :=
  ⟨⟨twoLeaves_inv, rfl, _, rfl, rfl⟩,
    { State.reset with buf := bytes [5#8, 0#8, 0#8, 0#8, 0#8], rlim := 33#32 }, _,
    by constructor <;> decide, rfl, rfl, rfl⟩

theorem witness_TdesInvertsTser :
    twoLeaves.Inv ∧ twoLeaves.faulted = false ∧ holdsTree twoLeaves 0 (.node (.leaf 7#32) (.leaf 0xFFFFFFF9#32)) ∧
    treeSize (.node (.leaf 7#32) (.leaf 0xFFFFFFF9#32)) ≤ twoLeaves.params.treeNodes.toNat ∧
    (∃ u, exec (.tser 0#32) twoLeaves = .next u ∧ u.faulted = false) ∧
    ∃ y, exec (.cgen 0#32) twoLeaves = .next y ∧ y.faulted = false :=
  ⟨twoLeaves_inv, rfl, twoLeaves_holds, by decide, ⟨_, rfl, rfl⟩, _, rfl, rfl⟩

end Sys2Proof.Tests
end

section
/-! PROOFS. The step as a total function: it runs what it takes, and no outcome stops the block (spec/00_scope.md R15). -/

namespace Sys2Proof.Machine

variable {i : Instr} {s : State}

/-- A delivered pair that decodes is taken and run: the case of `step` that `step_idle`, `step_reset` and `step_illegal`
leave. -/
theorem step_decoded {cmd data : Word} {rest : List Delivery} (h : s.inbox = .command cmd data :: rest)
    (hd : decode cmd data = .ok i) : step s = exec i { s with inbox := rest } := by
  simp [step, h, hd]

theorem runCommand_next (i : Instr) (rule : State → Except Cause State) (s : State) :
    ∃ t, runCommand i rule s = .next t := by
  cases hf : s.faulted with
  | true => exact ⟨_, runCommand_faulted hf⟩
  | false =>
    cases hr : rule s with
    | ok u => exact ⟨_, runCommand_ok hf hr⟩
    | error c => exact ⟨_, runCommand_error hf hr⟩

/-- Every command answers a next state: the block's own faults are next states, and no command is refused. -/
theorem exec_next (i : Instr) (s : State) : ∃ t, exec i s = .next t := by
  cases i
  case srst => exact ⟨resetBlock s, rfl⟩
  case rd sel d =>
    cases hf : s.faulted with
    | true => exact ⟨{ s with out := readReg s sel }, by simp [exec, execRd, hf]⟩
    | false => rw [exec_running rfl hf]; exact runCommand_next _ _ s
  all_goals rw [exec_eq_runCommand rfl rfl]; exact runCommand_next _ _ s

/-- Settles O5: it is the step's case of a pair that decodes. -/
theorem stepRunsDecodedCommand : Obligations.StepRunsDecodedCommand :=
  fun _ _ _ _ _ h hd => step_decoded h hd

/-- Settles O7, by what the step takes: nothing, the reset input, a pair that decodes or one that does not. -/
theorem everyStepAnswersANextState : Obligations.EveryStepAnswersANextState := by
  intro s
  match h : s.inbox with
  | [] => exact ⟨_, step_idle h⟩
  | .reset :: rest => exact ⟨_, step_reset h⟩
  | .command cmd data :: rest =>
    cases hd : decode cmd data with
    | ok i => rw [step_decoded h hd]; exact exec_next i _
    | error e => exact ⟨_, step_illegal h hd⟩

end Sys2Proof.Machine
end

section
/-! PROOFS. What one step can do, said once (spec/00_scope.md R5, R15; spec/30_encoding.md R93, R94). -/

namespace Sys2Proof.Machine

variable {i : Instr} {s t : State}

theorem isSrst_iff : isSrst i = true ↔ ∃ d, i = .srst d := by
  cases i <;> simp [isSrst]

/-- Everything a step can do: idle, take the reset input, run a pair that decodes, or refuse one that does not. -/
theorem step_cases (h : step s = .next t) :
    (s.inbox = [] ∧ t = s) ∨
    (∃ rest, s.inbox = .reset :: rest ∧ t = resetBlock { s with inbox := rest }) ∨
    (∃ cmd data rest i, s.inbox = .command cmd data :: rest ∧ decode cmd data = .ok i ∧
      exec i { s with inbox := rest } = .next t) ∨
    (∃ cmd data rest e, s.inbox = .command cmd data :: rest ∧ decode cmd data = .error e ∧
      t = illegalCommand cmd data { s with inbox := rest }) := by
  match hb : s.inbox with
  | [] => rw [step_idle hb] at h; exact .inl ⟨rfl, by simpa using h.symm⟩
  | .reset :: rest => rw [step_reset hb] at h; exact .inr (.inl ⟨rest, rfl, by simpa using h.symm⟩)
  | .command cmd data :: rest =>
    cases hd : decode cmd data with
    | ok i => rw [step_decoded hb hd] at h; exact .inr (.inr (.inl ⟨cmd, data, rest, i, rfl, hd, h⟩))
    | error e =>
      rw [step_illegal hb hd] at h
      exact .inr (.inr (.inr ⟨cmd, data, rest, e, rfl, hd, by simpa using h.symm⟩))

theorem illegalCommand_faulted (cmd data : Word) (h : s.faulted = true) : illegalCommand cmd data s = s := by
  simp [illegalCommand, h]

theorem illegalCommand_running (cmd data : Word) (h : s.faulted = false) :
    illegalCommand cmd data s = raiseFault .illegalCommand cmd data s := by
  simp [illegalCommand, h]

end Sys2Proof.Machine
end

section
/-! PROOFS. The state invariants of spec/10_state.md R40: they hold after power-on and every step keeps them. -/

namespace Sys2Proof.Machine

variable {i : Instr} {s t u : State}

/-! ### Sizes and fields in range -/

theorem State.Inv.ctEntries_bounds (hi : s.Inv) : 1 ≤ ctEntries s ∧ ctEntries s ≤ 65536 := by
  have h := hi.params
  simp only [Config.Params.wf, Bool.and_eq_true, decide_eq_true_eq] at h
  exact h.1.1.2

/-- A pointer set to an offset inside `BUF` does not exceed it, whatever 32 bits keep of the offset. -/
theorem toNat_ofNat_le {n b : Nat} (h : n ≤ b) : (BitVec.ofNat 32 n).toNat ≤ b := by
  rw [BitVec.toNat_ofNat]
  exact (Nat.mod_le _ _).trans h

theorem causeCode_range (c : Cause) : 1 ≤ (causeCode c).toNat ∧ (causeCode c).toNat ≤ 7 := by cases c <;> decide

/-- The entry that a legal `CTSET` makes is a valid one (R93 (c), R35). -/
theorem entryWf_ctsetEntry {len : Byte} {code : Word} (sym : Word) (h : wellFormedCode len code = true) :
    entryWf (ctsetEntry sym len code) := by
  simp only [wellFormedCode, Bool.and_eq_true, decide_eq_true_eq] at h
  obtain ⟨⟨h1, h32⟩, hcode⟩ := h
  have hlen : (ctsetEntry sym len code).len.toNat = len.toNat := by simp [ctsetEntry]; omega
  simp only [entryWf, hlen]
  exact ⟨h1, h32, hcode⟩

/-! ### The rule of each update of the state -/

/-- The invariants say nothing of the data registers, the counter and the deliveries. -/
theorem State.Inv.withData (hi : s.Inv) (orig pred res sym apx recn maxerr out cmdcnt : Word) (inbox : List Delivery) :
    State.Inv { s with orig, pred, res, sym, apx, recn, maxerr, out, cmdcnt, inbox } := { hi with }

theorem State.Inv.raiseFault (hi : s.Inv) (c : Cause) (cmd data : Word) : (raiseFault c cmd data s).Inv :=
  { hi with clearRecord := by simp, faultCode := fun _ => causeCode_range c }

theorem State.Inv.illegalCommand (hi : s.Inv) (cmd data : Word) : (illegalCommand cmd data s).Inv := by
  cases hf : s.faulted with
  | true => rwa [illegalCommand_faulted cmd data hf]
  | false => rw [illegalCommand_running cmd data hf]; exact hi.raiseFault ..

/-- After a reset only the parameters and `BUF` are not 0 or empty (R37, R38). -/
theorem resetBlock_inv (hp : s.params.wf = true) (hform : Memory.wf s.buf = true)
    (hinside : ∀ cell ∈ s.buf, cell.1 < bufBytes s) : (resetBlock s).Inv where
  params := hp
  wptrLe := Nat.zero_le _
  rptrLe := Nat.zero_le _
  rlimLe := Nat.zero_le _
  ctnCounts := rfl
  ctSymsDistinct := .nil
  ctEntriesWf := by simp
  clearRecord := by simp
  faultCode := by simp
  bufForm := hform
  bufInside := hinside
  ctForm := rfl
  ctInside := by simp
  treeForm := rfl
  treeInside := by simp

theorem State.Inv.resetBlock (hi : s.Inv) : (resetBlock s).Inv := resetBlock_inv hi.params hi.bufForm hi.bufInside

/-- Bits written at `WPTR` inside `BUF`, with `WPTR` moved past them (R65, R66). -/
theorem State.Inv.writeBits (hi : s.Inv) {bits : List Bool} (h : s.wptr.toNat + bits.length ≤ bufBits s) :
    State.Inv { s with
      buf := writeBits s.buf s.wptr.toNat bits, wptr := BitVec.ofNat 32 (s.wptr.toNat + bits.length) } :=
  { hi with
    wptrLe := toNat_ofNat_le h
    bufForm := Memory.wf_writeBits _ _ hi.bufForm
    bufInside := inside_writeBits hi.bufInside h }

theorem State.Inv.bitWrite (hi : s.Inv) {n : Nat} {v : Word} (h : s.wptr.toNat + n ≤ bufBits s) :
    State.Inv { s with buf := bitWrite s.buf s.wptr.toNat n v, wptr := BitVec.ofNat 32 (s.wptr.toNat + n) } := by
  have hb := hi.writeBits (bits := bitsOf n v) (by rwa [length_bitsOf])
  rwa [length_bitsOf] at hb

theorem State.Inv.putByte (hi : s.Inv) {a : Nat} {b : Byte} (h : a < bufBytes s) :
    State.Inv { s with buf := putByte s.buf a b } :=
  { hi with
    bufForm := Memory.wf_putByte a b hi.bufForm
    bufInside := fun c hc => (mem_putCell hc).elim (fun e => e ▸ h) (hi.bufInside c) }

theorem State.Inv.putNode (hi : s.Inv) {n : Nat} {x : Node} (h : n < treeNodes s) :
    State.Inv { s with tree := putCell s.tree n x } :=
  { hi with
    treeForm := cellsWf_putCell hi.treeForm
    treeInside := fun c hc => (mem_putCell hc).elim (fun e => e ▸ h) (hi.treeInside c) }

/-! ### The code table -/

/-- No other entry has the symbol of the entry that the search finds (R35). -/
theorem State.Inv.sym_ne_of_index_ne (hi : s.Inv) {y : Word} {j : Nat} {e : CtEntry} (he : entryOf s y = some (j, e)) :
    ∀ c ∈ s.ct, c.1 ≠ j → c.2.sym ≠ y := by
  rintro c hc hne rfl
  rw [entryOf_some hi (cellAt_of_mem hi.ctForm hc), Option.some.injEq, Prod.mk.injEq] at he
  exact hne he.1

/-- An entry put at an index of the table, when no other index has its symbol and `CTN` counts the entries. -/
theorem State.Inv.putEntry (hi : s.Inv) {j : Nat} {e : CtEntry} {ctn : Word} (he : entryWf e) (hj : j < ctEntries s)
    (hsym : ∀ c ∈ s.ct, c.1 ≠ j → c.2.sym ≠ e.sym) (hn : ctn.toNat = (putCell s.ct j e).length) :
    State.Inv { s with ct := putCell s.ct j e, ctn := ctn } :=
  { hi with
    ctnCounts := hn
    ctSymsDistinct := pairwise_putCell hi.ctForm hi.ctSymsDistinct hsym
    ctEntriesWf := fun c hc => (mem_putCell hc).elim (fun h => h ▸ he) (hi.ctEntriesWf c)
    ctForm := cellsWf_putCell hi.ctForm
    ctInside := fun c hc => (mem_putCell hc).elim (fun h => h ▸ hj) (hi.ctInside c) }

theorem ctsetRule_inv {len : Byte} {code : Word} (hi : s.Inv) (hw : wellFormedCode len code = true)
    (h : ctsetRule len code s = .ok u) : u.Inv := by
  have hwf := entryWf_ctsetEntry s.sym hw
  rcases ctsetRule_ok h with ⟨j, e, he, rfl⟩ | ⟨j, hnone, hfree, rfl⟩
  · -- `SYM` has an entry: it is replaced in its place.
    have hmem := (entryOf_mem he).1
    have hlen : s.ctn.toNat = (putCell s.ct j (ctsetEntry s.sym len code)).length := by
      rw [length_putCell hi.ctForm, cellAt_of_mem hi.ctForm hmem, hi.ctnCounts]; rfl
    exact hi.putEntry hwf (hi.ctInside _ hmem) (hi.sym_ne_of_index_ne he) hlen
  · -- `SYM` has none: the least invalid entry is taken, and there was room for it.
    obtain ⟨-, hj, hempty, -⟩ := leastFree_some hfree
    have hlen : (putCell s.ct j (ctsetEntry s.sym len code)).length = s.ct.length + 1 := by
      rw [length_putCell hi.ctForm, hempty]; rfl
    have hfits : s.ct.length ≤ ctEntries s := length_le_of_rising hi.ctForm hi.ctInside
    have hcount : (s.ctn + 1#32).toNat = s.ct.length + 1 := by
      have := hi.ctEntries_bounds
      rw [BitVec.toNat_add, hi.ctnCounts]
      simp; omega
    have hsym : ∀ c ∈ s.ct, c.1 ≠ j → c.2.sym ≠ s.sym := fun c hc _ => by
      simpa using List.find?_eq_none.mp hnone c hc
    exact hi.putEntry hwf (by omega) hsym (hcount.trans hlen.symm)

/-- The symbols of a numbered list of entries are distinct when those of the entries are. -/
theorem pairwise_numberedFrom {rows : List CtEntry} (i : Nat) (h : (rows.map (·.sym)).Nodup) :
    (numberedFrom i rows).Pairwise (fun a b => a.2.sym ≠ b.2.sym) := by
  rw [← map_snd_numberedFrom i rows, List.Nodup, List.pairwise_map, List.pairwise_map] at h
  exact h

/-- `CGEN`'s table: as many entries as the tree has leaves, with their distinct symbols (R198, R201). -/
theorem cgenRule_inv (hi : s.Inv) (h : cgenRule s = .ok u) : u.Inv := by
  obtain ⟨rows, hrows, rfl⟩ := cgenRule_ok h
  obtain ⟨tr, -, hdepth, hnodup, hroom, rfl⟩ := cgenRows_ok hrows
  obtain ⟨hone, hmax⟩ := hi.ctEntries_bounds
  have hsyms : ((treeCodes tr).map codeEntry).map (·.sym) = treeSyms tr := by
    rw [List.map_map, ← map_fst_treeCodes]; rfl
  have hlen : ((treeCodes tr).map codeEntry).length ≤ ctEntries s := by
    rw [← List.length_map (f := (·.sym)), hsyms]
    rcases hroom with hroom | ⟨y, rfl⟩
    · exact hroom
    · simpa [treeSyms] using hone
  exact { hi with
    ctnCounts := by rw [BitVec.toNat_ofNat, length_numberedFrom, Nat.mod_eq_of_lt (by omega)]
    ctSymsDistinct := pairwise_numberedFrom 0 (hsyms ▸ hnodup)
    ctEntriesWf := fun c hc => entryWf_treeCodes hdepth _ (mem_numberedFrom hc).2.2
    ctForm := risingFrom_numberedFrom 0 _
    ctInside := fun c hc => (mem_numberedFrom hc).2.1.trans_le ((Nat.zero_add _).trans_le hlen) }

/-! ### Serializer -/

theorem tserRule_inv (hi : s.Inv) (h : tserRule s = .ok u) : u.Inv := by
  obtain ⟨bits, hbits, rfl⟩ := tserRule_ok h
  have hfits : s.wptr.toNat + bits.length ≤ bufBits s := by
    have := tserBits_ok hbits
    have := hi.wptrLe
    omega
  exact (hi.writeBits hfits).withData (out := BitVec.ofNat 32 bits.length) ..

theorem tdesRule_inv (hi : s.Inv) (h : tdesRule s = .ok u) : u.Inv := by
  obtain ⟨k, hk, rfl⟩ := tdesRule_ok h
  obtain ⟨-, hp, -, -, hform, hinside⟩ := desNode_ok hk
  exact { hi with
    rptrLe := toNat_ofNat_le (hp.trans hi.rlimLe)
    treeForm := hform rfl
    treeInside := fun c hc => (hinside c hc).elim (by simp) id }

/-! ### Every command and every step -/

/-- The rule of a legal command keeps the invariants. -/
theorem ruleOf_inv (hi : s.Inv) (hw : i.wellFormed = true) (h : ruleOf i s = .ok u) : u.Inv := by
  cases i <;> simp only [ruleOf, Except.ok.injEq] at h
  case nop | srst => exact h ▸ hi
  case rd | setme | setorig | setpred | setsym | resid | dequant | recon => subst h; exact hi.withData ..
  case quant => obtain ⟨q, -, rfl⟩ := quantRule_ok h; exact hi.withData ..
  case setwp => obtain ⟨hv, rfl⟩ := setwpRule_ok h; exact { hi with wptrLe := hv }
  case setrp => obtain ⟨hv, rfl⟩ := setrpRule_ok h; exact { hi with rptrLe := hv }
  case setrl => obtain ⟨hv, rfl⟩ := setrlRule_ok h; exact { hi with rlimLe := hv }
  case putbits => obtain ⟨hp, rfl⟩ := putbitsRule_ok h; exact hi.bitWrite hp
  case getbits =>
    obtain ⟨hp, rfl⟩ := getbitsRule_ok h
    exact { hi with rptrLe := toNat_ofNat_le (hp.trans hi.rlimLe) }
  case stb => obtain ⟨ha, rfl⟩ := stbRule_ok h; exact hi.putByte ha
  case ldb => obtain ⟨-, rfl⟩ := ldbRule_ok h; exact hi.withData ..
  case ctclr =>
    subst h
    exact { hi with
      ctnCounts := rfl, ctSymsDistinct := .nil, ctEntriesWf := by simp, ctForm := rfl, ctInside := by simp }
  case ctset => exact ctsetRule_inv hi hw h
  case ctrd => obtain ⟨-, rfl⟩ := ctrdRule_ok h; exact hi.withData ..
  case tclr => subst h; exact { hi with treeForm := rfl, treeInside := by simp }
  case tleaf | tint => obtain ⟨hn, rfl⟩ := putNodeRule_ok h; exact hi.putNode hn
  case trd => obtain ⟨-, rfl⟩ := trdRule_ok h; exact hi.withData ..
  case cgen => exact cgenRule_inv hi h
  case enc => obtain ⟨-, j, e, -, hp, rfl⟩ := encRule_ok h; exact hi.bitWrite hp
  case dec =>
    obtain ⟨y, p, hd, rfl⟩ := decRule_ok h
    exact { hi with rptrLe := toNat_ofNat_le ((decSymbol_ok hd).2.trans hi.rlimLe) }
  case tser => exact tserRule_inv hi h
  case tdes => exact tdesRule_inv hi h

/-- A legal command keeps the invariants, whether it completes, faults or is discarded. -/
theorem exec_inv (hi : s.Inv) (hw : i.wellFormed = true) (h : exec i s = .next t) : t.Inv := by
  rcases exec_cases h with ⟨-, rfl⟩ | ⟨-, -, -, rfl⟩ | ⟨-, sel, d, -, rfl⟩ | ⟨-, -, u, hu, rfl⟩ | ⟨-, -, c, -, rfl⟩
  · exact hi.resetBlock
  · exact hi
  · exact hi.withData ..
  · exact (ruleOf_inv hi hw hu).withData ..
  · exact hi.raiseFault ..

/-- Settles O13, by what a step can do: each update of the state keeps the invariants. -/
theorem everyStepKeepsTheInvariant : Obligations.EveryStepKeepsTheInvariant := by
  intro s t hi h
  have htake : ∀ rest, State.Inv { s with inbox := rest } := fun rest => hi.withData ..
  rcases step_cases h with ⟨-, rfl⟩ | ⟨rest, -, rfl⟩ | ⟨cmd, data, rest, i, -, hd, h⟩ | ⟨cmd, data, rest, e, -, -, rfl⟩
  · exact hi
  · exact (htake rest).resetBlock
  · exact exec_inv (htake rest) (wellFormed_of_decode hd) h
  · exact (htake rest).illegalCommand cmd data

/-- A reset right after power-on changes nothing, so power-on reset gives a reset state (R301). -/
theorem powerOn_inv {p : Config.Params} (hp : p.wf = true) : (State.powerOn p).Inv :=
  resetBlock_inv (s := State.powerOn p) hp rfl (by simp [State.powerOn])

/-- Settles O14: power-on reset leaves everything 0 or empty, and the default parameters are in their ranges. -/
theorem resetMeetsTheInvariant : Obligations.ResetMeetsTheInvariant :=
  ⟨fun _ hp => powerOn_inv hp, powerOn_inv (by decide)⟩

end Sys2Proof.Machine
end

section
/-! PROOFS. The fault record, the counter and the parameters over a step (spec/10_state.md R27, R28, R31). -/

namespace Sys2Proof.Machine

variable {i : Instr} {s t : State}

/-! ### The counter -/

/-- A command but `SRST` counts when it completes, and neither a fault nor a faulted block counts (R27, R119). -/
theorem exec_cmdcnt (hs : isSrst i = false) (h : exec i s = .next t) :
    (s.faulted = false → t.faulted = false → t.cmdcnt = s.cmdcnt + 1#32) ∧
      (t.faulted = true → t.cmdcnt = s.cmdcnt) := by
  rcases exec_cases h with ⟨hs', -⟩ | ⟨hf, -, -, rfl⟩ | ⟨hf, sel, d, -, rfl⟩ | ⟨hf, -, u, hu, rfl⟩ | ⟨-, -, c, -, rfl⟩
  · simp [hs] at hs'
  · simp [hf]
  · simp [hf]
  · obtain ⟨hfaulted, -, -, -, hcmdcnt, -⟩ := ruleOf_keeps hu
    simp [hfaulted, hf, hcmdcnt]
  · simp

/-- An illegal pair leaves the block faulted and writes neither the counter nor the parameters (R94, R279). -/
theorem illegalCommand_keeps (s : State) (cmd data : Word) :
    (illegalCommand cmd data s).faulted = true ∧ (illegalCommand cmd data s).cmdcnt = s.cmdcnt ∧
      (illegalCommand cmd data s).params = s.params := by
  cases hf : s.faulted with
  | true => simp [illegalCommand_faulted cmd data hf, hf]
  | false => simp [illegalCommand_running cmd data hf]

/-- Settles O10, by what a step can do with a delivered pair: `SRST` resets the counter, any other command counts or
does not, and an illegal pair leaves the block faulted. -/
theorem completedCommandsAreCounted : Obligations.CompletedCommandsAreCounted := by
  intro s t cmd data rest hb h
  cases hd : decode cmd data with
  | error e =>
    rw [step_illegal hb hd, Host.Outcome.next.injEq] at h
    subst h
    obtain ⟨hf, hcmdcnt, -⟩ := illegalCommand_keeps { s with inbox := rest } cmd data
    simp [hf, hcmdcnt]
  | ok i =>
    rw [step_decoded hb hd] at h
    refine ⟨?_, fun hne => ?_⟩
    · rintro ⟨d, hi⟩
      obtain rfl : i = .srst d := by simpa using hi
      rw [exec, execSrst, Host.Outcome.next.injEq] at h
      simp [← h]
    · have hs : isSrst i = false := by
        rw [← Bool.not_eq_true, isSrst_iff]
        rintro ⟨d, rfl⟩
        exact hne d rfl
      exact exec_cmdcnt (s := { s with inbox := rest }) hs h

/-! ### The record -/

/-- While faulted no command but `SRST` leaves the faulted state or changes its record (R280, R281). -/
theorem exec_keeps_record (hf : s.faulted = true) (hs : isSrst i = false) (h : exec i s = .next t) :
    t.faulted = s.faulted ∧ t.fcode = s.fcode ∧ t.finfo = s.finfo ∧ t.fdata = s.fdata := by
  rcases exec_cases h with ⟨hs', -⟩ | ⟨-, -, -, rfl⟩ | ⟨-, sel, d, -, rfl⟩ | ⟨hf', -⟩ | ⟨hf', -⟩
  · simp [hs] at hs'
  · exact ⟨rfl, rfl, rfl, rfl⟩
  · exact ⟨rfl, rfl, rfl, rfl⟩
  · simp [hf] at hf'
  · simp [hf] at hf'

/-- Settles O11, by what a step can do: a faulted block discards all but `RD`, which writes `OUT`, and the resets. -/
theorem onlyResetLeavesTheFaultedState : Obligations.OnlyResetLeavesTheFaultedState := by
  intro s t hf h
  rcases step_cases h with ⟨-, rfl⟩ | ⟨rest, hb, -⟩ | ⟨cmd, data, rest, i, hb, hd, h⟩ | ⟨cmd, data, rest, e, -, -, rfl⟩
  · exact .inl ⟨hf, rfl, rfl, rfl⟩
  · exact .inr (.inl ⟨rest, hb⟩)
  · cases hs : isSrst i with
    | true =>
      obtain ⟨d, rfl⟩ := isSrst_iff.mp hs
      exact .inr (.inr ⟨cmd, data, rest, d, hb, hd⟩)
    | false =>
      obtain ⟨hfaulted, hrecord⟩ := exec_keeps_record (s := { s with inbox := rest }) hf hs h
      exact .inl ⟨hfaulted.trans hf, hrecord⟩
  · rw [illegalCommand_faulted (s := { s with inbox := rest }) cmd data hf]
    exact .inl ⟨hf, rfl, rfl, rfl⟩

/-! ### The parameters -/

theorem exec_params (h : exec i s = .next t) : t.params = s.params := by
  rcases exec_cases h with ⟨-, rfl⟩ | ⟨-, -, -, rfl⟩ | ⟨-, sel, d, -, rfl⟩ | ⟨-, -, u, hu, rfl⟩ | ⟨-, -, c, -, rfl⟩
  · rfl
  · rfl
  · rfl
  · obtain ⟨-, -, -, -, -, hparams, -⟩ := ruleOf_keeps hu
    exact hparams
  · rfl

theorem step_params (h : step s = .next t) : t.params = s.params := by
  rcases step_cases h with ⟨-, rfl⟩ | ⟨rest, -, rfl⟩ | ⟨cmd, data, rest, i, -, -, h⟩ | ⟨cmd, data, rest, e, -, -, rfl⟩
  · rfl
  · rfl
  · exact exec_params (s := { s with inbox := rest }) h
  · exact (illegalCommand_keeps _ cmd data).2.2

/-- `RD` gives the register in every state, faulted or not (R122). -/
theorem execRd_out (s : State) (sel : Reg) (d : Word) : ∃ t, exec (.rd sel d) s = .next t ∧ t.out = readReg s sel := by
  cases hf : s.faulted with
  | true => exact ⟨{ s with out := readReg s sel }, by simp [exec, execRd, hf], rfl⟩
  | false => exact ⟨complete { s with out := readReg s sel }, by simp [exec, execRd, hf], rfl⟩

/-- Settles O12: no update of the state writes the parameters, and `RD` gives the four registers that hold them. -/
theorem parametersNeverChange : Obligations.ParametersNeverChange :=
  ⟨fun _ _ => step_params,
    fun s d => ⟨execRd_out s .bufBytes d, execRd_out s .ctEntries d, execRd_out s .treeNodes d, execRd_out s .meEps d⟩⟩

end Sys2Proof.Machine
end

section
/-! PROOFS. The frame of every command: what the writers listed in spec/10_state.md R20, R34 to R36 leave unchanged. -/

namespace Sys2Proof.Machine

variable {i : Instr} {s t u : State}

/-! ### Registers that are written one at a time -/

/-- Store a value in one of the registers `x[0]` to `x[11]`, the ones that commands are listed as writers of (R20). -/
def writeReg (s : State) : Reg → Word → State
  | .orig, v => { s with orig := v }
  | .pred, v => { s with pred := v }
  | .res, v => { s with res := v }
  | .sym, v => { s with sym := v }
  | .apx, v => { s with apx := v }
  | .recn, v => { s with recn := v }
  | .maxerr, v => { s with maxerr := v }
  | .out, v => { s with out := v }
  | .wptr, v => { s with wptr := v }
  | .rptr, v => { s with rptr := v }
  | .rlim, v => { s with rlim := v }
  | .ctn, v => { s with ctn := v }
  | .status, _ | .finfo, _ | .fdata, _ | .cmdcnt, _ => s
  | .bufBytes, _ | .ctEntries, _ | .treeNodes, _ | .meEps, _ => s

/-- A write of one register shows in no other one, but that `STATUS` shows the `WARN` of `MAXERR` (R30, R33). -/
theorem readReg_writeReg_ne {q r : Reg} (v : Word) (hne : r ≠ q) (hs : r = .status → q ≠ .maxerr) :
    readReg (writeReg s q v) r = readReg s r := by
  -- Each write against each read: the two premises exclude the register itself, and `STATUS` after `MAXERR`.
  cases q <;> cases r <;> simp [writeReg, readReg, statusWord, warn] at hne hs ⊢

/-- The listed registers of `s`, each set to what it is in `u`. -/
def takeRegs (u s : State) (regs : List Reg) : State := regs.foldl (fun t r => writeReg t r (readReg u r)) s

theorem readReg_takeRegs {regs : List Reg} {r : Reg} (hr : r ∉ regs) (hs : r = .status → .maxerr ∉ regs) :
    readReg (takeRegs u s regs) r = readReg s r := by
  induction regs generalizing s with
  | nil => rfl
  | cons q rest ih =>
    simp only [List.mem_cons, not_or] at hr hs
    calc readReg (takeRegs u (writeReg s q (readReg u q)) rest) r
        = readReg (writeReg s q (readReg u q)) r := ih hr.2 fun h => (hs h).2
      _ = readReg s r := readReg_writeReg_ne _ hr.1 fun h => Ne.symm (hs h).1

/-- The three memories show in no register. -/
theorem readReg_withMemories (s : State) (b : Memory) (c : List (Nat × CtEntry)) (n : List (Nat × Node)) (r : Reg) :
    readReg { s with buf := b, ct := c, tree := n } r = readReg s r := by
  cases r <;> rfl

theorem readReg_complete {r : Reg} (h : r ≠ .cmdcnt) : readReg (complete s) r = readReg s r := by
  cases r
  case cmdcnt => exact absurd rfl h
  all_goals rfl

/-! ### What a rule writes -/

/-- `s` with nothing taken from `u` but the registers and the memories that `w` lists. -/
def takeListed (w : List Reg × (Bool × Bool × Bool)) (u s : State) : State :=
  { takeRegs u s w.1 with
    buf := if w.2.1 then u.buf else s.buf
    ct := if w.2.2.1 then u.ct else s.ct
    tree := if w.2.2.2 then u.tree else s.tree }

/-- The rule of a command writes only what the command is listed as a writer of. -/
theorem ruleOf_takesListed (h : ruleOf i s = .ok u) : u = takeListed (writes i) u s := by
  cases i <;> simp only [ruleOf, Except.ok.injEq] at h
  case quant => obtain ⟨q, -, rfl⟩ := quantRule_ok h; rfl
  case setwp => obtain ⟨-, rfl⟩ := setwpRule_ok h; rfl
  case setrp => obtain ⟨-, rfl⟩ := setrpRule_ok h; rfl
  case setrl => obtain ⟨-, rfl⟩ := setrlRule_ok h; rfl
  case putbits => obtain ⟨-, rfl⟩ := putbitsRule_ok h; rfl
  case getbits => obtain ⟨-, rfl⟩ := getbitsRule_ok h; rfl
  case stb => obtain ⟨-, rfl⟩ := stbRule_ok h; rfl
  case ldb => obtain ⟨-, rfl⟩ := ldbRule_ok h; rfl
  case ctset => obtain ⟨j, e, -, rfl⟩ | ⟨j, -, -, rfl⟩ := ctsetRule_ok h <;> rfl
  case ctrd => obtain ⟨-, rfl⟩ := ctrdRule_ok h; rfl
  case tleaf | tint => obtain ⟨-, rfl⟩ := putNodeRule_ok h; rfl
  case trd => obtain ⟨-, rfl⟩ := trdRule_ok h; rfl
  case cgen => obtain ⟨rows, -, rfl⟩ := cgenRule_ok h; rfl
  case enc => obtain ⟨-, j, e, -, -, rfl⟩ := encRule_ok h; rfl
  case dec => obtain ⟨y, p, -, rfl⟩ := decRule_ok h; rfl
  case tser => obtain ⟨bits, -, rfl⟩ := tserRule_ok h; rfl
  case tdes => obtain ⟨k, -, rfl⟩ := tdesRule_ok h; rfl
  all_goals (subst h; rfl)

theorem ruleOf_reg_frame (h : ruleOf i s = .ok u) {r : Reg} (hr : r ∉ (writes i).1)
    (hs : r = .status → .maxerr ∉ (writes i).1) : readReg u r = readReg s r := by
  rw [ruleOf_takesListed h, takeListed, readReg_withMemories, readReg_takeRegs hr hs]

theorem ruleOf_memory_frame (h : ruleOf i s = .ok u) :
    ((writes i).2.1 = false → u.buf = s.buf) ∧ ((writes i).2.2.1 = false → u.ct = s.ct) ∧
      ((writes i).2.2.2 = false → u.tree = s.tree) := by
  rw [ruleOf_takesListed h]
  simp +contextual [takeListed]

/-- Settles O15, by what a command that does not fault can do: it is discarded, or its rule writes what is listed. -/
theorem onlyListedCommandsWrite : Obligations.OnlyListedCommandsWrite := by
  intro i s t hne h hf
  rcases exec_cases h with ⟨hs, -⟩ | ⟨-, -, -, rfl⟩ | ⟨-, sel, d, rfl, rfl⟩ | ⟨-, -, u, hu, rfl⟩ | ⟨hf', -, c, -, rfl⟩
  · obtain ⟨d, rfl⟩ := isSrst_iff.mp hs
    exact absurd rfl (hne d)
  · simp
  · have hu : ruleOf (.rd sel d) s = .ok { s with out := readReg s sel } := rfl
    exact ⟨fun r hr _ hst => ruleOf_reg_frame hu hr hst, by simp⟩
  · obtain ⟨hb, hc, hn⟩ := ruleOf_memory_frame hu
    obtain ⟨-, hfcode, -, -, -, -, hinbox⟩ := ruleOf_keeps hu
    refine ⟨fun r hr hcnt hst => ?_, hb, hc, hn, hfcode, hinbox⟩
    rw [readReg_complete hcnt, ruleOf_reg_frame hu hr hst]
  · simp [hf'] at hf

end Sys2Proof.Machine
end

section
/-! PROOFS. The order of binary32 magnitudes (spec/41_residual_and_quantizer.md R140, R147). -/

namespace Sys2Proof.Machine

theorem magUnits_lt_of_fexp (w : Word) : magUnits w < 2 ^ 23 * 2 ^ fexp w := by
  have hf := ffrac_lt w
  unfold magUnits
  split
  · next h0 => simpa [h0] using hf
  · next h0 =>
    calc (2 ^ 23 + ffrac w) * 2 ^ (fexp w - 1) < 2 ^ 23 * 2 * 2 ^ (fexp w - 1) :=
          Nat.mul_lt_mul_of_pos_right (by omega) (by positivity)
      _ = 2 ^ 23 * 2 ^ fexp w := by
          rw [Nat.mul_assoc, ← Nat.pow_succ', Nat.succ_eq_add_one, Nat.sub_add_cancel (by omega)]

theorem le_magUnits_of_fexp {w : Word} (h : fexp w ≠ 0) : 2 ^ 23 * 2 ^ (fexp w - 1) ≤ magUnits w := by
  rw [magUnits, if_neg h]
  exact Nat.mul_le_mul_right _ (Nat.le_add_right ..)

/-- Patterns without their sign bit count upwards with their magnitudes: first by exponent, then by fraction. -/
theorem magUnits_lt_of_fields_lt {a b : Word} (h : fexp a * 2 ^ 23 + ffrac a < fexp b * 2 ^ 23 + ffrac b) :
    magUnits a < magUnits b := by
  have ha := ffrac_lt a
  have hb := ffrac_lt b
  rcases Nat.lt_trichotomy (fexp a) (fexp b) with hlt | heq | hgt
  · calc magUnits a < 2 ^ 23 * 2 ^ fexp a := magUnits_lt_of_fexp a
      _ ≤ 2 ^ 23 * 2 ^ (fexp b - 1) := Nat.mul_le_mul_left _ (Nat.pow_le_pow_right (by omega) (by omega))
      _ ≤ magUnits b := le_magUnits_of_fexp (by omega)
  · have hfrac : ffrac a < ffrac b := by omega
    unfold magUnits
    rw [heq]
    split
    · exact hfrac
    · exact Nat.mul_lt_mul_of_pos_right (by omega) (by positivity)
  · omega

theorem magUnits_lt_iff {a b : Word} (ha : a.toNat < 2 ^ 31) (hb : b.toNat < 2 ^ 31) :
    magUnits a < magUnits b ↔ a.toNat < b.toNat := by
  have key : ∀ {a b : Word}, a.toNat < 2 ^ 31 → b.toNat < 2 ^ 31 → a.toNat < b.toNat → magUnits a < magUnits b := by
    intro a b ha hb h
    apply magUnits_lt_of_fields_lt
    rw [fexp_eq, ffrac_eq, fexp_eq, ffrac_eq]
    omega
  refine ⟨fun h => ?_, key ha hb⟩
  rcases Nat.lt_trichotomy a.toNat b.toNat with hlt | heq | hgt
  · exact hlt
  · rw [BitVec.eq_of_toNat_eq heq] at h; omega
  · have := key hb ha hgt; omega

/-- A pattern without sign is a NaN when it lies above the infinity's (R147). -/
theorem isNan32_iff {w : Word} (h : w.toNat < 2 ^ 31) : isNan32 w = true ↔ 0x7F800000 < w.toNat := by
  simp only [isNan32, Bool.and_eq_true, beq_iff_eq, bne_iff_ne, fexp_eq, ffrac_eq]
  omega

theorem valUnits_of_unsigned {w : Word} (h : w.toNat < 2 ^ 31) : valUnits w = magUnits w := by
  rw [valUnits, fsign_eq, if_neg (by simpa using h)]

end Sys2Proof.Machine
end

section
/-! PROOFS. `STATUS` with its flag `WARN`, and the bytes of `BUF` never written (spec/10_state.md R30, R33, R38). -/

namespace Sys2Proof.Machine

/-! ### `STATUS` -/

theorem fabs32_lt (w : Word) : (fabs32 w).toNat < 2 ^ 31 := by
  rw [fabs32, BitVec.toNat_and]
  exact Nat.and_lt_two_pow _ (by decide)

/-- Settles O17: neither operand compared has a sign, `ME_EPS` is finite, and a NaN lies above it as a pattern. -/
theorem warnExactlyBelowTheThreshold : Obligations.WarnExactlyBelowTheThreshold := by
  intro s hp
  simp only [Config.Params.wf, Bool.and_eq_true, decide_eq_true_eq] at hp
  obtain ⟨-, -, heps⟩ := hp
  have ha := fabs32_lt s.maxerr
  have hb : s.params.meEps.toNat < 2 ^ 31 := by omega
  have hnan : isNan32 s.params.meEps = false := by
    rw [← Bool.not_eq_true, isNan32_iff hb]
    omega
  have hcmp : warn s = true ↔
      ¬ isNan32 (fabs32 s.maxerr) = true ∧ magUnits (fabs32 s.maxerr) < magUnits s.params.meEps := by
    simp [warn, flt32, hnan, valUnits_of_unsigned ha, valUnits_of_unsigned hb]
  rw [hcmp, isNan32_iff ha, magUnits_lt_iff ha hb, fabs32]
  omega

/-- Every bit of `STATUS`, from the parts that the word is put together of (R30). -/
theorem getLsbD_statusWord (s : State) (k : Nat) :
    (statusWord s).getLsbD k =
      if k = 0 then s.faulted else if k = 1 then warn s else if k < 4 then false else s.fcode.getLsbD (k - 4) := by
  change (0#24 ++ s.fcode ++ 0#2 ++ BitVec.ofBool (warn s) ++ BitVec.ofBool s.faulted :
    BitVec (24 + 4 + 2 + 1 + 1)).getLsbD k = _
  simp only [BitVec.getLsbD_append]
  match k with
  | 0 | 1 | 2 | 3 => simp
  | k + 4 => simpa using fun h => BitVec.lt_of_getLsbD h

/-- Settles O16, by the bits of the word. -/
theorem statusWordLayout : Obligations.StatusWordLayout := by
  intro s
  have hfaulted : (statusWord s).getLsbD 0 = s.faulted := getLsbD_statusWord s 0
  have hwarn : (statusWord s).getLsbD 1 = warn s := getLsbD_statusWord s 1
  have hupper : ∀ k, (statusWord s).getLsbD (4 + k) = s.fcode.getLsbD k := fun k => by
    rw [getLsbD_statusWord, if_neg (by omega), if_neg (by omega), if_neg (by omega), Nat.add_sub_cancel_left]
  refine ⟨hfaulted, hwarn, fun k _ => hupper k, ?_, hfaulted, hwarn⟩
  rintro k (rfl | rfl | hk)
  · exact getLsbD_statusWord s 2
  · exact getLsbD_statusWord s 3
  · obtain ⟨j, rfl⟩ := Nat.exists_eq_add_of_le (show 4 ≤ k by omega)
    rw [hupper, BitVec.getLsbD_of_ge _ _ (by omega)]

/-! ### Bytes never written -/

/-- Settles O37: such a byte is in no cell of `BUF`, and a reset leaves the cells of `BUF` as they are. -/
theorem unwrittenBytesKeepTheirPowerOnValue : Obligations.UnwrittenBytesKeepTheirPowerOnValue := by
  refine ⟨fun s addr hf ha hn => ?_, fun s t d h => ?_, fun s t rest hb h => ?_⟩
  · have hr : ruleOf (.ldb addr) s = .ok { s with out := (Config.powerOnByte addr.toNat).setWidth 32 } := by
      rw [ruleOf, ldbRule, if_neg (by simpa [bufBytes] using ha), byteAt_unwritten hn]
    exact exec_ok rfl hf hr
  · rw [exec, execSrst, Host.Outcome.next.injEq] at h
    rw [← h, resetBlock_buf]
  · rw [step_reset hb, Host.Outcome.next.injEq] at h
    rw [← h, resetBlock_buf]

end Sys2Proof.Machine
end

section
/-! PROOFS. What a run of bits written to `BUF` leaves in memory (spec/20_memory.md R65, R66). -/

namespace Sys2Proof.Machine

/-- Every run of bits written, whichever command writes it, leaves memory as R65 and R66 say. -/
theorem wroteBits_writeBits (m : Memory) (p : Nat) (bits : List Bool) : wroteBits m (writeBits m p bits) p bits := by
  refine ⟨?empty, ?written, ?below, ?above, ?otherBytes⟩
  case empty => rintro rfl; rfl
  case written => exact bitAt_writeBits_inside m p bits
  case below => exact fun _ hq => bitAt_writeBits_below m p bits hq
  case above => exact fun hne _ hq hbyte => bitAt_writeBits_pad m p bits hne hq hbyte
  case otherBytes => exact fun _ ha => byteAt_writeBits_outside m p bits ha

/-- Settles O33: `BitWrite` writes the run of the word's low bits. -/
theorem bitWriteKeepsBelowAndClearsAbove : Obligations.BitWriteKeepsBelowAndClearsAbove :=
  fun m p n v _ => wroteBits_writeBits m p (bitsOf n v)

end Sys2Proof.Machine
end

section
/-! PROOFS. The decoder and the encoder against the opcode map (spec/30_encoding.md R92, R93, R98). -/

namespace Sys2Proof

variable {i : Instr} {cmd data : Word} {row : OpcodeRow} {f : Byte} {idx : Half}

/-! ### The rows of the opcode map, field by field -/

/-- A mask covers `op`, and each of the fields `f` and `idx` as a whole or not at all; a pattern has `op` alone (R92). -/
theorem opcodeTable_fields : ∀ row ∈ opcodeTable,
    row.mask = cmdWord 0xFF#8 (fField row.mask) (idxField row.mask) ∧
      (fField row.mask = 0#8 ∨ fField row.mask = 0xFF#8) ∧
      (idxField row.mask = 0#16 ∨ idxField row.mask = 0xFFFF#16) ∧
      row.pattern = cmdWord (opField row.pattern) 0#8 0#16 := by decide

/-- A word lies under a row's mask when it has the row's `op`, and 0 in each field that the mask covers. -/
theorem masked_iff (h : row ∈ opcodeTable) (cmd : Word) :
    cmd &&& row.mask = row.pattern ↔
      opField cmd = opField row.pattern ∧ (fField row.mask ≠ 0#8 → fField cmd = 0#8) ∧
        (idxField row.mask ≠ 0#16 → idxField cmd = 0#16) := by
  obtain ⟨hmask, hf, hidx, hpattern⟩ := opcodeTable_fields row h
  have byte (x : Byte) : x &&& 0xFF#8 = x := BitVec.and_allOnes
  have half (x : Half) : x &&& 0xFFFF#16 = x := BitVec.and_allOnes
  conv_lhs => rw [← cmdWord_fields cmd, hmask, hpattern, cmdWord_and, cmdWord_inj, byte]
  refine and_congr Iff.rfl (and_congr ?_ ?_)
  · rcases hf with hf | hf <;> simp [hf, byte]
  · rcases hidx with hidx | hidx <;> simp [hidx, half]

/-! ### `decode` and `encode` undo each other -/

/-- The converse of `decode_ok`: a word under a row's mask whose operands are in range decodes. -/
theorem decode_of_row (h : row ∈ opcodeTable) (hm : cmd &&& row.mask = row.pattern)
    (ho : operandsOf row.mnemonic (fField cmd) (idxField cmd) data = some i) (hw : i.wellFormed = true) :
    decode cmd data = .ok i := by
  rw [decode_row h ((masked_iff h cmd).1 hm).1.symm]
  simp [hm, ho, hw]

/-- The opcode map spells every command: the laws of Laws/PerInstr.lean together. -/
theorem spells (i : Instr) : Laws.Spells.Statement i := by
  cases i
  case nop => exact Laws.Spells.nop _
  case srst => exact Laws.Spells.srst _
  case rd => exact Laws.Spells.rd _ _
  case setme => exact Laws.Spells.setme _
  case setorig => exact Laws.Spells.setorig _
  case setpred => exact Laws.Spells.setpred _
  case setsym => exact Laws.Spells.setsym _
  case resid => exact Laws.Spells.resid _
  case quant => exact Laws.Spells.quant _
  case dequant => exact Laws.Spells.dequant _
  case recon => exact Laws.Spells.recon _
  case setwp => exact Laws.Spells.setwp _
  case setrp => exact Laws.Spells.setrp _
  case setrl => exact Laws.Spells.setrl _
  case putbits => exact Laws.Spells.putbits _ _
  case getbits => exact Laws.Spells.getbits _ _
  case stb => exact Laws.Spells.stb _ _
  case ldb => exact Laws.Spells.ldb _
  case ctclr => exact Laws.Spells.ctclr _
  case ctset => exact Laws.Spells.ctset _ _
  case ctrd => exact Laws.Spells.ctrd _ _ _
  case tclr => exact Laws.Spells.tclr _
  case tleaf => exact Laws.Spells.tleaf _ _
  case tint => exact Laws.Spells.tint _ _ _
  case trd => exact Laws.Spells.trd _ _ _
  case cgen => exact Laws.Spells.cgen _
  case enc => exact Laws.Spells.enc _
  case dec => exact Laws.Spells.dec _
  case tser => exact Laws.Spells.tser _
  case tdes => exact Laws.Spells.tdes _

/-- Settles O1: the row that spells a command decodes its encoding. -/
theorem decodeInvertsEncode : Obligations.DecodeInvertsEncode := by
  intro i hw
  obtain ⟨row, hrow, hm, ho⟩ := spells i
  exact decode_of_row hrow hm ho hw

/-- A command is encoded as the fields and the `DATA` that its operands were read from, where the fields that the row's mask
covers are 0. -/
theorem encode_of_operandsOf (hrow : row ∈ opcodeTable) (hf : fField row.mask ≠ 0#8 → f = 0#8)
    (hidx : idxField row.mask ≠ 0#16 → idx = 0#16) (h : operandsOf row.mnemonic f idx data = some i) :
    encode i = (cmdWord (opField row.pattern) f idx, data) := by
  obtain ⟨m, mask, pattern⟩ := row
  cases m
  -- The mnemonic names the row, so that which fields are covered is known in each case.
  all_goals
    obtain ⟨rfl, rfl⟩ : mask = _ ∧ pattern = _ := by
      simpa [opcodeTable, scalarRows, bitstreamRows, treeRows] using hrow
    simp [fField, idxField] at hf hidx
  case rd =>
    obtain ⟨sel, hsel, rfl⟩ := Option.map_eq_some_iff.1 h
    simp [encode, regNumber_of_regOfNumber hsel, hf, opField]
  case ctrd =>
    obtain ⟨field, hfield, rfl⟩ := Option.map_eq_some_iff.1 h
    simp [encode, ctFieldNumber_of_ctFieldOfNumber hfield, opField]
  case trd =>
    obtain ⟨field, hfield, rfl⟩ := Option.map_eq_some_iff.1 h
    simp [encode, treeFieldNumber_of_treeFieldOfNumber hfield, opField]
  case tint =>
    obtain rfl := Option.some.inj h
    simp [encode, append_halves, hf, opField]
  all_goals
    obtain rfl := Option.some.inj h
    simp [encode, opField, *]

/-- Settles O2: the fields of the `CMD` word are those of its row's encoding, used or 0. -/
theorem encodeInvertsDecode : Obligations.EncodeInvertsDecode := by
  intro cmd data i h
  obtain ⟨row, hrow, -, hm, ho, -⟩ := decode_ok h
  obtain ⟨hop, hf, hidx⟩ := (masked_iff hrow cmd).1 hm
  rw [encode_of_operandsOf hrow hf hidx ho, ← hop, cmdWord_fields]

/-- Settles O4, by the table: every word is given with its `op`, its operands and its `DATA`. -/
theorem spelledWordsDecode : Obligations.SpelledWordsDecode := by
  unfold Obligations.SpelledWordsDecode
  decide

end Sys2Proof
end

section
/-! PROOFS. What raises `IllegalCommand`, and what does not (spec/30_encoding.md R93, spec/60_exceptions.md R271, R273). -/

namespace Sys2Proof.Machine

variable {i : Instr} {s t : State} {cmd data : Word} {row : OpcodeRow}

/-! ### The conditions (a), (b), (c) of R93 and the decoder -/

/-- Condition (a): the assigned values of `op` are those of the rows. -/
theorem assignedOps_eq_map_op : assignedOps = opcodeTable.map fun row => (opField row.pattern).toNat := by decide

/-- Condition (b): the fields that a row's mask covers, by `op`. -/
theorem covers_iff : ∀ row ∈ opcodeTable,
    (fField row.mask ≠ 0#8 ↔ (opField row.pattern).toNat ∉ [0x23, 0x24, 0x25, 0x31, 0x32, 0x36]) ∧
    (idxField row.mask ≠ 0#16 ↔ (opField row.pattern).toNat ∉ [0x02, 0x32, 0x34, 0x35, 0x36]) := by decide

/-- Condition (c): the commands whose live fields have a range, by `op`. -/
theorem ranged_iff : ∀ row ∈ opcodeTable,
    ((opField row.pattern).toNat = 0x02 ↔ row.mnemonic = .rd) ∧
    ((opField row.pattern).toNat = 0x23 ∨ (opField row.pattern).toNat = 0x24 ↔
      row.mnemonic = .putbits ∨ row.mnemonic = .getbits) ∧
    ((opField row.pattern).toNat = 0x31 ↔ row.mnemonic = .ctset) ∧
    ((opField row.pattern).toNat = 0x32 ∨ (opField row.pattern).toNat = 0x36 ↔
      row.mnemonic = .ctrd ∨ row.mnemonic = .trd) := by decide

/-- The bits of a word at and above `n` are 0 when it is below `2 ^ n`. -/
theorem ushiftRight_eq_zero_iff (data : Word) (n : Nat) : data >>> n = 0#32 ↔ data.toNat < 2 ^ n := by
  rw [← BitVec.toNat_inj, BitVec.toNat_ushiftRight, Nat.shiftRight_eq_div_pow, BitVec.toNat_ofNat, Nat.zero_mod,
    Nat.div_eq_zero_iff_lt (Nat.two_pow_pos n)]

/-- The range of `CTSET`'s length and code, in R93's words. -/
theorem wellFormedCode_iff (f : Byte) (data : Word) :
    wellFormedCode f data = true ↔
      ¬ (f.toNat = 0 ∨ 32 < f.toNat) ∧ ¬ (f.toNat < 32 ∧ data >>> f.toNat ≠ 0#32) := by
  have hfull : f.toNat = 32 → data.toNat < 2 ^ f.toNat := fun h => by rw [h]; exact data.isLt
  simp only [wellFormedCode, Bool.and_eq_true, decide_eq_true_eq, ne_eq, ushiftRight_eq_zero_iff]
  omega

/-- The range checks of a mnemonic's live fields, in R93's words. -/
theorem operandsOf_wellFormed_iff (m : Mnemonic) (f : Byte) (idx : Half) (data : Word) :
    (∃ i, operandsOf m f idx data = some i ∧ i.wellFormed = true) ↔
      ¬ (m = .rd ∧ 19 < idx.toNat) ∧
      ¬ ((m = .putbits ∨ m = .getbits) ∧ 32 < f.toNat) ∧
      ¬ (m = .ctset ∧ (f.toNat = 0 ∨ 32 < f.toNat)) ∧
      ¬ (m = .ctset ∧ f.toNat < 32 ∧ data >>> f.toNat ≠ 0#32) ∧
      ¬ ((m = .ctrd ∨ m = .trd) ∧ 2 < f.toNat) := by
  cases m
  case rd => simp [operandsOf, Instr.wellFormed, ← Option.ne_none_iff_exists', regOfNumber_none]
  case ctrd => simp [operandsOf, Instr.wellFormed, ← Option.ne_none_iff_exists', ctFieldOfNumber_none]
  case trd => simp [operandsOf, Instr.wellFormed, ← Option.ne_none_iff_exists', treeFieldOfNumber_none]
  case ctset => simpa [operandsOf, Instr.wellFormed] using wellFormedCode_iff f data
  case putbits => simp [operandsOf, Instr.wellFormed, wellFormedCount]
  case getbits => simp [operandsOf, Instr.wellFormed, wellFormedCount]
  all_goals simp [operandsOf, Instr.wellFormed]

/-- A pair decodes when a row has its `op`, the fields that the row's mask covers are 0 and the operands are in range. -/
theorem decodes_iff_row (cmd data : Word) :
    (∃ i, decode cmd data = .ok i) ↔
      ∃ row ∈ opcodeTable, cmd &&& row.mask = row.pattern ∧
        ∃ i, operandsOf row.mnemonic (fField cmd) (idxField cmd) data = some i ∧ i.wellFormed = true := by
  constructor
  · rintro ⟨i, h⟩
    obtain ⟨row, hrow, -, hm, ho, hw⟩ := decode_ok h
    exact ⟨row, hrow, hm, i, ho, hw⟩
  · rintro ⟨row, hrow, hm, i, ho, hw⟩
    exact ⟨i, decode_of_row hrow hm ho hw⟩

/-- For a word with a row's `op`, (b) and (c) are what is left of R93's conditions. -/
theorem not_spellsNothing_iff_row (hrow : row ∈ opcodeTable) (hop : opField cmd = opField row.pattern) :
    ¬ spellsNothing cmd data ↔ cmd &&& row.mask = row.pattern ∧
      ∃ i, operandsOf row.mnemonic (fField cmd) (idxField cmd) data = some i ∧ i.wellFormed = true := by
  obtain ⟨hf, hidx⟩ := covers_iff row hrow
  obtain ⟨hrd, hbits, hctset, hfield⟩ := ranged_iff row hrow
  have hassigned : (opField row.pattern).toNat ∈ assignedOps := by
    rw [assignedOps_eq_map_op]; exact List.mem_map_of_mem hrow
  have hf0 : (fField cmd).toNat = 0 ↔ fField cmd = 0#8 := BitVec.toNat_inj (y := 0#8)
  have hidx0 : (idxField cmd).toNat = 0 ↔ idxField cmd = 0#16 := BitVec.toNat_inj (y := 0#16)
  rw [masked_iff hrow, operandsOf_wellFormed_iff, hf, hidx, ← hrd, ← hbits, ← hctset, ← hfield, ← hf0, ← hidx0]
  simp only [hop, hassigned, not_true, not_false_eq_true, true_and, not_or, not_and', not_not, and_assoc, ne_eq]

/-- R93: a pair decodes exactly when none of the conditions (a), (b), (c) holds. -/
theorem decodes_iff_not_spellsNothing (cmd data : Word) :
    (∃ i, decode cmd data = .ok i) ↔ ¬ spellsNothing cmd data := by
  rw [decodes_iff_row]
  constructor
  · rintro ⟨row, hrow, hm⟩
    exact (not_spellsNothing_iff_row hrow ((masked_iff hrow cmd).1 hm.1).1).2 hm
  · intro h
    have hassigned : (opField cmd).toNat ∈ assignedOps := not_not.1 fun hn => h (.inl hn)
    rw [assignedOps_eq_map_op] at hassigned
    obtain ⟨row, hrow, hop⟩ := List.mem_map.1 hassigned
    exact ⟨row, hrow, (not_spellsNothing_iff_row hrow (BitVec.eq_of_toNat_eq hop.symm)).1 h⟩

/-- A pair that meets a condition of R93 does not decode. -/
theorem decode_error_of_spellsNothing (h : spellsNothing cmd data) : ∃ e, decode cmd data = .error e := by
  cases hd : decode cmd data with
  | ok i => exact absurd h ((decodes_iff_not_spellsNothing cmd data).1 ⟨i, hd⟩)
  | error e => exact ⟨e, rfl⟩

/-! ### The causes of a command that decodes -/

/-- Only `IllegalCommand` has code 1 (R270). -/
theorem causeCode_eq_one_iff (c : Cause) : causeCode c = 1#4 ↔ c = .illegalCommand := by cases c <;> decide

/-- A command that decodes never records `IllegalCommand` (R271): its rule does not raise it. -/
theorem exec_fcode_ne_one (hf : s.faulted = false) (h : exec i s = .next t) (ht : t.faulted = true) : t.fcode ≠ 1#4 := by
  rcases exec_cases h with ⟨-, rfl⟩ | ⟨hs, -⟩ | ⟨hs, -⟩ | ⟨-, -, u, hr, rfl⟩ | ⟨-, -, c, hr, rfl⟩
  · simp at ht
  · simp [hf] at hs
  · simp [hf] at hs
  · obtain ⟨hu, -⟩ := ruleOf_keeps hr
    simp [hu, hf] at ht
  · rw [raiseFault_fcode, ne_eq, causeCode_eq_one_iff]
    rintro rfl
    exact ruleOf_not_illegal hr

/-- A command whose rule raises `CapacityExceeded` records it and its own pair (20_memory.md R71, 60_exceptions.md R279). -/
theorem exec_capacityExceeded (hs : isSrst i = false) (hf : s.faulted = false)
    (hr : ruleOf i s = .error .capacityExceeded) : exec i s = .next (withFault s 3#4 i) :=
  exec_error hs hf hr

/-- Settles O3: the decoder's checks are R93's conditions, an index beyond its structure is the rule's own fault, and no rule
raises the decoder's cause. -/
theorem illegalCommandExactlyOnWrongFields : Obligations.IllegalCommandExactlyOnWrongFields := by
  refine ⟨fun s cmd data rest hb hf => ⟨fun h => ?illegal, fun h => ?decodes⟩,
    fun s idx d l r cf tf hf => ⟨fun hidx => ?tree, fun hidx => ?table⟩,
    fun i s t hf h ht => exec_fcode_ne_one hf h ht⟩
  case illegal =>
    obtain ⟨e, hd⟩ := decode_error_of_spellsNothing h
    exact (rejected_of_error hd s rest hb).1 hf
  case decodes =>
    obtain ⟨i, hd⟩ := (decodes_iff_not_spellsNothing cmd data).2 h
    exact ⟨i, hd, step_decoded hb hd⟩
  case tree =>
    exact ⟨exec_capacityExceeded rfl hf (if_pos hidx), exec_capacityExceeded rfl hf (if_pos hidx),
      exec_capacityExceeded rfl hf (if_pos hidx)⟩
  case table => exact exec_capacityExceeded rfl hf (if_pos hidx)

end Sys2Proof.Machine
end

section
/-! PROOFS. Commands whose `CMD` word has no live field: how they are spelled (spec/30_encoding.md R92, R93). -/

namespace Sys2Proof.Machine

/-- A row whose mask covers the whole word spells its command by its pattern alone: any other word with its `op` fails the
mask (R93 (b)). -/
theorem spelledBy_of_row (m : Mnemonic) {cmd : Word} {make : Word → Instr}
    (hrow : ⟨m, 0xFFFFFFFF#32, cmd⟩ ∈ opcodeTable)
    (ho : ∀ f idx data, operandsOf m f idx data = some (make data)) (hw : ∀ data, (make data).wellFormed = true) :
    spelledBy cmd make := by
  refine ⟨fun data => ?decodes, fun cmd' data hop hne => ?rejects⟩
  case decodes => exact decode_of_row hrow BitVec.and_allOnes (ho _ _ data) (hw data)
  case rejects =>
    have hmask : cmd' &&& 0xFFFFFFFF#32 ≠ cmd := by rwa [show cmd' &&& 0xFFFFFFFF#32 = cmd' from BitVec.and_allOnes]
    have hd : decode cmd' data = .error .unusedFieldNonZero := by
      rw [decode_row hrow hop.symm]
      exact if_pos hmask
    exact rejected_of_error hd

end Sys2Proof.Machine
end

section
/-! PROOFS. Control and operand loads (spec/40_control_and_data_movement.md R120 to R126). -/

namespace Sys2Proof.Machine

/-! ### `NOP` -/

/-- Settles O18: the rule of `NOP` writes nothing, so that it completes with the state it starts from. -/
theorem nopOnlyCounts : Obligations.NopOnlyCounts :=
  ⟨spelledBy_of_row .nop (by decide) (fun _ _ _ => rfl) fun _ => rfl,
    fun _ _ hf => exec_ok rfl hf rfl, fun _ _ hf => exec_faulted rfl rfl hf⟩

/-! ### `SRST` -/

/-- After a reset `MAXERR` is 0, which lies below any `ME_EPS` that R8 allows (R33). -/
theorem warn_resetBlock {s : State} (hp : s.params.wf = true) : warn (resetBlock s) = true := by
  rw [warnExactlyBelowTheThreshold (resetBlock s) hp]
  simp only [Config.Params.wf, Bool.and_eq_true, decide_eq_true_eq] at hp
  obtain ⟨-, heps, -⟩ := hp
  simpa using heps

theorem statusWord_resetBlock {s : State} (hp : s.params.wf = true) : statusWord (resetBlock s) = 2#32 := by
  rw [statusWord, warn_resetBlock hp, resetBlock_faulted, resetBlock_fcode]
  decide

/-- Settles O19: `SRST` is the reset, faulted or not. -/
theorem srstGivesTheResetState : Obligations.SrstGivesTheResetState :=
  ⟨spelledBy_of_row .srst (by decide) (fun _ _ _ => rfl) fun _ => rfl,
    fun s _ => ⟨resetBlock s, rfl, rfl, statusWord_resetBlock⟩⟩

/-! ### `RD` -/

/-- The numbers up to 19 are those of the registers (R20). -/
theorem exists_regNumber_eq {n : Nat} (h : n ≤ 19) : ∃ r, regNumber r = n := by
  have hne : regOfNumber n ≠ none := by rw [ne_eq, regOfNumber_none]; omega
  obtain ⟨r, hr⟩ := Option.ne_none_iff_exists'.1 hne
  exact ⟨r, regNumber_of_regOfNumber hr⟩

/-- The operand reader reads the register file of R20 by the register's number. -/
theorem registerFile_getD_regNumber (s : State) (r : Reg) :
    (registerFile s).getD (regNumber r) 0#32 = readReg s r := by
  cases r <;> rfl

/-- Settles O20: `RD` by a number is the command that reads the register of that number, and R93 refuses the other words
with its `op`. -/
theorem rdCopiesTheRegister : Obligations.RdCopiesTheRegister := by
  refine ⟨fun n d hn => ?reads, fun cmd d hop hbad => ?rejects⟩
  case reads =>
    obtain ⟨r, rfl⟩ := exists_regNumber_eq hn
    refine ⟨r, decodeInvertsEncode (.rd r d) rfl, fun s => ?_⟩
    rw [registerFile_getD_regNumber]
    exact ⟨fun hf => exec_ok (u := { s with out := readReg s r }) rfl hf rfl, fun hf => if_pos hf⟩
  case rejects =>
    have hspell : spellsNothing cmd d := by
      unfold spellsNothing fieldsSpellNothing
      rw [hop]
      rcases hbad with hf | hidx
      · exact .inr (.inl ⟨fun h => hf (BitVec.eq_of_toNat_eq h), by decide⟩)
      · exact .inr (.inr (.inr (.inl ⟨rfl, hidx⟩)))
    obtain ⟨e, hd⟩ := decode_error_of_spellsNothing hspell
    exact rejected_of_error hd

/-! ### Operand loads -/

/-- Settles O21: each rule stores `DATA` in its register, and `WARN` is computed from the `MAXERR` that is there. -/
theorem operandLoadsStoreData : Obligations.OperandLoadsStoreData := by
  refine ⟨?setme, ?setorig, ?setpred, ?setsym, fun s v hf => ⟨⟨_, ?execSetme, rfl, ?warn⟩, ?execSetorig, ?execSetpred,
    ?execSetsym⟩⟩
  case setme => exact spelledBy_of_row .setme (by decide) (fun _ _ _ => rfl) fun _ => rfl
  case setorig => exact spelledBy_of_row .setorig (by decide) (fun _ _ _ => rfl) fun _ => rfl
  case setpred => exact spelledBy_of_row .setpred (by decide) (fun _ _ _ => rfl) fun _ => rfl
  case setsym => exact spelledBy_of_row .setsym (by decide) (fun _ _ _ => rfl) fun _ => rfl
  case execSetme => exact exec_ok (u := { s with maxerr := v }) rfl hf rfl
  case execSetorig => exact exec_ok (u := { s with orig := v }) rfl hf rfl
  case execSetpred => exact exec_ok (u := { s with pred := v }) rfl hf rfl
  case execSetsym => exact exec_ok (u := { s with sym := v }) rfl hf rfl
  case warn => exact getLsbD_statusWord _ 1

end Sys2Proof.Machine
end

section
/-! PROOFS. Rounding to the nearest finite value (spec/41_residual_and_quantizer.md R141). -/

namespace Sys2Proof.Machine

variable {r : Int} {d : Nat}

/-! ### The three cases of `round32` -/

@[simp] theorem round32_zero (d : Nat) (z : Bool) : round32 0 d z = zero32 z := if_pos rfl

theorem round32_overflow (z : Bool) (hr : r ≠ 0) (h : (2 ^ 25 - 1) * 2 ^ 253 * d ≤ 2 * r.natAbs) :
    round32 r d z = inf32 (decide (r < 0)) := by
  rw [round32, if_neg hr, if_pos h]

/-- Below the overflow threshold the result is `n` steps of `2^k` units with the sign of the real, `n` the nearest number of
steps. -/
theorem round32_grid (z : Bool) (hd : 0 < d) (hr : r ≠ 0) (h : 2 * r.natAbs < (2 ^ 25 - 1) * 2 ^ 253 * d) :
    ∃ k n, n = nearestEven r.natAbs (d * 2 ^ k) ∧ (k = 0 ∨ 2 ^ 23 * 2 ^ k * d ≤ r.natAbs) ∧ (k = 0 ∨ 2 ^ 23 ≤ n) ∧
      n ≤ 2 ^ 24 ∧ k * 2 ^ 23 + n < 255 * 2 ^ 23 ∧
      round32 r d z = signedPattern (decide (r < 0)) (k * 2 ^ 23 + n) := by
  obtain ⟨k, n, hk, hn, hlow, hstep, hle, hfin⟩ := round32_shift hd h
  refine ⟨k, n, hn, hlow, hstep, hle, hfin, ?_⟩
  rw [round32, if_neg hr, if_neg (Nat.not_le.2 h), hn, hk]

/-! ### The nearest finite value -/

/-- A finite value `y` lies on the grid of step `2^k` that `round32` chooses for `a / d`, or below the point `2^23` of that
grid, which is not above `a / d`. -/
theorem value_grid {a k : Nat} (hlow : k = 0 ∨ 2 ^ 23 * 2 ^ k * d ≤ a) {w : Word} {y : Int} (hy : y.natAbs = magUnits w) :
    (∃ m : Int, y = m * (2 ^ k : Nat)) ∨ (y < 2 ^ 23 * (2 ^ k : Nat) ∧ 2 ^ 23 * 2 ^ k * d ≤ a) := by
  rcases hlow with rfl | hlow
  · exact .inl ⟨y, by simp⟩
  · rcases magUnits_grid w k with ⟨m, hm⟩ | hbelow
    · left
      rcases Int.natAbs_eq y with h | h
      · exact ⟨m, by rw [h, hy, hm, Nat.cast_mul]⟩
      · exact ⟨-m, by rw [h, hy, hm, Nat.cast_mul, Int.neg_mul]⟩
    · exact .inr ⟨by omega, hlow⟩

/-- The nearest point of that grid is as near as any finite value: one on the grid is a grid point itself, one below the
grid is farther than the point `2^23`. -/
theorem nearestEven_nearest_value {a k n : Nat} (hd : 0 < d) (hn : n = nearestEven a (d * 2 ^ k))
    (hlow : k = 0 ∨ 2 ^ 23 * 2 ^ k * d ≤ a) {w : Word} {y : Int} (hy : y.natAbs = magUnits w) :
    ((n * (2 ^ k : Nat) : Int) * d - a).natAbs ≤ (y * d - a).natAbs ∧
      (((n * (2 ^ k : Nat) : Int) * d - a).natAbs = (y * d - a).natAbs → y ≠ n * (2 ^ k : Nat) → n % 2 = 0) := by
  have hnear := nearestEven_nearest a (Nat.mul_pos hd (Nat.two_pow_pos k))
  rw [← hn] at hnear
  have hgrid := value_grid hlow hy
  generalize 2 ^ k = step at *
  have hpoint : ∀ m : Int, m * step * d = m * (d * step : Nat) := by intro m; push_cast; ring
  rw [hpoint]
  rcases hgrid with ⟨m, rfl⟩ | ⟨hbelow, hstart⟩
  · rw [hpoint]
    obtain ⟨hle, htie⟩ := hnear m
    exact ⟨hle, fun heq hne => htie heq fun h => hne (by rw [h])⟩
  · have hfar : y * d < 2 ^ 23 * step * d := Int.mul_lt_mul_of_pos_right hbelow (by omega)
    have hstart' : (2 ^ 23 * step * d : Int) ≤ a := by exact_mod_cast hstart
    obtain ⟨hle, -⟩ := hnear (2 ^ 23)
    rw [hpoint] at hfar hstart'
    omega

theorem valUnits_signedPattern {neg : Bool} {mag : Nat} (h : mag < 2 ^ 31) :
    valUnits (signedPattern neg mag) = (if neg then -1 else 1) * magUnits (signedPattern neg mag) := by
  rw [valUnits, fsign_signedPattern h]
  cases neg <;> simp

/-- Distances to a real and to a value are those to their magnitudes, seen from the real's side of zero. -/
theorem natAbs_sub_sign (r y : Int) (d : Nat) :
    (y * d - r).natAbs = ((if r < 0 then -1 else 1) * y * d - r.natAbs).natAbs := by
  split
  · rw [show -1 * y * (d : Int) = -(y * d) by ring]; omega
  · rw [Int.one_mul]; omega

/-- `round32` below the overflow threshold: finite, with the sign of the real, nearest, and even on a tie (R141). -/
theorem round32_finite (z : Bool) (hd : 0 < d) (hr : r ≠ 0) (h : 2 * r.natAbs < (2 ^ 25 - 1) * 2 ^ 253 * d) :
    fexp (round32 r d z) < 255 ∧ fsign (round32 r d z) = decide (r < 0) ∧
      ∀ w : Word,
        (valUnits (round32 r d z) * d - r).natAbs ≤ (valUnits w * d - r).natAbs ∧
        ((valUnits (round32 r d z) * d - r).natAbs = (valUnits w * d - r).natAbs →
          valUnits w ≠ valUnits (round32 r d z) → (round32 r d z).getLsbD 0 = false) := by
  obtain ⟨k, n, hn, hlow, hstep, hle, hfin, heq⟩ := round32_grid z hd hr h
  have hmag : k * 2 ^ 23 + n < 2 ^ 31 := by omega
  rw [heq]
  refine ⟨by rw [fexp_signedPattern hmag]; omega, fsign_signedPattern hmag, fun w => ?_⟩
  have hval : (if r < 0 then -1 else 1) * valUnits (signedPattern (decide (r < 0)) (k * 2 ^ 23 + n)) =
      n * (2 ^ k : Nat) := by
    rw [valUnits_signedPattern hmag, magUnits_signedPattern hstep hle hmag]
    by_cases hneg : r < 0 <;> simp [hneg]
  have hy : ((if r < 0 then -1 else 1) * valUnits w).natAbs = magUnits w := by
    rw [← natAbs_valUnits w]
    split <;> simp
  obtain ⟨hdist, htie⟩ := nearestEven_nearest_value hd hn hlow hy
  rw [natAbs_sub_sign r, natAbs_sub_sign r, hval, getLsbD_signedPattern_zero hmag]
  refine ⟨hdist, fun hsame hne => ?_⟩
  have heven : n % 2 = 0 := htie hsame fun h => hne (by rw [← hval] at h; split at h <;> simpa using h)
  exact decide_eq_false (by omega)

/-- Settles O25: the three cases of `round32`. -/
theorem roundsToNearestTiesToEven : Obligations.RoundsToNearestTiesToEven := by
  intro r d z hd
  refine ⟨?zero, ?overflow, ?finite⟩
  case zero => rintro rfl; rw [round32_zero, zero32_eq]
  case overflow => intro hr h; rw [round32_overflow z hr h, inf32_eq]; simp
  case finite =>
    intro hr h
    obtain ⟨hfin, hsign, hnear⟩ := round32_finite z hd hr h
    exact ⟨hfin, hsign, fun w _ => hnear w⟩

end Sys2Proof.Machine
end

section
/-! PROOFS. Conversions between binary32 and integers (spec/41_residual_and_quantizer.md R146, R147). -/

namespace Sys2Proof.Machine

/-! ### `round_half_away` -/

/-- Settles O26: value and result have the same sign, and the quotient by `2^150` rounds the magnitude to the nearest number
of steps of `2^149` units, a half upwards. -/
theorem roundsHalvesAwayFromZero : Obligations.RoundsHalvesAwayFromZero := by
  intro w _ _
  unfold roundHalfAway valUnits
  cases fsign w
  case false => simp only [Bool.false_eq_true, if_false]; omega
  case true => simp only [if_true]; omega

/-! ### `i2f32` -/

/-- Doubling brings an integer of magnitude 1 to `2^24` into the range of significands. -/
theorem exists_significand {m : Nat} (h0 : m ≠ 0) (hm : m ≤ 2 ^ 24) :
    ∃ j ≤ 23, 2 ^ 23 ≤ m * 2 ^ j ∧ m * 2 ^ j ≤ 2 ^ 24 := by
  have hex : ∃ j, 2 ^ 23 ≤ m * 2 ^ j := ⟨23, Nat.le_mul_of_pos_left _ (Nat.pos_of_ne_zero h0)⟩
  refine ⟨Nat.find hex, Nat.find_min' hex (Nat.le_mul_of_pos_left _ (Nat.pos_of_ne_zero h0)), Nat.find_spec hex, ?_⟩
  cases hj : Nat.find hex with
  | zero => simpa using hm
  | succ j =>
    have hless : ¬ 2 ^ 23 ≤ m * 2 ^ j := Nat.find_min hex (by omega)
    rw [Nat.pow_succ, ← Nat.mul_assoc]
    omega

/-- Every integer of magnitude at most `2^24` is a finite value. -/
theorem exists_finite_eq_integer {i : Int} (hi : i.natAbs ≤ 2 ^ 24) :
    ∃ v : Word, fexp v < 255 ∧ valUnits v = i * 2 ^ 149 := by
  by_cases h0 : i = 0
  case pos => exact ⟨0#32, by decide, by rw [h0]; rfl⟩
  case neg =>
    obtain ⟨j, hj, hlow, hhigh⟩ := exists_significand (Int.natAbs_ne_zero.2 h0) hi
    have hmag : (149 - j) * 2 ^ 23 + i.natAbs * 2 ^ j < 2 ^ 31 := by omega
    have hunits : i.natAbs * 2 ^ j * 2 ^ (149 - j) = i.natAbs * 2 ^ 149 := by
      rw [Nat.mul_assoc, ← Nat.pow_add, Nat.add_sub_cancel' (by omega)]
    refine ⟨signedPattern (decide (i < 0)) ((149 - j) * 2 ^ 23 + i.natAbs * 2 ^ j), ?finite, ?value⟩
    case finite => rw [fexp_signedPattern hmag]; omega
    case value =>
      rw [valUnits_signedPattern hmag, magUnits_signedPattern (.inr hlow) hhigh hmag, hunits]
      by_cases hneg : i < 0
      · simp [hneg, abs_of_neg]
      · simp [hneg, abs_of_nonneg (Int.not_lt.1 hneg)]

/-- Every integer of 32 bits is below the overflow threshold. -/
theorem toInt_no_overflow (w : Word) : 2 * (w.toInt * 2 ^ 149).natAbs < (2 ^ 25 - 1) * 2 ^ 253 * 1 := by
  have hle := BitVec.toInt_lt (x := w)
  have hge := BitVec.le_toInt w
  omega

theorem i2f32_of_toInt_eq_zero {w : Word} (h : w.toInt = 0) : i2f32 w = 0#32 := by
  rw [i2f32, h, Int.zero_mul, round32_zero]
  rfl

/-- What a conversion gives: a finite value that no other is nearer to the integer than, even on a tie (R146, R141). -/
theorem i2f32_nearest (w : Word) :
    fexp (i2f32 w) < 255 ∧
      ∀ v : Word,
        (valUnits (i2f32 w) - w.toInt * 2 ^ 149).natAbs ≤ (valUnits v - w.toInt * 2 ^ 149).natAbs ∧
        ((valUnits (i2f32 w) - w.toInt * 2 ^ 149).natAbs = (valUnits v - w.toInt * 2 ^ 149).natAbs →
          valUnits v ≠ valUnits (i2f32 w) → (i2f32 w).getLsbD 0 = false) := by
  by_cases h0 : w.toInt = 0
  case pos =>
    have hval : valUnits 0#32 = 0 := rfl
    rw [i2f32_of_toInt_eq_zero h0, h0, hval]
    exact ⟨by decide, fun v => ⟨by simp, fun _ _ => by decide⟩⟩
  case neg =>
    have hne : w.toInt * 2 ^ 149 ≠ 0 := by omega
    obtain ⟨hfin, -, hnear⟩ := round32_finite false Nat.one_pos hne (toInt_no_overflow w)
    simp only [Nat.cast_one, Int.mul_one] at hnear
    exact ⟨hfin, hnear⟩

/-- Settles O29: the nearest value is the integer itself where that is a finite value. -/
theorem integersConvertToTheNearest : Obligations.IntegersConvertToTheNearest := by
  intro w
  obtain ⟨hfin, hnear⟩ := i2f32_nearest w
  refine ⟨rfl, ?nan, ?inf, fun v _ => ⟨(hnear v).1, fun htie hne => (hnear v).2 htie hne.symm⟩, ?exact, ?zero⟩
  case nan => simp [isNan32, hfin.ne]
  case inf => simp [isInf32, hfin.ne]
  case exact =>
    intro hi
    obtain ⟨v, -, hv⟩ := exists_finite_eq_integer hi
    have hle := (hnear v).1
    rw [hv] at hle
    omega
  case zero => rintro rfl; exact i2f32_of_toInt_eq_zero rfl

end Sys2Proof.Machine
end

section
/-! PROOFS. The four binary primitives, case by case (spec/41_residual_and_quantizer.md R142 to R145). -/

namespace Sys2Proof.Machine

variable {a b : Word}

/-! ### The classes of patterns -/

theorem isZero32_iff : isZero32 a = true ↔ fexp a = 0 ∧ ffrac a = 0 := by simp [isZero32]

theorem isInf32_iff : isInf32 a = true ↔ fexp a = 255 ∧ ffrac a = 0 := by simp [isInf32]

theorem isNan32_of_isInf32 (h : isInf32 a = true) : isNan32 a = false := by simp [isNan32, isInf32_iff.1 h]

theorem isZero32_of_isInf32 (h : isInf32 a = true) : isZero32 a = false := by simp [isZero32, isInf32_iff.1 h]

theorem isInf32_of_isZero32 (h : isZero32 a = true) : isInf32 a = false := by simp [isInf32, isZero32_iff.1 h]

theorem isNan32_of_isZero32 (h : isZero32 a = true) : isNan32 a = false := by simp [isNan32, isZero32_iff.1 h]

theorem fexp_lt_of_isZero32 (h : isZero32 a = true) : fexp a < 255 := by rw [(isZero32_iff.1 h).1]; decide

theorem isNan32_of_fexp_lt (h : fexp a < 255) : isNan32 a = false := by simp [isNan32, h.ne]

theorem isInf32_of_fexp_lt (h : fexp a < 255) : isInf32 a = false := by simp [isInf32, h.ne]

theorem fexp_lt_of_finite (hn : isNan32 a = false) (hi : isInf32 a = false) : fexp a < 255 := by
  have hlt := fexp_lt a
  have hne : fexp a ≠ 255 := by
    intro he
    by_cases hf : ffrac a = 0
    · simp [isInf32, he, hf] at hi
    · simp [isNan32, he, hf] at hn
  omega

theorem magUnits_eq_zero_iff : magUnits a = 0 ↔ isZero32 a = true := by
  rw [isZero32_iff, magUnits]
  split
  · next h => simp [h]
  · next h => simp [h]

theorem magUnits_pos (h : isZero32 a = false) : 0 < magUnits a :=
  Nat.pos_of_ne_zero fun h0 => by rw [magUnits_eq_zero_iff, h] at h0; exact Bool.false_ne_true h0

theorem eq_zero32_of_isZero32 (h : isZero32 a = true) : a = zero32 (fsign a) := by
  obtain ⟨he, hf⟩ := isZero32_iff.1 h
  conv_lhs => rw [← signedPattern_fields a, he, hf]
  rfl

theorem eq_inf32_of_isInf32 (h : isInf32 a = true) : a = inf32 (fsign a) := by
  obtain ⟨he, hf⟩ := isInf32_iff.1 h
  conv_lhs => rw [← signedPattern_fields a, he, hf]
  rfl

/-! ### Signs -/

theorem zero32_and_zero32 (x y : Bool) : zero32 x &&& zero32 y = zero32 (x && y) := by cases x <;> cases y <;> decide

theorem inf32_eq_or (z : Bool) : inf32 z = 0x7F800000#32 ||| zero32 z := by cases z <;> decide

theorem zero32_beq_signBit (z : Bool) : (zero32 z == 0x80000000#32) = z := by cases z <;> decide

/-- The sign of a product or quotient as a pattern (R143, R145). -/
theorem xor_and_signBit (a b : Word) : (a ^^^ b) &&& 0x80000000#32 = zero32 (fsign a != fsign b) := by
  have h : (0x80000000#32 : Word) = BitVec.twoPow 32 31 := by decide
  rw [h, BitVec.and_twoPow, BitVec.getLsbD_xor, zero32_eq]
  rfl

/-! ### Addition -/

theorem fadd32_nan (h : isNan32 a = true ∨ isNan32 b = true) : fadd32 a b = qnan := by
  rw [fadd32, if_pos (by simpa using h)]

theorem fadd32_infinities (ha : isInf32 a = true) (hb : isInf32 b = true) :
    fadd32 a b = if fsign a = fsign b then a else qnan := by
  simp [fadd32, isNan32_of_isInf32, ha, hb]

theorem fadd32_inf_left (ha : isInf32 a = true) (hn : isNan32 b = false) (hb : isInf32 b = false) : fadd32 a b = a := by
  simp [fadd32, isNan32_of_isInf32, ha, hb, hn]

theorem fadd32_inf_right (ha : isInf32 a = true) (hn : isNan32 b = false) (hb : isInf32 b = false) : fadd32 b a = a := by
  simp [fadd32, isNan32_of_isInf32, ha, hb, hn]

theorem fadd32_zeros (ha : isZero32 a = true) (hb : isZero32 b = true) : fadd32 a b = a &&& b := by
  conv_rhs => rw [eq_zero32_of_isZero32 ha, eq_zero32_of_isZero32 hb, zero32_and_zero32]
  simp [fadd32, isNan32_of_isZero32, isInf32_of_isZero32, ha, hb]

theorem fadd32_finite (ha : fexp a < 255) (hb : fexp b < 255) (h : isZero32 a = false ∨ isZero32 b = false) :
    fadd32 a b = round32 (valUnits a + valUnits b) 1 false := by
  have hz : (isZero32 a && isZero32 b) = false := Bool.and_eq_false_iff.2 h
  simp [fadd32, isNan32_of_fexp_lt, isInf32_of_fexp_lt, ha, hb, hz]

/-! ### Subtraction -/

theorem fsub32_nan (h : isNan32 a = true ∨ isNan32 b = true) : fsub32 a b = qnan := by
  unfold fsub32
  split
  · rfl
  · exact fadd32_nan (.inl (h.resolve_right ‹_›))

theorem fsub32_eq_fadd32 (hb : isNan32 b = false) : fsub32 a b = fadd32 a (b ^^^ 0x80000000#32) := by simp [fsub32, hb]

/-! ### Multiplication -/

theorem fmul32_comm (a b : Word) : fmul32 a b = fmul32 b a := by
  have hsign : (fsign a != fsign b) = (fsign b != fsign a) := bne_comm
  have hzero : (isZero32 a && isInf32 b || isInf32 a && isZero32 b) =
      (isZero32 b && isInf32 a || isInf32 b && isZero32 a) := by
    rw [Bool.or_comm, Bool.and_comm, Bool.and_comm (isZero32 a)]
  rw [fmul32, fmul32, Bool.or_comm (isNan32 a), Bool.or_comm (isInf32 a), Int.mul_comm (valUnits a), hsign, hzero]

theorem fmul32_nan (h : isNan32 a = true ∨ isNan32 b = true) : fmul32 a b = qnan := by
  rw [fmul32, if_pos (by simpa using h)]

theorem fmul32_zero_inf (ha : isZero32 a = true) (hb : isInf32 b = true) : fmul32 a b = qnan := by
  simp [fmul32, ha, hb]

theorem fmul32_inf (ha : isInf32 a = true) (hn : isNan32 b = false) (hb : isZero32 b = false) :
    fmul32 a b = inf32 (fsign a != fsign b) := by
  simp [fmul32, isNan32_of_isInf32, isZero32_of_isInf32, ha, hb, hn]

theorem fmul32_finite (ha : fexp a < 255) (hb : fexp b < 255) :
    fmul32 a b = round32 (valUnits a * valUnits b) (2 ^ 149) (fsign a != fsign b) := by
  simp [fmul32, isNan32_of_fexp_lt, isInf32_of_fexp_lt, ha, hb]

/-! ### Division -/

theorem fdiv32_nan (h : isNan32 a = true ∨ isNan32 b = true) : fdiv32 a b = qnan := by
  rw [fdiv32, if_pos (by simpa using h)]

theorem fdiv32_zeros (ha : isZero32 a = true) (hb : isZero32 b = true) : fdiv32 a b = qnan := by
  simp [fdiv32, ha, hb]

theorem fdiv32_infinities (ha : isInf32 a = true) (hb : isInf32 b = true) : fdiv32 a b = qnan := by
  simp [fdiv32, ha, hb]

theorem fdiv32_inf_left (ha : isInf32 a = true) (hn : isNan32 b = false) (hb : isInf32 b = false) :
    fdiv32 a b = inf32 (fsign a != fsign b) := by
  simp [fdiv32, isNan32_of_isInf32, isZero32_of_isInf32, ha, hb, hn]

theorem fdiv32_inf_right (ha : isNan32 a = false) (hi : isInf32 a = false) (hb : isInf32 b = true) :
    fdiv32 a b = zero32 (fsign a != fsign b) := by
  simp [fdiv32, isNan32_of_isInf32, isZero32_of_isInf32, ha, hb, hi]

theorem fdiv32_zero_right (ha : isNan32 a = false) (hz : isZero32 a = false) (hb : isZero32 b = true) :
    fdiv32 a b = inf32 (fsign a != fsign b) := by
  simp [fdiv32, isNan32_of_isZero32, isInf32_of_isZero32, ha, hb, hz]

theorem fdiv32_zero_left (ha : isZero32 a = true) (hn : isNan32 b = false) (hb : isZero32 b = false) :
    fdiv32 a b = zero32 (fsign a != fsign b) := by
  simp [fdiv32, isNan32_of_isZero32, isInf32_of_isZero32, ha, hb, hn]

theorem valUnits_eq_sign_mul (w : Word) : valUnits w = (if fsign w then -1 else 1) * magUnits w := by
  unfold valUnits
  split <;> simp

theorem fdiv32_finite (ha : fexp a < 255) (hb : fexp b < 255) (ha0 : isZero32 a = false) (hb0 : isZero32 b = false) :
    fdiv32 a b =
      round32 (valUnits a * (valUnits b).sign * 2 ^ 149) (valUnits b).natAbs (fsign a != fsign b) := by
  have hmag : (magUnits b : Int).sign = 1 := Int.sign_eq_one_of_pos (Int.natCast_pos.2 (magUnits_pos hb0))
  have hreal : (if fsign a = fsign b then 1 else -1) * ((magUnits a * 2 ^ 149 : Nat) : Int) =
      valUnits a * (valUnits b).sign * 2 ^ 149 := by
    rw [valUnits_eq_sign_mul a, valUnits_eq_sign_mul b, Int.sign_mul, hmag]
    cases fsign a <;> cases fsign b <;> simp
  rw [natAbs_valUnits, ← hreal]
  simp [fdiv32, isNan32_of_fexp_lt, isInf32_of_fexp_lt, ha, hb, ha0, hb0]

/-- Settles O27: each case is an equation of its primitive; `sgn` is the zero with the sign that the model computes. -/
theorem primitivesFollowTheirCases : Obligations.PrimitivesFollowTheirCases := by
  refine ⟨fun a b h => ⟨fadd32_nan h, fsub32_nan h, fmul32_nan h, fdiv32_nan h⟩, fun a b sgn ha hb hsgn => ?_⟩
  rw [xor_and_signBit] at hsgn
  subst hsgn
  have hcomm : (fsign b != fsign a) = (fsign a != fsign b) := bne_comm
  simp only [← inf32_eq_or, zero32_beq_signBit]
  refine ⟨fsub32_eq_fadd32 hb, ?addOpposite, ?addInf, fadd32_zeros, ?addFinite, ?mulZeroInf, ?mulInf, ?mulFinite,
    fdiv32_zeros, fdiv32_infinities, ?divInf, ?divZero, ?divFinite⟩
  case addOpposite =>
    intro hai hbi hne
    rw [fadd32_infinities hai hbi, if_neg fun hs => hne ?_]
    · rfl
    · rw [eq_inf32_of_isInf32 hai, eq_inf32_of_isInf32 hbi, hs]
  case addInf =>
    rintro hai (hbi | rfl)
    · exact ⟨fadd32_inf_left hai hb hbi, fadd32_inf_right hai hb hbi⟩
    · simp [fadd32_infinities hai hai]
  case addFinite => exact fun hai hbi => fadd32_finite (fexp_lt_of_finite ha hai) (fexp_lt_of_finite hb hbi)
  case mulZeroInf => exact fun hz hi => ⟨fmul32_zero_inf hz hi, by rw [fmul32_comm]; exact fmul32_zero_inf hz hi⟩
  case mulInf => exact fun hi hz => ⟨fmul32_inf hi hb hz, by rw [fmul32_comm]; exact fmul32_inf hi hb hz⟩
  case mulFinite => exact fun hai hbi => fmul32_finite (fexp_lt_of_finite ha hai) (fexp_lt_of_finite hb hbi)
  case divInf => exact fun hai hbi => ⟨fdiv32_inf_left hai hb hbi, by rw [fdiv32_inf_right hb hbi hai, hcomm]⟩
  case divZero => exact fun hz hne => ⟨fdiv32_zero_right ha hne hz, by rw [fdiv32_zero_left hz ha hne, hcomm]⟩
  case divFinite => exact fun hai hbi => fdiv32_finite (fexp_lt_of_finite ha hai) (fexp_lt_of_finite hb hbi)

/-! ### NaN results -/

theorem isNan32_zero32 (z : Bool) : isNan32 (zero32 z) = false := by cases z <;> decide

theorem isNan32_inf32 (z : Bool) : isNan32 (inf32 z) = false := by cases z <;> decide

theorem isNan32_round32 {d : Nat} (r : Int) (z : Bool) (hd : 0 < d) : isNan32 (round32 r d z) = false := by
  by_cases hr : r = 0
  · rw [hr, round32_zero, isNan32_zero32]
  · rcases Nat.lt_or_ge (2 * r.natAbs) ((2 ^ 25 - 1) * 2 ^ 253 * d) with h | h
    · exact isNan32_of_fexp_lt (round32_finite z hd hr h).1
    · rw [round32_overflow z hr h, isNan32_inf32]

theorem fadd32_qnan_or (a b : Word) : fadd32 a b = qnan ∨ isNan32 (fadd32 a b) = false := by
  by_cases hnan : isNan32 a = true ∨ isNan32 b = true
  case pos => exact .inl (fadd32_nan hnan)
  case neg =>
    obtain ⟨ha, hb⟩ : isNan32 a = false ∧ isNan32 b = false := by simpa using hnan
    simp only [fadd32, ha, hb, Bool.or_self, Bool.false_eq_true, if_false]
    split_ifs
    · exact .inr ha
    · exact .inl rfl
    · exact .inr ha
    · exact .inr hb
    · exact .inr (isNan32_zero32 _)
    · exact .inr (isNan32_round32 _ _ Nat.one_pos)

theorem fsub32_qnan_or (a b : Word) : fsub32 a b = qnan ∨ isNan32 (fsub32 a b) = false := by
  unfold fsub32
  split
  · exact .inl rfl
  · exact fadd32_qnan_or ..

theorem fmul32_qnan_or (a b : Word) : fmul32 a b = qnan ∨ isNan32 (fmul32 a b) = false := by
  unfold fmul32
  split_ifs
  · exact .inl rfl
  · exact .inl rfl
  · exact .inr (isNan32_inf32 _)
  · exact .inr (isNan32_round32 _ _ (Nat.two_pow_pos 149))

theorem fdiv32_qnan_or (a b : Word) : fdiv32 a b = qnan ∨ isNan32 (fdiv32 a b) = false := by
  unfold fdiv32
  split
  · exact .inl rfl
  split
  · exact .inl rfl
  split
  · exact .inr (isNan32_inf32 _)
  next hdivisor =>
  split
  · exact .inr (isNan32_zero32 _)
  · have hb : isZero32 b = false := (Bool.or_eq_false_iff.1 (Bool.eq_false_iff.2 hdivisor)).2
    exact .inr (isNan32_round32 _ _ (magUnits_pos hb))

/-- Settles O28: a primitive answers the canonical NaN, an operand that is not a NaN, a zero, an infinity or a rounded
real. -/
theorem nanResultsAreCanonical : Obligations.NanResultsAreCanonical := by
  have canonical {w : Word} (h : w = qnan ∨ isNan32 w = false) (hn : isNan32 w = true) : w = qnan :=
    h.resolve_right (by simp [hn])
  intro a b
  exact ⟨canonical (fadd32_qnan_or a b), canonical (fsub32_qnan_or a b), canonical (fmul32_qnan_or a b),
    canonical (fdiv32_qnan_or a b), isNan32_round32 _ _ Nat.one_pos, primitivesFollowTheirCases.1 a b⟩

end Sys2Proof.Machine
end

section
/-! PROOFS. Residual calculator and quantizer (spec/41_residual_and_quantizer.md R150 to R156). -/

namespace Sys2Proof.Machine

variable {s : State} {a z : Word}

/-! ### `RESID`, `DEQUANT`, `RECON` -/

theorem exec_resid (d : Word) (hf : s.faulted = false) :
    exec (.resid d) s = .next { s with res := fsub32 s.orig s.pred, cmdcnt := s.cmdcnt + 1#32 } :=
  exec_ok (u := { s with res := fsub32 s.orig s.pred }) rfl hf rfl

theorem exec_dequant (d : Word) (hf : s.faulted = false) :
    exec (.dequant d) s =
      .next { s with apx := fmul32 (i2f32 s.sym) (fmul32 0x40000000#32 s.maxerr), cmdcnt := s.cmdcnt + 1#32 } :=
  exec_ok (u := { s with apx := fmul32 (i2f32 s.sym) (bucketWidth s) }) rfl hf rfl

theorem exec_recon (d : Word) (hf : s.faulted = false) :
    exec (.recon d) s = .next { s with recn := fadd32 s.pred s.apx, cmdcnt := s.cmdcnt + 1#32 } :=
  exec_ok (u := { s with recn := fadd32 s.pred s.apx }) rfl hf rfl

/-- Settles O22: the three rules raise no cause. -/
theorem residDequantReconCompute : Obligations.ResidDequantReconCompute :=
  ⟨spelledBy_of_row .resid (by decide) (fun _ _ _ => rfl) fun _ => rfl,
    spelledBy_of_row .dequant (by decide) (fun _ _ _ => rfl) fun _ => rfl,
    spelledBy_of_row .recon (by decide) (fun _ _ _ => rfl) fun _ => rfl,
    fun _ d hf => ⟨exec_resid d hf, exec_dequant d hf, exec_recon d hf⟩⟩

/-- The two commands after each other: `RECON` reads the `APX` that `DEQUANT` left. -/
theorem recn_of_runs_dequant_recon {t : State} {d e : Word} (hf : s.faulted = false)
    (h : runs [.dequant d, .recon e] s t) :
    t.recn = fadd32 s.pred (fmul32 (i2f32 s.sym) (fmul32 0x40000000#32 s.maxerr)) := by
  obtain ⟨u, hu, hfu, v, hv, -, rfl⟩ := h
  rw [exec_dequant d hf, Host.Outcome.next.injEq] at hu
  rw [exec_recon e hfu, Host.Outcome.next.injEq] at hv
  rw [← hv, ← hu]

/-- Settles O31: both runs leave the same function of the three registers. -/
theorem reconstructionDependsOnThreePatterns : Obligations.ReconstructionDependsOnThreePatterns := by
  intro s s' t t' d e d' e' hf hf' hpred hsym hmaxerr hrun hrun'
  have ht := recn_of_runs_dequant_recon hf hrun
  have ht' := recn_of_runs_dequant_recon hf' hrun'
  rw [← hpred, ← hsym, ← hmaxerr] at ht'
  exact ⟨ht.trans ht'.symm, ht⟩

/-! ### `QUANT` -/

theorem bucketOf_eq_ok (hn : isNan32 a = false) (hi : isInf32 a = false) (hlow : -2 ^ 31 ≤ roundHalfAway a)
    (hhigh : roundHalfAway a ≤ 2 ^ 31 - 1) : bucketOf a = .ok (BitVec.ofInt 32 (roundHalfAway a)) := by
  rw [bucketOf, if_neg (by simp [hn, hi]), if_neg (by omega)]

theorem bucketOf_eq_error
    (h : isNan32 a = true ∨ isInf32 a = true ∨ roundHalfAway a < -2 ^ 31 ∨ 2 ^ 31 - 1 < roundHalfAway a) :
    bucketOf a = .error .quantRange := by
  unfold bucketOf
  split
  · rfl
  · next hfin =>
    obtain ⟨hn, hi⟩ : isNan32 a = false ∧ isInf32 a = false := by simpa using hfin
    simp only [hn, hi, Bool.false_eq_true, false_or] at h
    exact if_pos h

theorem exec_quant_error (d : Word) (hf : s.faulted = false)
    (h : bucketOf (fdiv32 s.res (bucketWidth s)) = .error .quantRange) :
    exec (.quant d) s = .next (withFault s 5#4 (.quant d)) := by
  have hrule : ruleOf (.quant d) s = .error .quantRange := by simp [ruleOf, quantRule, h]
  exact exec_error rfl hf hrule

/-- Settles O23: the rule stores what `bucketOf` answers for the quotient, or raises its cause. -/
theorem quantStoresTheBucket : Obligations.QuantStoresTheBucket := by
  refine ⟨spelledBy_of_row .quant (by decide) (fun _ _ _ => rfl) fun _ => rfl, fun s d q hf hq => ⟨?stores, ?faults⟩⟩
  case stores =>
    intro hn hi hlow hhigh
    have hbucket := bucketOf_eq_ok hn hi hlow hhigh
    rw [hq] at hbucket
    have hrule : ruleOf (.quant d) s = .ok { s with sym := BitVec.ofInt 32 (roundHalfAway q) } := by
      simp [ruleOf, quantRule, bucketWidth, two32, hbucket, hq]
    exact exec_ok rfl hf hrule
  case faults =>
    intro h
    have hbucket := bucketOf_eq_error h
    rw [hq] at hbucket
    exact exec_quant_error d hf hbucket

/-! ### A zero `MAXERR` -/

theorem valUnits_of_isZero32 (h : isZero32 z = true) : valUnits z = 0 := by
  rw [valUnits_eq_sign_mul, magUnits_eq_zero_iff.2 h, Nat.cast_zero, Int.mul_zero]

theorem isZero32_zero32 (neg : Bool) : isZero32 (zero32 neg) = true := by cases neg <;> decide

theorem isInf32_inf32 (neg : Bool) : isInf32 (inf32 neg) = true := by cases neg <;> decide

theorem isZero32_fmul32 (ha : fexp a < 255) (hz : isZero32 z = true) : isZero32 (fmul32 a z) = true := by
  rw [fmul32_finite ha (fexp_lt_of_isZero32 hz), valUnits_of_isZero32 hz, Int.mul_zero, round32_zero, isZero32_zero32]

/-- A quotient by zero is a NaN or an infinity (R145). -/
theorem fdiv32_by_zero (hz : isZero32 z = true) : isNan32 (fdiv32 a z) = true ∨ isInf32 (fdiv32 a z) = true := by
  cases hn : isNan32 a with
  | true => left; rw [fdiv32_nan (.inl hn)]; decide
  | false =>
    cases h0 : isZero32 a with
    | true => left; rw [fdiv32_zeros h0 hz]; decide
    | false => right; rw [fdiv32_zero_right hn h0 hz, isInf32_inf32]

/-- Settles O24: the bucket width is then a zero, and no quotient by it has an integer value. -/
theorem zeroMaxErrorFaultsQuant : Obligations.ZeroMaxErrorFaultsQuant := by
  intro s d hf hmaxerr
  have hz : isZero32 s.maxerr = true := by rcases hmaxerr with h | h <;> rw [h] <;> decide
  have hwidth : isZero32 (bucketWidth s) = true := isZero32_fmul32 (by decide) hz
  exact exec_quant_error d hf (bucketOf_eq_error ((fdiv32_by_zero hwidth).imp_right .inl))

/-! ### Raw-value mode -/

/-- Adding a zero to a value that is not a zero gives that value (R142). -/
theorem fadd32_zero (hn : isNan32 a = false) (h0 : isZero32 a = false) (hz : isZero32 z = true) :
    fadd32 a z = a ∧ fadd32 z a = a := by
  cases hi : isInf32 a with
  | true =>
    have hzn := isNan32_of_isZero32 hz
    have hzi := isInf32_of_isZero32 hz
    exact ⟨fadd32_inf_left hi hzn hzi, fadd32_inf_right hi hzn hzi⟩
  | false =>
    have ha := fexp_lt_of_finite hn hi
    have hfin := fexp_lt_of_isZero32 hz
    have hval : valUnits a ≠ 0 := by
      rw [← Int.natAbs_ne_zero, natAbs_valUnits]
      exact (magUnits_pos h0).ne'
    rw [fadd32_finite ha hfin (.inl h0), fadd32_finite hfin ha (.inr h0), valUnits_of_isZero32 hz, Int.add_zero,
      Int.zero_add]
    exact ⟨round32_valUnits _ ha hval, round32_valUnits _ ha hval⟩

/-- Subtracting +0 copies every value: of two zeros the sum with -0 has the sign of the other (R142, R156). -/
theorem fsub32_zero (hn : isNan32 a = false) : fsub32 a 0#32 = a := by
  rw [fsub32_eq_fadd32 (by decide), BitVec.zero_xor]
  cases h0 : isZero32 a with
  | true =>
    obtain ⟨neg, rfl⟩ : ∃ neg, a = zero32 neg := ⟨_, eq_zero32_of_isZero32 h0⟩
    rw [fadd32_zeros h0 (by decide)]
    exact (zero32_and_zero32 neg true).trans (by rw [Bool.and_true])
  | false => exact (fadd32_zero hn h0 (by decide)).1

/-- Adding to +0 copies every value but -0 (R142, R156). -/
theorem zero_fadd32 (hn : isNan32 a = false) (hne : a ≠ 0x80000000#32) : fadd32 0#32 a = a := by
  cases h0 : isZero32 a with
  | true =>
    obtain ⟨neg, rfl⟩ : ∃ neg, a = zero32 neg := ⟨_, eq_zero32_of_isZero32 h0⟩
    cases neg with
    | true => exact absurd rfl hne
    | false => rw [fadd32_zeros (by decide) h0, BitVec.zero_and]; rfl
  | false => exact (fadd32_zero hn h0 (by decide)).2

/-- Settles O30: what the commands store is the copied operand, or the sum's own answer for a NaN and for two zeros. -/
theorem rawValueModeCopies : Obligations.RawValueModeCopies := by
  intro s d hf hpred
  rw [exec_resid d hf, exec_recon d hf, hpred]
  refine ⟨?copies, ?residNan, ?recon, ?negZero, ?reconNan⟩
  case copies => intro hn; rw [fsub32_zero hn]
  case residNan => intro hn; rw [fsub32_nan (.inl hn), qnan]
  case recon => intro hn hne; rw [zero_fadd32 hn hne]
  case negZero => intro h; rw [h, fadd32_zeros (by decide) (by decide), BitVec.zero_and]
  case reconNan => intro hn; rw [fadd32_nan (.inr hn), qnan]

end Sys2Proof.Machine
end

section
/-! PROOFS. Bit-stream packer and unpacker (spec/42_bitstream.md R170 to R178). -/

namespace Sys2Proof.Machine

variable {s : State} {cmd data : Word}

/-! ### Words with an `op` of the packer that spell no command (spec/30_encoding.md R93) -/

theorem rejected_of_spellsNothing (h : spellsNothing cmd data) : rejected cmd data := by
  obtain ⟨e, hd⟩ := decode_error_of_spellsNothing h
  exact rejected_of_error hd

/-- A command whose `idx` is unused (R93 (b)). -/
theorem rejected_of_idxField (hidx : idxField cmd ≠ 0#16)
    (hop : (opField cmd).toNat ∉ [0x02, 0x32, 0x34, 0x35, 0x36]) : rejected cmd data :=
  rejected_of_spellsNothing (.inr (.inr (.inl ⟨fun h => hidx (BitVec.eq_of_toNat_eq h), hop⟩)))

/-- `PUTBITS` and `GETBITS` use no `idx`, and their count is at most 32 (R93 (b), (c)). -/
theorem rejected_of_bitCommand (hop : opField cmd = 0x23#8 ∨ opField cmd = 0x24#8)
    (hbad : idxField cmd ≠ 0#16 ∨ 32 < (fField cmd).toNat) : rejected cmd data := by
  rcases hbad with hidx | hcount
  · exact rejected_of_idxField hidx (by rcases hop with hop | hop <;> rw [hop] <;> decide)
  · have hop' : (opField cmd).toNat = 0x23 ∨ (opField cmd).toNat = 0x24 :=
      hop.imp (congrArg BitVec.toNat) (congrArg BitVec.toNat)
    exact rejected_of_spellsNothing (.inr (.inr (.inr (.inr (.inl ⟨hop', hcount⟩)))))

/-! ### Pointer loads -/

/-- Settles O32: each rule compares `DATA` with the bits of `BUF` and stores it in its pointer. -/
theorem pointerLoadsCheckTheirBound : Obligations.PointerLoadsCheckTheirBound := by
  refine ⟨spelledBy_of_row .setwp (by decide) (fun _ _ _ => rfl) fun _ => rfl,
    spelledBy_of_row .setrp (by decide) (fun _ _ _ => rfl) fun _ => rfl,
    spelledBy_of_row .setrl (by decide) (fun _ _ _ => rfl) fun _ => rfl,
    fun s v hf => ⟨fun hle => ?inside, fun hlt => ?beyond⟩⟩
  case inside =>
    have hv : ¬ v.toNat > bufBits s := Nat.not_lt.2 hle
    exact ⟨exec_ok (u := { s with wptr := v }) rfl hf (if_neg hv),
      exec_ok (u := { s with rptr := v }) rfl hf (if_neg hv),
      exec_ok (u := { s with rlim := v }) rfl hf (if_neg hv)⟩
  case beyond =>
    exact ⟨exec_capacityExceeded rfl hf (if_pos hlt), exec_capacityExceeded rfl hf (if_pos hlt),
      exec_capacityExceeded rfl hf (if_pos hlt)⟩

/-! ### Bytes -/

/-- Settles O36: the byte put is the byte read at its address, and no other byte moves. -/
theorem byteStoreAndLoad : Obligations.ByteStoreAndLoad := by
  refine ⟨fun b v => decodeInvertsEncode (.stb b v) rfl,
    fun cmd d hop hidx => rejected_of_idxField hidx (by rw [hop]; decide),
    spelledBy_of_row .ldb (by decide) (fun _ _ _ => rfl) fun _ => rfl,
    fun s b addr hf => ⟨fun hlt => ?inside, fun hle => ?beyond⟩⟩
  case inside =>
    have ha : ¬ addr.toNat ≥ bufBytes s := Nat.not_le.2 hlt
    refine ⟨⟨_, exec_ok (u := { s with buf := putByte s.buf addr.toNat b }) rfl hf (if_neg ha), rfl, fun a => ?_⟩,
      exec_ok (u := { s with out := (byteAt s.buf addr.toNat).setWidth 32 }) rfl hf (if_neg ha)⟩
    simp only [complete_buf, byteAt_putByte, eq_comm]
  case beyond => exact ⟨exec_capacityExceeded rfl hf (if_pos hle), exec_capacityExceeded rfl hf (if_pos hle)⟩

/-! ### `PUTBITS` -/

/-- `s` after `bits` are appended at `WPTR` by one command (20_memory.md R65, R67). -/
def appended (s : State) (bits : List Bool) : State :=
  { s with
    buf := writeBits s.buf s.wptr.toNat bits
    wptr := BitVec.ofNat 32 (s.wptr.toNat + bits.length)
    cmdcnt := s.cmdcnt + 1#32 }

theorem exec_putbits {n : Byte} (v : Word) (hf : s.faulted = false) (h : s.wptr.toNat + n.toNat ≤ bufBits s) :
    exec (.putbits n v) s = .next (appended s (bitsOf n.toNat v)) := by
  rw [appended, length_bitsOf]
  exact exec_ok (i := .putbits n v) (u := { s with buf := _, wptr := _ }) rfl hf (if_neg (Nat.not_lt.2 h))

/-- Settles O34: the bits appended are the low bits of `DATA`, and the rule's bound is tested before the write. -/
theorem putbitsAppendsBits : Obligations.PutbitsAppendsBits := by
  refine ⟨fun n v hn => decodeInvertsEncode (.putbits n v) (decide_eq_true hn),
    fun cmd d hop => rejected_of_bitCommand (.inl hop), fun s n v hf hn => ⟨fun hle => ?room, fun hlt => ?beyond⟩⟩
  case room =>
    refine ⟨_, exec_putbits v hf hle, ?_, wroteBits_writeBits ..⟩
    rw [appended, length_bitsOf]
  case beyond => exact exec_capacityExceeded rfl hf (if_pos hlt)

/-! ### `GETBITS` -/

theorem exec_getbits {n : Byte} (d : Word) (hf : s.faulted = false) (h : s.rptr.toNat + n.toNat ≤ s.rlim.toNat) :
    exec (.getbits n d) s =
      .next { s with
        out := bitRead s.buf s.rptr.toNat n.toNat
        rptr := BitVec.ofNat 32 (s.rptr.toNat + n.toNat)
        cmdcnt := s.cmdcnt + 1#32 } :=
  exec_ok (i := .getbits n d) (u := { s with out := _, rptr := _ }) rfl hf (if_neg (Nat.not_lt.2 h))

theorem exec_getbits_beyond {n : Byte} (d : Word) (hf : s.faulted = false) (h : s.rlim.toNat < s.rptr.toNat + n.toNat) :
    exec (.getbits n d) s = .next (withFault s 4#4 (.getbits n d)) :=
  exec_error (c := .malformedContainer) rfl hf (if_pos h)

/-- Settles O35: `OUT` is the `BitRead` of the next bits, and `RLIM` is tested before it. -/
theorem getbitsReadsBits : Obligations.GetbitsReadsBits := by
  refine ⟨fun n d hn => decodeInvertsEncode (.getbits n d) (decide_eq_true hn),
    fun cmd d hop => rejected_of_bitCommand (.inr hop), fun s n d hf hn => ⟨fun hle => ?inside, fun hlt => ?beyond⟩⟩
  case inside => exact ⟨_, exec_getbits d hf hle, rfl, fun k => getLsbD_bitRead _ _ _ k hn⟩
  case beyond => exact exec_getbits_beyond d hf hlt

/-! ### Packing and unpacking (R177, R178) -/

/-- No offset inside `BUF` or at its end needs more than the 32 bits of a pointer (R8). -/
theorem State.Inv.bufBits_lt (hi : s.Inv) : bufBits s < 2 ^ 32 := by
  have hp := hi.params
  simp only [Config.Params.wf, Bool.and_eq_true, decide_eq_true_eq] at hp
  obtain ⟨⟨⟨⟨-, hbytes⟩, -⟩, -⟩, -⟩ := hp
  rw [bufBits, bufBytes]
  omega

/-- The bits that a run of `PUTBITS` packs, in order. -/
def chunkBits (chunks : List (Byte × Word)) : List Bool := chunks.flatMap fun c => bitsOf c.1.toNat c.2

/-- A run of `PUTBITS` that fits writes its bits as one run of bits at `WPTR` and moves `WPTR` past them. -/
theorem runs_putbits (chunks : List (Byte × Word)) (hf : s.faulted = false) (h32 : bufBits s < 2 ^ 32)
    (hfits : s.wptr.toNat + (chunkBits chunks).length ≤ bufBits s) :
    ∃ t, runs (chunks.map fun c => .putbits c.1 c.2) s t ∧ t.faulted = false ∧
      t.wptr.toNat = s.wptr.toNat + (chunkBits chunks).length ∧
      t.buf = writeBits s.buf s.wptr.toNat (chunkBits chunks) := by
  induction chunks generalizing s with
  | nil => exact ⟨s, rfl, hf, rfl, rfl⟩
  | cons c rest ih =>
    have hbits : chunkBits (c :: rest) = bitsOf c.1.toNat c.2 ++ chunkBits rest := List.flatMap_cons
    rw [hbits, List.length_append, length_bitsOf, ← Nat.add_assoc] at hfits
    have hwptr : (appended s (bitsOf c.1.toNat c.2)).wptr.toNat = s.wptr.toNat + c.1.toNat := by
      rw [appended, length_bitsOf, BitVec.toNat_ofNat, Nat.mod_eq_of_lt (by omega)]
    obtain ⟨t, hruns, hft, htw, htb⟩ := ih (s := appended s (bitsOf c.1.toNat c.2)) hf h32 (by rwa [hwptr])
    refine ⟨t, ⟨_, exec_putbits c.2 hf (by omega), hf, hruns⟩, hft, ?_, ?_⟩
    · rw [htw, hwptr, hbits, List.length_append, length_bitsOf, Nat.add_assoc]
    · rw [htb, hwptr, hbits, writeBits_append, length_bitsOf, appended]

/-- Settles O38: the run of `PUTBITS` is one run of bits in `BUF`, of which a `GETBITS` reads a part. -/
theorem packedBitsReadBack : Obligations.PackedBitsReadBack := by
  rintro s chunks bits hi hf - hbits hfits
  obtain rfl : bits = chunkBits chunks := hbits
  have h32 := hi.bufBits_lt
  obtain ⟨t, hruns, hft, hwptr, hbuf⟩ := runs_putbits chunks hf h32 hfits
  refine ⟨t, hruns, hwptr, fun off n hn hoff => ?chunk, exec_getbits_beyond _ hft (Nat.lt_succ_self _)⟩
  case chunk =>
    have hrptr : (BitVec.ofNat 32 (s.wptr.toNat + off)).toNat = s.wptr.toNat + off := by
      have : s.wptr.toNat + (chunkBits chunks).length ≤ bufBits s := hfits
      rw [BitVec.toNat_ofNat, Nat.mod_eq_of_lt (by omega)]
    refine ⟨_, exec_getbits _ hft (by dsimp only; omega), hft, fun k hk => ?_⟩
    have hin : off + k < (chunkBits chunks).length := by omega
    rw [getLsbD_bitRead _ _ _ _ hn, decide_eq_true hk, Bool.true_and, hrptr, hbuf, Nat.add_assoc,
      bitAt_writeBits_inside _ _ _ _ hin, List.getD_eq_getElem _ _ hin]

end Sys2Proof.Machine
end

section
/-! PROOFS. Code table and decision tree by entry and by node (spec/43_huffman_table.md R191 to R197). -/

namespace Sys2Proof.Machine

variable {s : State} {cmd data : Word}

/-! ### Words with an `op` of these commands that spell no command (spec/30_encoding.md R93) -/

/-- A command whose `f` is unused (R93 (b)). -/
theorem rejected_of_fField (hf : fField cmd ≠ 0#8)
    (hop : (opField cmd).toNat ∉ [0x23, 0x24, 0x25, 0x31, 0x32, 0x36]) : rejected cmd data :=
  rejected_of_spellsNothing (.inr (.inl ⟨fun h => hf (BitVec.eq_of_toNat_eq h), hop⟩))

/-- The field selectors of `CTRD` and `TRD` are at most 2 (R93 (c)). -/
theorem rejected_of_fieldSelector (hop : opField cmd = 0x32#8 ∨ opField cmd = 0x36#8) (hsel : 2 < (fField cmd).toNat) :
    rejected cmd data := by
  have hop' : (opField cmd).toNat = 0x32 ∨ (opField cmd).toNat = 0x36 :=
    hop.imp (congrArg BitVec.toNat) (congrArg BitVec.toNat)
  exact rejected_of_spellsNothing (.inr (.inr (.inr (.inr (.inr (.inr (.inr ⟨hop', hsel⟩)))))))

/-- `CTSET` uses no `idx`, its length is 1 to 32 and its code has no bit at or above the length (R93 (b), (c)). -/
theorem rejected_of_ctset (hop : opField cmd = 0x31#8)
    (hbad : idxField cmd ≠ 0#16 ∨ fField cmd = 0#8 ∨ 32 < (fField cmd).toNat ∨
      ((fField cmd).toNat < 32 ∧ data >>> (fField cmd).toNat ≠ 0#32)) : rejected cmd data := by
  have hop' : (opField cmd).toNat = 0x31 := congrArg BitVec.toNat hop
  have hlength (h : (fField cmd).toNat = 0 ∨ 32 < (fField cmd).toNat) : rejected cmd data :=
    rejected_of_spellsNothing (.inr (.inr (.inr (.inr (.inr (.inl ⟨hop', h⟩))))))
  rcases hbad with hidx | hzero | hlong | hcode
  · exact rejected_of_idxField hidx (by rw [hop]; decide)
  · exact hlength (.inl (congrArg BitVec.toNat hzero))
  · exact hlength (.inr hlong)
  · exact rejected_of_spellsNothing (.inr (.inr (.inr (.inr (.inr (.inr (.inl ⟨hop', hcode⟩)))))))

/-! ### `CTCLR` and `TCLR` -/

/-- Settles O39: each rule empties the list that holds its memory. -/
theorem ctclrAndTclrEmptyTheirMemory : Obligations.CtclrAndTclrEmptyTheirMemory :=
  ⟨spelledBy_of_row .ctclr (by decide) (fun _ _ _ => rfl) fun _ => rfl,
    spelledBy_of_row .tclr (by decide) (fun _ _ _ => rfl) fun _ => rfl,
    fun s _ hf => ⟨⟨_, exec_ok (u := { s with ct := [], ctn := 0#32 }) rfl hf rfl, rfl, cellAt_nil⟩,
      ⟨_, exec_ok (u := { s with tree := [] }) rfl hf rfl, rfl, cellAt_nil⟩⟩⟩

/-! ### `CTSET` -/

/-- With `SYM` in the table, the entry of `SYM` is replaced (R192). -/
theorem exec_ctset_replace {i : Nat} {e : CtEntry} (len : Byte) (code : Word) (hi : s.Inv) (hf : s.faulted = false)
    (hc : cellAt s.ct i = some e) (hsym : e.sym = s.sym) :
    exec (.ctset len code) s =
      .next { s with ct := putCell s.ct i (ctsetEntry s.sym len code), cmdcnt := s.cmdcnt + 1#32 } := by
  have he : entryOf s s.sym = some (i, e) := hsym ▸ entryOf_some hi hc
  exact exec_ok (u := { s with ct := putCell s.ct i (ctsetEntry s.sym len code) }) rfl hf (by simp [ruleOf, ctsetRule, he])

/-- Without it, the least invalid entry is filled and `CTN` counts it (R192). -/
theorem exec_ctset_fill {i : Nat} (len : Byte) (code : Word) (hi : s.Inv) (hf : s.faulted = false)
    (hnone : ∀ j e, cellAt s.ct j = some e → e.sym ≠ s.sym) (hlt : i < ctEntries s) (hfree : cellAt s.ct i = none)
    (hleast : ∀ j, j < i → cellAt s.ct j ≠ none) :
    exec (.ctset len code) s =
      .next { s with
        ct := putCell s.ct i (ctsetEntry s.sym len code), ctn := s.ctn + 1#32, cmdcnt := s.cmdcnt + 1#32 } := by
  have hsearch : leastFree s.ct (ctEntries s) 0 = some i := leastFree_eq (Nat.zero_le i) (by omega) hfree hleast
  exact exec_ok (u := { s with ct := putCell s.ct i (ctsetEntry s.sym len code), ctn := s.ctn + 1#32 }) rfl hf
    (by simp [ruleOf, ctsetRule, entryOf_none hi hnone, hsearch])

/-- Without it and with a full table, `CapacityExceeded` is raised (R192, 60_exceptions.md R273). -/
theorem exec_ctset_full (len : Byte) (code : Word) (hi : s.Inv) (hf : s.faulted = false)
    (hnone : ∀ j e, cellAt s.ct j = some e → e.sym ≠ s.sym) (hfull : ∀ i, i < ctEntries s → cellAt s.ct i ≠ none) :
    exec (.ctset len code) s = .next (withFault s 3#4 (.ctset len code)) := by
  have hsearch : leastFree s.ct (ctEntries s) 0 = none := leastFree_eq_none fun k hk => hfull k (by omega)
  exact exec_capacityExceeded rfl hf (by simp [ruleOf, ctsetRule, entryOf_none hi hnone, hsearch])

/-- A pair that decodes is not refused: delivered after power-on, its command does not record `IllegalCommand`. -/
theorem not_rejected_of_decode {i : Instr} (hd : decode cmd data = .ok i) : ¬ rejected cmd data := by
  intro h
  have hstep := (h { State.reset with inbox := [.command cmd data] } [] rfl).1 rfl
  rw [step_decoded rfl hd] at hstep
  exact exec_fcode_ne_one (s := { State.reset with inbox := [] }) rfl hstep rfl rfl

/-- Refutes O40: its second clause takes `DATA` from a natural number `d`, tests the bits of `d` at and above the length,
bits beyond the word among them, and delivers `d` modulo 2^32. With length 1 and `d = 2^32` the code tested is not 0, but the
code delivered is, so that the pair is a legal `CTSET`. What the clause says of a word is `rejected_of_ctset`, and what the
others say is `exec_ctset_replace`, `exec_ctset_fill` and `exec_ctset_full`. -/
theorem not_ctsetReplacesOrFillsTheLeast : ¬ Obligations.CtsetReplacesOrFillsTheLeast := by
  rintro ⟨-, hrejects, -⟩
  have hbits : ((2 ^ 32 >>> 1 : Nat) : Word) ≠ 0#32 := by decide
  have hrejected : rejected (cmdWord 0x31#8 1#8 0#16) ((2 ^ 32 : Nat) : Word) :=
    hrejects _ (2 ^ 32) (opField_cmdWord ..) (.inr (.inr (.inr (by rw [fField_cmdWord]; exact ⟨by decide, hbits⟩))))
  have hd : decode (cmdWord 0x31#8 1#8 0#16) ((2 ^ 32 : Nat) : Word) = .ok (.ctset 1#8 0#32) :=
    decodeInvertsEncode (.ctset 1#8 0#32) (by decide)
  exact not_rejected_of_decode hd hrejected

/-! ### `CTRD` -/

theorem exec_ctrd {i : Half} (field : CtField) (d : Word) (hf : s.faulted = false) (hi : i.toNat < ctEntries s) :
    exec (.ctrd field i d) s =
      .next { s with out := ctFieldValue (cellAt s.ct i.toNat) field, cmdcnt := s.cmdcnt + 1#32 } :=
  exec_ok (i := .ctrd field i d) (u := { s with out := _ }) rfl hf (if_neg (Nat.not_le.2 hi))

/-- Settles O41: `OUT` receives the field of what the table lists at the index. -/
theorem ctrdReadsAnEntry : Obligations.CtrdReadsAnEntry := by
  refine ⟨fun i d => ⟨?len, ?sym, ?code⟩, fun _ _ hop => rejected_of_fieldSelector (.inl hop),
    fun s i d hf => ⟨fun hlt => ⟨fun field hc => ?invalid, fun e hc => ?valid⟩, fun field hle => ?beyond⟩⟩
  case len => exact decodeInvertsEncode (.ctrd .len i d) rfl
  case sym => exact decodeInvertsEncode (.ctrd .sym i d) rfl
  case code => exact decodeInvertsEncode (.ctrd .code i d) rfl
  case invalid => rw [exec_ctrd field d hf hlt, hc]; rfl
  case valid =>
    have hread (field : CtField) := exec_ctrd field d hf hlt
    rw [hc] at hread
    exact ⟨hread .len, hread .sym, hread .code⟩
  case beyond => exact exec_capacityExceeded rfl hf (if_pos hle)

/-! ### `TLEAF` and `TINT` -/

/-- The command that stores a node at an index: `TLEAF` or `TINT`. -/
def nodeStore (i : Half) : Node → Instr
  | .leaf y => .tleaf i y
  | .internal l r => .tint i l r

theorem ruleOf_nodeStore (i : Half) (n : Node) : ruleOf (nodeStore i n) = putNodeRule i n := by cases n <;> rfl

theorem isSrst_nodeStore (i : Half) (n : Node) : isSrst (nodeStore i n) = false := by cases n <;> rfl

theorem exec_nodeStore {i : Half} (n : Node) (hf : s.faulted = false) (hi : i.toNat < treeNodes s) :
    exec (nodeStore i n) s =
      .next { s with tree := putCell s.tree i.toNat n, cmdcnt := s.cmdcnt + 1#32 } :=
  exec_ok (u := { s with tree := putCell s.tree i.toNat n }) (isSrst_nodeStore i n) hf
    (by rw [ruleOf_nodeStore]; exact if_neg (Nat.not_le.2 hi))

theorem exec_nodeStore_beyond {i : Half} (n : Node) (hf : s.faulted = false) (hi : treeNodes s ≤ i.toNat) :
    exec (nodeStore i n) s = .next (withFault s 3#4 (nodeStore i n)) :=
  exec_capacityExceeded (isSrst_nodeStore i n) hf (by rw [ruleOf_nodeStore]; exact if_pos hi)

/-- Settles O42: both commands store their node by one rule, which looks at the index alone. -/
theorem nodeStoresOverwrite : Obligations.NodeStoresOverwrite := by
  refine ⟨fun i d => ⟨?tleaf, ?tint⟩, fun cmd d hop hfield => ?rejects,
    fun s i y l r hf => ⟨fun hlt => ?inside, fun hle => ?beyond⟩⟩
  case tleaf => exact decodeInvertsEncode (.tleaf i d) rfl
  case tint =>
    have h := decodeInvertsEncode (.tint i (d.extractLsb' 16 16) (d.extractLsb' 0 16)) rfl
    rwa [encode, append_halves] at h
  case rejects => exact rejected_of_fField hfield (by rcases hop with hop | hop <;> rw [hop] <;> decide)
  case inside =>
    exact ⟨⟨_, exec_nodeStore (.leaf y) hf hlt, rfl, fun n => by simp only [cellAt_putCell, eq_comm]⟩,
      ⟨_, exec_nodeStore (.internal l r) hf hlt, rfl, fun n => by simp only [cellAt_putCell, eq_comm]⟩⟩
  case beyond => exact ⟨exec_nodeStore_beyond (.leaf y) hf hle, exec_nodeStore_beyond (.internal l r) hf hle⟩

/-! ### `TRD` -/

theorem exec_trd {i : Half} (field : TreeField) (d : Word) (hf : s.faulted = false) (hi : i.toNat < treeNodes s) :
    exec (.trd field i d) s =
      .next { s with out := treeFieldValue (cellAt s.tree i.toNat) field, cmdcnt := s.cmdcnt + 1#32 } :=
  exec_ok (i := .trd field i d) (u := { s with out := _ }) rfl hf (if_neg (Nat.not_le.2 hi))

/-- Settles O43: `OUT` receives the field of what the tree lists at the index, in each of the three kinds. -/
theorem trdReadsANode : Obligations.TrdReadsANode := by
  refine ⟨fun i d => ⟨?kind, ?sym, ?kids⟩, fun _ _ hop => rejected_of_fieldSelector (.inr hop),
    fun s i d hf => ⟨fun out hlt => ?inside, fun field hle => ?beyond⟩⟩
  case kind => exact decodeInvertsEncode (.trd .kind i d) rfl
  case sym => exact decodeInvertsEncode (.trd .sym i d) rfl
  case kids => exact decodeInvertsEncode (.trd .kids i d) rfl
  case inside =>
    have hread (field : TreeField) := exec_trd field d hf hlt
    rintro (⟨hc, rfl⟩ | ⟨y, hc, rfl⟩ | ⟨l, r, hc, rfl⟩) <;> rw [hc] at hread <;>
      exact ⟨hread .kind, hread .sym, hread .kids⟩
  case beyond => exact exec_capacityExceeded rfl hf (if_pos hle)

end Sys2Proof.Machine
end

section
/-! PROOFS. `CGEN`: the table it makes of a tree, and what it raises (spec/43_huffman_table.md R198, R201, R202). -/

namespace Sys2Proof.Machine

variable {i : Instr} {s t : State} {tr : HTree}

/-! ### `CGEN` as a whole -/

/-- What a command but `SRST` did when it left the block running: its rule completed. -/
theorem ruleOf_of_exec_running (hs : isSrst i = false) (h : exec i s = .next t) (hf : s.faulted = false)
    (ht : t.faulted = false) : ∃ u, ruleOf i s = .ok u ∧ t = complete u := by
  rw [exec_running hs hf] at h
  rcases runCommand_cases h with ⟨hf', -⟩ | ⟨-, hu⟩ | ⟨-, c, -, rfl⟩
  · simp [hf] at hf'
  · exact hu
  · simp at ht

/-- `s` after `CGEN` has made the table of a tree (R198). -/
def withTable (s : State) (tr : HTree) : State :=
  { s with
    ct := numberedFrom 0 ((treeCodes tr).map codeEntry)
    ctn := BitVec.ofNat 32 (treeCodes tr).length
    cmdcnt := s.cmdcnt + 1#32 }

/-- Row `k` of the table is the entry of the tree's code number `k`. -/
theorem cellAt_withTable (s : State) (tr : HTree) (k : Nat) :
    cellAt (withTable s tr).ct k = ((treeCodes tr)[k]?).map codeEntry := by
  have h := cellAt_numberedFrom 0 k ((treeCodes tr).map codeEntry)
  rwa [Nat.zero_add, List.getElem?_map] at h

theorem exec_cgen (d : Word) (hf : s.faulted = false) (h : cgenRows s = .ok ((treeCodes tr).map codeEntry)) :
    exec (.cgen d) s = .next (withTable s tr) := by
  refine exec_ok (u := { s with ct := numberedFrom 0 ((treeCodes tr).map codeEntry),
                                ctn := BitVec.ofNat 32 (treeCodes tr).length }) rfl hf ?_
  simp only [ruleOf, cgenRule, h, List.length_map]

theorem exec_cgen_capacityExceeded (d : Word) (hf : s.faulted = false) (h : cgenRows s = .error .capacityExceeded) :
    exec (.cgen d) s = .next (withFault s 3#4 (.cgen d)) :=
  exec_capacityExceeded rfl hf (by rw [ruleOf, cgenRule, h])

/-- What `CGEN` found when it completed: a tree at node 0 that passes the checks, and its table is the one made. -/
theorem tree_of_exec_cgen {d : Word} (hf : s.faulted = false) (h : exec (.cgen d) s = .next t) (ht : t.faulted = false) :
    ∃ tr, holdsTree s 0 tr ∧ treeDepth tr ≤ 32 ∧ (treeSyms tr).Nodup ∧
      ((treeSyms tr).length ≤ ctEntries s ∨ ∃ y, tr = .leaf y) ∧ t = withTable s tr := by
  obtain ⟨u, hu, rfl⟩ := ruleOf_of_exec_running rfl h hf ht
  obtain ⟨rows, hrows, rfl⟩ := cgenRule_ok hu
  obtain ⟨tr, hheld, hdepth, hnodup, hroom, rfl⟩ := cgenRows_ok hrows
  exact ⟨tr, hheld, hdepth, hnodup, hroom, by rw [withTable, List.length_map]; rfl⟩

/-- Settles O44: the walk makes the rows of the tree's codes, and row `k` is stored at index `k`. -/
theorem cgenMakesTheCodesOfTheTree : Obligations.CgenMakesTheCodesOfTheTree := by
  refine ⟨spelledBy_of_row .cgen (by decide) (fun _ _ _ => rfl) fun _ => rfl, fun s d tr hf hheld hdepth hnodup hroom => ?_⟩
  exact ⟨_, exec_cgen d hf (cgenRows_of_holds hheld hdepth hnodup (.inl hroom)), rfl, cellAt_withTable s tr⟩

/-- Settles O45: a walk that completes has found the tree whose codes it answers. -/
theorem cgenCompletesOnlyOnATree : Obligations.CgenCompletesOnlyOnATree := by
  intro s t d hf h ht
  obtain ⟨tr, hheld, hdepth, hnodup, hroom, rfl⟩ := tree_of_exec_cgen hf h ht
  exact ⟨tr, hheld, hdepth, hnodup, hroom, cellAt_withTable s tr⟩

/-! ### Codewords that would be too long -/

/-- One step of `walk` by the paths of the two children: it ends in the cause the left child raises. -/
theorem cgenWalk_of_left_error {room : Nat} {a b : Half} {bits : List Bool} {rows : List CtEntry} {c : Cause}
    (hb : bits.length + (room + 1) = 32)
    (h : cgenChild s (bits ++ [false]).length (cgenWalk s room) a (BitVec.ofNat 32 (natOfBits (bits ++ [false]))) rows =
      .error c) :
    cgenWalk s (room + 1) a b (BitVec.ofNat 32 (natOfBits bits)) rows = .error c := by
  have hdepth : Config.codeMax - room = (bits ++ [false]).length := by simp [Config.codeMax]; omega
  rw [natOfBits_false, ← hdepth] at h
  simp only [cgenWalk, h]

/-- One step of `walk` past a left child that gives its rows: it answers what the right child answers after them. -/
theorem cgenWalk_of_left_ok {room : Nat} {a b : Half} {bits : List Bool} {rows rows' : List CtEntry}
    (hb : bits.length + (room + 1) = 32)
    (h : cgenChild s (bits ++ [false]).length (cgenWalk s room) a (BitVec.ofNat 32 (natOfBits (bits ++ [false]))) rows =
      .ok rows') :
    cgenWalk s (room + 1) a b (BitVec.ofNat 32 (natOfBits bits)) rows =
      cgenChild s (bits ++ [true]).length (cgenWalk s room) b (BitVec.ofNat 32 (natOfBits (bits ++ [true]))) rows' := by
  have hdepth : Config.codeMax - room = bits.length + 1 := by simp [Config.codeMax]; omega
  have hbit : Config.codeMax - 1 - room = bits.length := by simp [Config.codeMax]; omega
  rw [natOfBits_false, List.length_append, List.length_singleton] at h
  rw [natOfBits_true, List.length_append, List.length_singleton]
  simp only [cgenWalk, hdepth, hbit, h]

/-- A child that is deeper than the room left for it: an internal node, at which the walk goes on. -/
theorem cgenChild_of_deep {room : Nat} {c : Half} {bits : List Bool} {rows : List CtEntry}
    (hheld : holdsTree s c.toNat tr) (hdeep : room < treeDepth tr)
    (hd : ∀ a b l r, tr = .node l r → holdsTree s a.toNat l → holdsTree s b.toNat r →
      cgenWalk s room a b (BitVec.ofNat 32 (natOfBits bits)) rows = .error .capacityExceeded) :
    cgenChild s bits.length (cgenWalk s room) c (BitVec.ofNat 32 (natOfBits bits)) rows = .error .capacityExceeded := by
  cases tr with
  | leaf y => simp [treeDepth] at hdeep
  | node l r =>
    obtain ⟨a, b, hx, ha, hb⟩ := hheld
    simp only [cgenChild, hx]
    exact hd a b l r rfl ha hb

theorem map_sym_codeEntry_codesFrom (bits : List Bool) (tr : HTree) :
    ((codesFrom bits tr).map codeEntry).map (·.sym) = treeSyms tr := by
  rw [List.map_map, ← map_fst_codesFrom bits tr]; rfl

/-- `walk` on two subtrees of fresh symbols with room for them, one of them too deep: it raises `CapacityExceeded` at the
first internal node at depth 32, since the leaves before it pass the other checks (R198, R273). -/
theorem cgenWalk_of_deep {room : Nat} {a b : Half} {bits : List Bool} {rows : List CtEntry} {l r : HTree}
    (hb : bits.length + room = 32) (hdeep : room < treeDepth (.node l r)) (hl : holdsTree s a.toNat l)
    (hr : holdsTree s b.toNat r) (hn : (rows.map (·.sym) ++ treeSyms (.node l r)).Nodup)
    (hc : rows.length + (treeSyms (.node l r)).length ≤ ctEntries s) :
    cgenWalk s room a b (BitVec.ofNat 32 (natOfBits bits)) rows = .error .capacityExceeded := by
  induction room generalizing a b bits rows l r with
  | zero => rfl
  | succ room ih =>
    simp only [treeDepth, Nat.add_lt_add_iff_right, lt_max_iff] at hdeep
    simp only [treeSyms, List.length_append, ← List.append_assoc] at hn hc
    have hnl : (rows.map (·.sym) ++ treeSyms l).Nodup := hn.of_append_left
    by_cases hleft : room < treeDepth l
    · -- The left subtree is too deep.
      refine cgenWalk_of_left_error hb (cgenChild_of_deep hl hleft ?_)
      rintro x y l₁ l₂ rfl hx hy
      exact ih (by simp; omega) hleft hx hy hnl (by omega)
    · -- The left subtree gives its rows, and the right one is too deep.
      have hright : room < treeDepth r := hdeep.resolve_left hleft
      have hrows := cgenChild_of_holds (bits := bits ++ [false]) (descend := cgenWalk s room) hl hnl (by omega) (by
        rintro x y l₁ l₂ rfl hx hy
        exact cgenWalk_of_holds (by simp; omega) (Nat.not_lt.1 hleft) hx hy hnl (by omega))
      rw [cgenWalk_of_left_ok hb hrows]
      refine cgenChild_of_deep hr hright ?_
      rintro x y r₁ r₂ rfl hx hy
      refine ih (by simp; omega) hright hx hy ?_ (by simp; omega)
      rwa [List.map_append, map_sym_codeEntry_codesFrom]

/-- Settles O46: such a tree has an internal root, from which the walk raises the cause. -/
theorem deepTreesExceedTheCodeLength : Obligations.DeepTreesExceedTheCodeLength := by
  intro s d tr hf hheld hdeep hnodup hroom
  cases tr with
  | leaf y => simp [treeDepth] at hdeep
  | node l r =>
    obtain ⟨a, b, hx, hl, hr⟩ := hheld
    have hwalk := cgenWalk_of_deep (bits := []) (rows := []) (Nat.zero_add 32) hdeep hl hr hnodup
      ((Nat.zero_add _).trans_le hroom)
    exact exec_cgen_capacityExceeded d hf (by simp only [cgenRows, hx]; exact hwalk)

/-! ### More leaves than the table has entries -/

/-- A leaf with a fresh symbol finds no room in a full table (R198, R273). -/
theorem cgenChild_full {depth : Nat} {descend : Half → Half → Word → List CtEntry → Except Cause (List CtEntry)}
    {k : Half} {p y : Word} {rows : List CtEntry} (hx : nodeAt s k.toNat = some (.leaf y))
    (hfresh : y ∉ rows.map (·.sym)) (hfull : rows.length = ctEntries s) :
    cgenChild s depth descend k p rows = .error .capacityExceeded := by
  have hany : rows.any (fun e => e.sym == y) = false := by simpa using hfresh
  simp [cgenChild, hx, hany, hfull]

/-- Settles O57: the walk comes to leaf number `CT_ENTRIES` with a full table. -/
theorem tooManyLeavesExceedTheTable : Obligations.TooManyLeavesExceedTheTable := by
  intro s d l r hf hheld hdepth hnodup hmany
  obtain ⟨w, m, y, hway, hx, hlen, hprefix, hwdepth⟩ := way_to_leaf hheld hmany
  have hpassed : (waySyms w ++ [y]).Nodup := hnodup.sublist hprefix.sublist
  have hw : w ≠ .here := by
    rintro rfl
    obtain ⟨a, b, hroot, -⟩ := hheld
    rw [leadsTo] at hway
    subst hway
    simp [hroot] at hx
  refine exec_cgen_capacityExceeded d hf (cgenRows_of_way hw hway (hwdepth.trans hdepth) hpassed.of_append_left hlen.le ?_)
  rintro rows depth descend k p hrows rfl
  refine cgenChild_full hx ?_ ?_
  · rw [hrows]
    exact fun hy => List.disjoint_of_nodup_append hpassed hy (List.mem_singleton_self y)
  · rw [ctEntries, ← hlen, ← hrows, List.length_map]

/-! ### The codes of a table -/

/-- The codes of a tree with an internal root and distinct symbols: no two share a symbol, and no codeword begins another
(R202). -/
theorem codes_apart {l r : HTree} (hnodup : (treeSyms (.node l r)).Nodup) {j k : Nat} {c c' : Word × List Bool}
    (hj : (treeCodes (.node l r))[j]? = some c) (hk : (treeCodes (.node l r))[k]? = some c') (hne : j ≠ k) :
    c.1 ≠ c'.1 ∧ ¬ c.2 <+: c'.2 := by
  have hsyms : ((treeCodes (.node l r)).map (·.1)).Nodup := by rwa [map_fst_treeCodes]
  have hprefix := List.pairwise_iff_getElem.1 (codesFrom_prefix_free [] (.node l r))
  obtain ⟨hjlt, rfl⟩ := List.getElem?_eq_some_iff.1 hj
  obtain ⟨hklt, rfl⟩ := List.getElem?_eq_some_iff.1 hk
  constructor
  · exact fun heq => hne ((hsyms.getElem_inj_iff (hi := by simpa) (hj := by simpa)).1 (by simpa using heq))
  · rcases Nat.lt_or_gt_of_ne hne with hlt | hgt
    · exact (hprefix j k hjlt hklt hlt).1
    · exact (hprefix k j hklt hjlt hgt).2

/-- A code of a tree no deeper than 32 has at most 32 bits, the lone leaf's among them. -/
theorem length_treeCode_le (hd : treeDepth tr ≤ 32) {c : Word × List Bool} (hc : c ∈ treeCodes tr) :
    c.2.length ≤ 32 := by
  cases tr with
  | leaf y => simp [treeCodes] at hc; simp [hc]
  | node l r => have := (length_code_le hc).2; simp at this; omega

/-- Settles O51: the table is that of a tree, and a row's codeword is the tree's. -/
theorem generatedTableIsPrefixFree : Obligations.GeneratedTableIsPrefixFree := by
  intro s t d a b hf hx h ht j k e f hj hk hne
  obtain ⟨tr, hheld, hdepth, hnodup, -, rfl⟩ := tree_of_exec_cgen hf h ht
  rw [cellAt_withTable, Option.map_eq_some_iff] at hj hk
  obtain ⟨c, hj, rfl⟩ := hj
  obtain ⟨c', hk, rfl⟩ := hk
  cases tr with
  | leaf y => simp [holdsTree, hx] at hheld
  | node l r =>
    rw [entryBits_codeEntry (length_treeCode_le hdepth (List.mem_of_getElem? hj)),
      entryBits_codeEntry (length_treeCode_le hdepth (List.mem_of_getElem? hk))]
    exact codes_apart hnodup hj hk hne

end Sys2Proof.Machine
end

section
/-! PROOFS. `ENC` and `DEC`: the codeword of a symbol written, and the path of a leaf followed (spec/43_huffman_table.md R199
to R202). -/

namespace Sys2Proof.Machine

variable {s t u : State} {tr : HTree} {c : Cause}

/-! ### `ENC` -/

theorem length_entryBits (e : CtEntry) : (entryBits e).length = e.len.toNat := length_bitsOf e.len.toNat e.code

theorem exec_enc {j : Nat} {e : CtEntry} (d : Word) (hf : s.faulted = false) (hn : s.ctn ≠ 0#32)
    (he : entryOf s s.sym = some (j, e)) (hfits : s.wptr.toNat + e.len.toNat ≤ bufBits s) :
    exec (.enc d) s = .next (appended s (entryBits e)) := by
  rw [appended, length_entryBits]
  refine exec_ok (i := .enc d) (u := { s with buf := writeBits s.buf s.wptr.toNat (entryBits e), wptr := _ }) rfl hf ?_
  simp only [ruleOf, encRule, hn, he, if_neg (Nat.not_lt.2 hfits), if_false]
  rfl

theorem exec_enc_error (d : Word) (hf : s.faulted = false) (h : encRule s = .error c) :
    exec (.enc d) s = .next (withFault s (causeCode c) (.enc d)) :=
  exec_error rfl hf h

/-- What `ENC` did when it left the block running: it appended the codeword of an entry of `SYM` that fits. -/
theorem entry_of_exec_enc {d : Word} (hf : s.faulted = false) (h : exec (.enc d) s = .next t) (ht : t.faulted = false) :
    ∃ cell ∈ s.ct, cell.2.sym = s.sym ∧ s.wptr.toNat + (entryBits cell.2).length ≤ bufBits s ∧
      t = appended s (entryBits cell.2) := by
  obtain ⟨u, hu, rfl⟩ := ruleOf_of_exec_running rfl h hf ht
  obtain ⟨-, j, e, he, hfits, rfl⟩ := encRule_ok hu
  obtain ⟨hmem, hsym⟩ := entryOf_mem he
  refine ⟨(j, e), hmem, hsym, by rwa [length_entryBits], ?_⟩
  rw [appended, length_entryBits]
  rfl

/-- Settles O48: under the invariant the search finds the entry of `SYM` where the table lists one, and then `CTN` is not
0; the rule makes its checks in the order of R199. -/
theorem encAppendsTheCodeword : Obligations.EncAppendsTheCodeword := by
  refine ⟨spelledBy_of_row .enc (by decide) (fun _ _ _ => rfl) fun _ => rfl,
    fun s d hi hf => ⟨fun j e hc hsym => ?entry, fun hn hnone => ?unknown, fun hn => ?empty⟩⟩
  case entry =>
    have hn := ctn_ne_zero hi hc
    have he : entryOf s s.sym = some (j, e) := hsym ▸ entryOf_some hi hc
    refine ⟨fun hfits => ⟨_, exec_enc d hf hn he hfits, ?_, wroteBits_writeBits ..⟩, fun hlt => ?_⟩
    · rw [appended, length_entryBits]
    · exact exec_enc_error (c := .capacityExceeded) d hf (by simp only [encRule, if_neg hn, he]; exact if_pos hlt)
  case unknown =>
    exact exec_enc_error (c := .unknownSymbol) d hf (by simp only [encRule, if_neg hn, entryOf_none hi hnone])
  case empty => exact exec_enc_error (c := .emptyAlphabet) d hf (if_pos hn)

/-! ### `DEC` -/

/-- `s` after one `DEC` of symbol `y` whose codeword ends at `p` (R200). -/
def decoded (s : State) (y : Word) (p : Nat) : State :=
  { s with sym := y, rptr := BitVec.ofNat 32 p, cmdcnt := s.cmdcnt + 1#32 }

theorem exec_dec {y : Word} {p : Nat} (d : Word) (hf : s.faulted = false) (h : decSymbol s = .ok (y, p)) :
    exec (.dec d) s = .next (decoded s y p) :=
  exec_ok (u := { s with sym := y, rptr := BitVec.ofNat 32 p }) rfl hf (by simp only [ruleOf, decRule, h])

theorem exec_dec_error (d : Word) (hf : s.faulted = false) (h : decSymbol s = .error c) :
    exec (.dec d) s = .next (withFault s (causeCode c) (.dec d)) :=
  exec_error rfl hf (by simp only [ruleOf, decRule, h])

/-- A lone leaf takes one bit, whatever it is (R200, R201). -/
theorem decSymbol_of_lone_leaf {y : Word} (hx : nodeAt s 0 = some (.leaf y)) (hl : s.rptr.toNat + 1 ≤ s.rlim.toNat) :
    decSymbol s = .ok (y, s.rptr.toNat + 1) := by
  simp only [decSymbol, hx, if_neg (Nat.not_lt.2 hl)]

/-- At a codeword of the tree that `TREE` holds, `DEC` answers its symbol and the position after it (R200, R201). -/
theorem decSymbol_of_code {y : Word} {path : List Bool} (hheld : holdsTree s 0 tr) (hc : (y, path) ∈ treeCodes tr)
    (hbits : ∀ k (h : k < path.length), bitAt s.buf (s.rptr.toNat + k) = path[k])
    (hl : s.rptr.toNat + path.length ≤ s.rlim.toNat) : decSymbol s = .ok (y, s.rptr.toNat + path.length) := by
  cases tr with
  | leaf y' =>
    obtain ⟨rfl, rfl⟩ : y = y' ∧ path = [false] := by simpa [treeCodes] using hc
    exact decSymbol_of_lone_leaf hheld hl
  | node l r =>
    obtain ⟨a, b, hx, ha, hb⟩ := hheld
    simp only [decSymbol, hx]
    exact decWalk_of_code ha hb hc hbits (by omega)

/-- With a node at the root and no bit before `RLIM`, `DEC` finds the stream at its end (R200, R274). -/
theorem decSymbol_at_end {x : Node} (hx : nodeAt s 0 = some x) (hl : s.rlim.toNat ≤ s.rptr.toNat) :
    decSymbol s = .error .malformedContainer := by
  cases x with
  | leaf y => simp only [decSymbol, hx, if_pos (Nat.lt_succ_of_le hl)]
  | internal a b => simp only [decSymbol, hx, Nat.sub_eq_zero_of_le hl, decWalk]

/-- Settles O49: the path of a leaf leads the walk to its symbol, and a lone leaf is answered before any bit is read. -/
theorem decFollowsThePath : Obligations.DecFollowsThePath :=
  ⟨spelledBy_of_row .dec (by decide) (fun _ _ _ => rfl) fun _ => rfl, fun _ d hf =>
    ⟨fun _ _ _ _ hheld hc hbits hl => exec_dec d hf (decSymbol_of_code hheld hc hbits hl),
      fun _ hheld hl => exec_dec d hf (decSymbol_of_lone_leaf hheld hl)⟩⟩

/-- A descent that ends at an internal node begins at one. -/
theorem nodeAt_of_descendsTo {bits : List Bool} {n m : Nat} {l r : Half} (hd : descendsTo s bits n m)
    (hx : nodeAt s m = some (.internal l r)) : ∃ a b : Half, nodeAt s n = some (.internal a b) := by
  cases bits with
  | nil => rw [descendsTo] at hd; exact ⟨l, r, hd ▸ hx⟩
  | cons b bits => obtain ⟨a, b, hn, -⟩ := hd; exact ⟨a, b, hn⟩

/-- Settles O58: the walk goes where the bits lead and has no bit left there. -/
theorem decFaultsInsideACodeword : Obligations.DecFaultsInsideACodeword := by
  intro s d bits m l r hf hbits hend hd hm
  obtain ⟨a, b, hx⟩ := nodeAt_of_descendsTo hd hm
  have hlen : s.rlim.toNat - s.rptr.toNat = bits.length := by omega
  have hwalk := (decWalk_of_descent hx hbits le_rfl hd).2 l r hm
  rw [Nat.sub_self, decWalk] at hwalk
  exact exec_dec_error (c := .malformedContainer) d hf (by simp only [decSymbol, hx, hlen, hwalk])

/-! ### `DEC` undoes `ENC` (R202) -/

/-- The bitstream of a list of codes: their codewords one after the other. -/
def streamOf (codes : List (Word × List Bool)) : List Bool := codes.flatMap (·.2)

theorem streamOf_cons (code : Word × List Bool) (codes : List (Word × List Bool)) :
    streamOf (code :: codes) = code.2 ++ streamOf codes := List.flatMap_cons

/-- `WPTR` after bits that fit `BUF` are appended. -/
theorem toNat_wptr_appended {bits : List Bool} (h32 : bufBits s < 2 ^ 32) (hfits : s.wptr.toNat + bits.length ≤ bufBits s) :
    (appended s bits).wptr.toNat = s.wptr.toNat + bits.length := by
  rw [appended, BitVec.toNat_ofNat, Nat.mod_eq_of_lt (by omega)]

/-- A tree is held as long as neither `TREE` nor its size changes. -/
theorem holdsTree_of_eq {n : Nat} (hp : t.params = s.params) (ht : t.tree = s.tree) (h : holdsTree s n tr) :
    holdsTree t n tr := (holdsTree_congr (nodeAt_congr hp ht) n tr).2 h

/-- `SETSYM` and `ENC` with a tree's table append the codeword that the tree has for the symbol. -/
theorem code_of_exec_setsym_enc {y d : Word} {s₁ : State} (hf : s.faulted = false) (h32 : bufBits s < 2 ^ 32)
    (hd : treeDepth tr ≤ 32) (hct : ∀ cell ∈ s.ct, ∃ code ∈ treeCodes tr, cell.2 = codeEntry code)
    (hset : exec (.setsym y) s = .next s₁) (henc : exec (.enc d) s₁ = .next t) (ht : t.faulted = false) :
    ∃ code ∈ treeCodes tr, code.1 = y ∧ t.buf = writeBits s.buf s.wptr.toNat code.2 ∧
      t.wptr.toNat = s.wptr.toNat + code.2.length ∧ t.ct = s.ct ∧ t.params = s.params ∧ t.tree = s.tree := by
  rw [exec_ok (i := .setsym y) (u := { s with sym := y }) rfl hf rfl, Host.Outcome.next.injEq] at hset
  subst hset
  obtain ⟨cell, hmem, hsym, hfits, rfl⟩ := entry_of_exec_enc (s := complete { s with sym := y }) hf henc ht
  obtain ⟨code, hcode, hcell⟩ := hct cell hmem
  rw [hcell, codeEntry_sym] at hsym
  rw [hcell, entryBits_codeEntry (length_treeCode_le hd hcode)] at hfits ⊢
  exact ⟨code, hcode, hsym, rfl, toNat_wptr_appended h32 hfits, rfl, rfl, rfl⟩

/-- A run of `ENC` with a tree's table writes at `WPTR`, as one run of bits, the codewords that the tree has for the
symbols, and moves `WPTR` past them. -/
theorem codes_of_runs_enc {syms : List Word} (hf : s.faulted = false) (h32 : bufBits s < 2 ^ 32) (hd : treeDepth tr ≤ 32)
    (hct : ∀ cell ∈ s.ct, ∃ code ∈ treeCodes tr, cell.2 = codeEntry code)
    (h : runs (syms.flatMap fun y => [.setsym y, .enc 0#32]) s u) :
    ∃ codes, codes.map (·.1) = syms ∧ (∀ code ∈ codes, code ∈ treeCodes tr) ∧
      u.buf = writeBits s.buf s.wptr.toNat (streamOf codes) ∧
      u.wptr.toNat = s.wptr.toNat + (streamOf codes).length ∧ u.faulted = false ∧ u.params = s.params ∧
      u.tree = s.tree := by
  induction syms generalizing s with
  | nil =>
    obtain rfl : u = s := h
    exact ⟨[], rfl, by simp, rfl, rfl, hf, rfl, rfl⟩
  | cons y syms ih =>
    obtain ⟨s₁, hset, -, s₂, henc, hf₂, hrest⟩ := h
    obtain ⟨code, hcode, hsym, hbuf₂, hwptr₂, hct₂, hparams₂, htree₂⟩ :=
      code_of_exec_setsym_enc hf h32 hd hct hset henc hf₂
    obtain ⟨codes, hsyms, hcodes, hbuf, hwptr, hfu, hparams, htree⟩ :=
      ih hf₂ (by rwa [bufBits_congr hparams₂]) (by rwa [hct₂]) hrest
    refine ⟨code :: codes, by rw [List.map_cons, hsym, hsyms], List.forall_mem_cons.2 ⟨hcode, hcodes⟩, ?_, ?_, hfu,
      hparams.trans hparams₂, htree.trans htree₂⟩
    · rw [hbuf, hbuf₂, hwptr₂, streamOf_cons, writeBits_append]
    · rw [hwptr, hwptr₂, streamOf_cons, List.length_append, Nat.add_assoc]

/-- As many `DEC` as codes follow a bitstream of codewords of the tree, and end after it. -/
theorem decodesTo_of_stream {codes : List (Word × List Bool)} (hf : s.faulted = false) (hheld : holdsTree s 0 tr)
    (hcodes : ∀ code ∈ codes, code ∈ treeCodes tr)
    (hbits : ∀ k (h : k < (streamOf codes).length), bitAt s.buf (s.rptr.toNat + k) = (streamOf codes)[k])
    (hl : s.rptr.toNat + (streamOf codes).length ≤ s.rlim.toNat) :
    ∃ v, decodesTo (codes.map (·.1)) s v ∧ v.faulted = false ∧ v.rlim = s.rlim ∧
      v.rptr.toNat = s.rptr.toNat + (streamOf codes).length ∧ nodeAt v 0 = nodeAt s 0 := by
  induction codes generalizing s with
  | nil => exact ⟨s, rfl, hf, rfl, rfl, rfl⟩
  | cons code codes ih =>
    obtain ⟨hcode, hcodes⟩ := List.forall_mem_cons.1 hcodes
    simp only [streamOf_cons, List.length_append] at hbits hl
    have hdec : decSymbol s = .ok (code.1, s.rptr.toNat + code.2.length) :=
      decSymbol_of_code hheld hcode (fun k hk => by rw [hbits k (by omega), List.getElem_append_left hk]) (by omega)
    have hrptr : (decoded s code.1 (s.rptr.toNat + code.2.length)).rptr.toNat = s.rptr.toNat + code.2.length := by
      rw [decoded, BitVec.toNat_ofNat, Nat.mod_eq_of_lt (by omega)]
    obtain ⟨v, hruns, hfv, hrlim, hend, hroot⟩ := ih (s := decoded s code.1 (s.rptr.toNat + code.2.length)) hf
      (holdsTree_of_eq (s := s) rfl rfl hheld) hcodes
      (fun k hk => by
        rw [hrptr, Nat.add_assoc]
        refine (hbits _ (by omega)).trans ?_
        rw [List.getElem_append_right (by omega)]
        simp only [Nat.add_sub_cancel_left])
      (by rw [hrptr, Nat.add_assoc]; exact hl)
    refine ⟨v, ⟨_, exec_dec 0#32 hf hdec, hf, rfl, hruns⟩, hfv, hrlim, ?_, hroot⟩
    rw [hend, hrptr, streamOf_cons, List.length_append, Nat.add_assoc]

/-- Settles O52: `ENC` writes the codewords of the tree's codes, `DEC` follows their bits on the same `TREE`, and after the
last one the stream is at its end. -/
theorem decInvertsEnc : Obligations.DecInvertsEnc := by
  intro s₀ s u d syms hi hf hgen hfs henc
  obtain ⟨tr, hheld, hdepth, -, -, rfl⟩ := tree_of_exec_cgen hf hgen hfs
  have htable : ∀ cell ∈ (withTable s₀ tr).ct, ∃ code ∈ treeCodes tr, cell.2 = codeEntry code := by
    intro cell hcell
    obtain ⟨code, hcode, heq⟩ := List.mem_map.1 (mem_numberedFrom hcell).2.2
    exact ⟨code, hcode, heq.symm⟩
  obtain ⟨codes, rfl, hcodes, hbuf, hwptr, hfu, hparams, htree⟩ := codes_of_runs_enc hfs hi.bufBits_lt hdepth htable henc
  have hheld' : holdsTree u 0 tr := holdsTree_of_eq (s := s₀) hparams htree hheld
  obtain ⟨v, hruns, hfv, hrlim, hend, hroot⟩ := decodesTo_of_stream
    (s := { u with rptr := (withTable s₀ tr).wptr, rlim := u.wptr }) hfu
    (holdsTree_of_eq (s := u) rfl rfl hheld') hcodes
    (fun k hk => by rw [hbuf]; exact bitAt_writeBits_inside _ _ _ k hk) hwptr.ge
  have hrptr : v.rptr = u.wptr := BitVec.eq_of_toNat_eq (hend.trans hwptr.symm)
  obtain ⟨x, hx⟩ := nodeAt_of_holdsTree hheld'
  exact ⟨v, hruns, hrptr, exec_dec_error (c := .malformedContainer) 0#32 hfv
    (decSymbol_at_end (hroot.trans hx) (by rw [hrlim, hrptr]))⟩

end Sys2Proof.Machine
end

section
/-! PROOFS. `TSER` and `TDES`: the serialized tree written and read back, and where they stop (spec/44_tree_serialization.md
R220 to R223). -/

namespace Sys2Proof.Machine

variable {s t u : State} {tr : HTree}

/-! ### Runs of bits that stand in `BUF` -/

theorem readBits_eq_iff {m : Memory} {p : Nat} {bits : List Bool} :
    readBits m p bits.length = bits ↔ ∀ k (h : k < bits.length), bitAt m (p + k) = bits[k] := by
  constructor
  · intro h k hk
    rw [← getElem_readBits m p bits.length k (by rwa [length_readBits])]
    simp only [h]
  · intro h
    exact List.ext_getElem (length_readBits ..) fun k _ hk => (getElem_readBits ..).trans (h k hk)

/-- 32 bits of `BUF` are the bits of the word read there (20_memory.md R64). -/
theorem readBits_eq_bitsOf_bitRead (m : Memory) (p : Nat) : readBits m p 32 = bitsOf 32 (bitRead m p 32) := by
  refine List.ext_getElem (by simp) fun k hk _ => ?_
  have hk : k < 32 := by simpa using hk
  rw [getElem_readBits, getElem_bitsOf, getLsbD_bitRead _ _ _ _ le_rfl, decide_eq_true hk, Bool.true_and]

/-! ### `TSER` -/

/-- `s` after `TSER` of a tree (R221). -/
def serialized (s : State) (tr : HTree) : State :=
  { appended s (treeBits tr) with out := BitVec.ofNat 32 (treeBits tr).length }

@[simp] theorem serialized_params (s : State) (tr : HTree) : (serialized s tr).params = s.params := rfl

theorem exec_tser (d : Word) (hf : s.faulted = false) (hheld : holdsTree s 0 tr)
    (hfits : s.wptr.toNat + (treeBits tr).length ≤ bufBits s) : exec (.tser d) s = .next (serialized s tr) := by
  have hbits : tserBits s = .ok (treeBits tr) := (tserBits_of_holds hheld).trans (if_pos (by omega))
  have hrule : tserRule s = .ok { s with
      buf := writeBits s.buf s.wptr.toNat (treeBits tr)
      out := BitVec.ofNat 32 (treeBits tr).length
      wptr := BitVec.ofNat 32 (s.wptr.toNat + (treeBits tr).length) } := by simp only [tserRule, hbits]
  exact exec_ok (i := .tser d) rfl hf hrule

theorem exec_tser_capacityExceeded (d : Word) (hf : s.faulted = false) (hheld : holdsTree s 0 tr)
    (hle : s.wptr.toNat ≤ bufBits s) (hlt : bufBits s < s.wptr.toNat + (treeBits tr).length) :
    exec (.tser d) s = .next (withFault s 3#4 (.tser d)) := by
  have hbits : tserBits s = .error .capacityExceeded := (tserBits_of_holds hheld).trans (if_neg (by omega))
  exact exec_capacityExceeded rfl hf (by simp only [ruleOf, tserRule, hbits])

/-- Settles O53: `emit` of a tree that `TREE` holds answers its serialized form when the room up to the end of `BUF` takes
it. -/
theorem tserWritesTheSerializedTree : Obligations.TserWritesTheSerializedTree :=
  ⟨spelledBy_of_row .tser (by decide) (fun _ _ _ => rfl) fun _ => rfl, fun _ d _ hf hheld =>
    ⟨fun hfits => ⟨_, exec_tser d hf hheld hfits, rfl, wroteBits_writeBits ..⟩,
      exec_tser_capacityExceeded d hf hheld⟩⟩

/-- What `emit` met at its first node when it completed: a leaf, or an internal node whose children it put first (R221). -/
theorem emitNodes_cons_ok {visits room n : Nat} {pending : List Nat} {bits : List Bool}
    (h : emitNodes s (visits + 1) room (n :: pending) = .ok bits) :
    (∃ y rest, nodeAt s n = some (.leaf y) ∧ emitNodes s visits (room - 33) pending = .ok rest ∧
      bits = leafBits y ++ rest) ∨
    (∃ a b rest, nodeAt s n = some (.internal a b) ∧
      emitNodes s visits (room - 1) (a.toNat :: b.toNat :: pending) = .ok rest ∧ bits = false :: rest) := by
  simp only [emitNodes] at h
  split at h
  case h_1 => simp at h
  case h_2 y hx =>
    split at h
    · simp at h
    · split at h
      · simp at h
      · next rest hrest => exact .inl ⟨y, rest, hx, hrest, (Except.ok.inj h).symm⟩
  case h_3 a b hx =>
    split at h
    · simp at h
    · split at h
      · simp at h
      · next rest hrest => exact .inr ⟨a, b, rest, hx, hrest, (Except.ok.inj h).symm⟩

/-- What `emit` found when it completed: every pending node holds a tree, and the bits are their serialized forms one after
the other (R221). -/
theorem trees_of_emitNodes {visits room : Nat} {pending : List Nat} {bits : List Bool}
    (h : emitNodes s visits room pending = .ok bits) :
    ∃ trees, List.Forall₂ (holdsTree s) pending trees ∧ bits = trees.flatMap treeBits := by
  induction visits generalizing room pending bits with
  | zero =>
    cases pending with
    | nil => exact ⟨[], .nil, (Except.ok.inj h).symm⟩
    | cons n pending => simp [emitNodes] at h
  | succ visits ih =>
    cases pending with
    | nil => exact ⟨[], .nil, by simpa [emitNodes] using h.symm⟩
    | cons n pending =>
      rcases emitNodes_cons_ok h with ⟨y, rest, hx, hrest, rfl⟩ | ⟨a, b, rest, hx, hrest, rfl⟩
      · obtain ⟨trees, hheld, rfl⟩ := ih hrest
        exact ⟨.leaf y :: trees, .cons hx hheld, rfl⟩
      · obtain ⟨trees, hheld, rfl⟩ := ih hrest
        obtain _ | ⟨hl, _ | ⟨hr, hheld⟩⟩ := hheld
        exact ⟨.node _ _ :: _, .cons ⟨a, b, hx, hl, hr⟩ hheld, by simp [treeBits]⟩

/-- What `TSER` did when it left the block running: `TREE` held a tree at node 0 whose serialized form fits (R221). -/
theorem tree_of_exec_tser {d : Word} (hle : s.wptr.toNat ≤ bufBits s) (hf : s.faulted = false)
    (h : exec (.tser d) s = .next t) (ht : t.faulted = false) :
    ∃ tr, holdsTree s 0 tr ∧ s.wptr.toNat + (treeBits tr).length ≤ bufBits s ∧ t = serialized s tr := by
  obtain ⟨v, hv, -⟩ := ruleOf_of_exec_running rfl h hf ht
  obtain ⟨bits, hbits, -⟩ := tserRule_ok hv
  have hroom := tserBits_ok hbits
  unfold tserBits at hbits
  split at hbits
  · simp at hbits
  · obtain ⟨trees, hheld, rfl⟩ := trees_of_emitNodes hbits
    obtain _ | @⟨_, tr, _, _, hheld, _ | _⟩ := hheld
    have hfits : s.wptr.toNat + (treeBits tr).length ≤ bufBits s := by
      rw [max_eq_left hle] at hroom
      simpa using hroom
    rw [exec_tser d hf hheld hfits] at h
    exact ⟨tr, hheld, hfits, (Host.Outcome.next.inj h).symm⟩

/-! ### `TDES` -/

/-- `s` after `TDES` has read a tree and stored it as `nodes` (R222). -/
def deserialized (s : State) (tr : HTree) (nodes : List (Nat × Node)) : State :=
  { s with
    tree := nodes
    out := BitVec.ofNat 32 (treeBits tr).length
    rptr := BitVec.ofNat 32 (s.rptr.toNat + (treeBits tr).length)
    cmdcnt := s.cmdcnt + 1#32 }

@[simp] theorem deserialized_faulted (s : State) (tr : HTree) (nodes : List (Nat × Node)) :
    (deserialized s tr nodes).faulted = s.faulted := rfl
@[simp] theorem deserialized_params (s : State) (tr : HTree) (nodes : List (Nat × Node)) :
    (deserialized s tr nodes).params = s.params := rfl

/-- A serialized tree of at most `TREE_NODES` nodes stands whole at `RPTR` before `RLIM` (R222). -/
structure TreeAtRptr (s : State) (tr : HTree) : Prop where
  bits : ∀ k (h : k < (treeBits tr).length), bitAt s.buf (s.rptr.toNat + k) = (treeBits tr)[k]
  limit : s.rptr.toNat + (treeBits tr).length ≤ s.rlim.toNat
  room : treeSize tr ≤ treeNodes s

theorem exec_tdes (d : Word) (hf : s.faulted = false) (h : TreeAtRptr s tr) :
    ∃ nodes, exec (.tdes d) s = .next (deserialized s tr nodes) ∧
      ∀ n, cellAt nodes n = cellAt (preorderNodes 0 tr) n := by
  obtain ⟨nodes, hdes, hnodes⟩ := desNode_of_bits (k := { p := s.rptr.toNat, next := 0, nodes := [] }) h.room h.bits
    h.limit ((Nat.zero_add _).trans_le h.room)
  refine ⟨nodes, ?_, fun n => (hnodes n).trans (Option.or_none ..)⟩
  have hrule : tdesRule s = .ok { s with
      tree := nodes
      out := BitVec.ofNat 32 (treeBits tr).length
      rptr := BitVec.ofNat 32 (s.rptr.toNat + (treeBits tr).length) } := by
    simp only [tdesRule, hdes, Nat.add_sub_cancel_left]
  exact exec_ok (i := .tdes d) rfl hf hrule

theorem exec_tdes_error {c : Cause} (d : Word) (hf : s.faulted = false)
    (h : desNode s (treeNodes s) { p := s.rptr.toNat, next := 0, nodes := [] } = .error c) :
    exec (.tdes d) s = .next (withFault s (causeCode c) (.tdes d)) :=
  exec_error rfl hf (by simp only [ruleOf, tdesRule, h])

/-- Settles O54: `des` at a serialized tree fills its nodes in preorder numbering. -/
theorem tdesReadsASerializedTree : Obligations.TdesReadsASerializedTree := by
  refine ⟨spelledBy_of_row .tdes (by decide) (fun _ _ _ => rfl) fun _ => rfl, fun s d tr hf hbits hlimit hroom => ?_⟩
  obtain ⟨nodes, hexec, hnodes⟩ := exec_tdes d hf ⟨hbits, hlimit, hroom⟩
  exact ⟨_, hexec, rfl, hnodes⟩

/-- What `des` read when it completed: a leaf, or an internal node and then its two subtrees (R222). -/
theorem desNode_succ_ok {depth : Nat} {k k' : DesScratch} (h : desNode s (depth + 1) k = .ok k') :
    (bitAt s.buf k.p = true ∧ k'.p = k.p + 33 ∧ k'.next = k.next + 1) ∨
    (bitAt s.buf k.p = false ∧ ∃ kl kr,
      desNode s depth { p := k.p + 1, next := k.next + 1, nodes := k.nodes } = .ok kl ∧ desNode s depth kl = .ok kr ∧
      k'.p = kr.p ∧ k'.next = kr.next) := by
  unfold desNode at h
  split at h
  · simp at h
  · split at h
    · simp at h
    · split at h
      · next hb =>
        split at h
        · simp at h
        · obtain rfl := Except.ok.inj h
          exact .inl ⟨hb, rfl, rfl⟩
      · next hb =>
        split at h
        · simp at h
        · next kl hl =>
          split at h
          · simp at h
          · next kr hr =>
            obtain rfl := Except.ok.inj h
            exact .inr ⟨Bool.not_eq_true _ ▸ hb, kl, kr, hl, hr, rfl, rfl⟩

/-- What `des` found when it completed: a serialized tree at its cursor, which it has passed (R222). -/
theorem tree_of_desNode {depth : Nat} {k k' : DesScratch} (h : desNode s depth k = .ok k') :
    ∃ tr, readBits s.buf k.p (treeBits tr).length = treeBits tr ∧ k'.p = k.p + (treeBits tr).length ∧
      k'.next = k.next + treeSize tr := by
  induction depth generalizing k k' with
  | zero => unfold desNode at h; split at h <;> simp at h
  | succ depth ih =>
    rcases desNode_succ_ok h with ⟨hb, hp, hn⟩ | ⟨hb, kl, kr, hl, hr, hp, hn⟩
    · have hlen : (treeBits (.leaf (bitRead s.buf (k.p + 1) 32))).length = 33 := by simp [treeBits]
      refine ⟨.leaf (bitRead s.buf (k.p + 1) 32), ?_, by rw [hlen, hp], hn⟩
      rw [hlen, readBits_succ, hb, readBits_eq_bitsOf_bitRead, treeBits]
    · obtain ⟨l, hlbits, hlp, hln⟩ := ih hl
      obtain ⟨r, hrbits, hrp, hrn⟩ := ih hr
      refine ⟨.node l r, ?_, ?_, ?_⟩
      · rw [hlp] at hrbits
        simp only [treeBits, List.length_cons, List.length_append, readBits_succ, readBits_add, hb, hlbits, hrbits]
      · simp only [treeBits, List.length_cons, List.length_append] at hlp ⊢; omega
      · simp only [treeSize] at hln ⊢; omega

/-- What `TDES` did when it left the block running: it read a serialized tree at `RPTR` (R222). -/
theorem tree_of_exec_tdes {d : Word} (hf : s.faulted = false) (h : exec (.tdes d) s = .next t)
    (ht : t.faulted = false) :
    ∃ tr nodes, TreeAtRptr s tr ∧ t = deserialized s tr nodes ∧
      ∀ n, cellAt nodes n = cellAt (preorderNodes 0 tr) n := by
  obtain ⟨v, hv, -⟩ := ruleOf_of_exec_running rfl h hf ht
  obtain ⟨k, hdes, -⟩ := tdesRule_ok hv
  obtain ⟨-, hlimit, -, hroom, -⟩ := desNode_ok hdes
  obtain ⟨tr, hbits, hp, hn⟩ := tree_of_desNode hdes
  have htr : TreeAtRptr s tr := ⟨readBits_eq_iff.1 hbits, hp ▸ hlimit, by simpa [hn] using hroom⟩
  obtain ⟨nodes, hexec, hnodes⟩ := exec_tdes d hf htr
  rw [hexec] at h
  exact ⟨tr, nodes, htr, (Host.Outcome.next.inj h).symm, hnodes⟩

/-! ### Nothing else completes -/

theorem treeNodes_le (hp : s.params.wf = true) : treeNodes s ≤ 2 ^ 16 := by
  simp only [Config.Params.wf, Bool.and_eq_true, decide_eq_true_eq] at hp
  obtain ⟨⟨-, -, hmax⟩, -⟩ := hp
  exact hmax

/-- `TDES` leaves in `TREE` the tree it has read (R203, R222). -/
theorem holdsTree_deserialized {nodes : List (Nat × Node)} (hp : s.params.wf = true) (hroom : treeSize tr ≤ treeNodes s)
    (hnodes : ∀ n, cellAt nodes n = cellAt (preorderNodes 0 tr) n) : holdsTree (deserialized s tr nodes) 0 tr :=
  holdsTree_preorder ((Nat.zero_add _).trans_le hroom) (treeNodes_le (s := s) hp) fun n _ _ => hnodes n

/-- Settles O55: `emit` that completes has walked a tree, and `des` that completes has read one. -/
theorem serializerCompletesOnlyOnATree : Obligations.SerializerCompletesOnlyOnATree := by
  refine fun s t d hi hf ht => ⟨fun h => ?tser, fun h => ?tdes⟩
  case tser =>
    obtain ⟨tr, hheld, hfits, rfl⟩ := tree_of_exec_tser hi.wptrLe hf h ht
    exact ⟨tr, hheld, hfits, rfl⟩
  case tdes =>
    obtain ⟨tr, nodes, htr, rfl, hnodes⟩ := tree_of_exec_tdes hf h ht
    exact ⟨tr, htr.bits, htr.limit, htr.room, holdsTree_deserialized hi.params htr.room hnodes, rfl⟩

/-! ### `TDES` undoes `TSER` (R223) -/

/-- `TSER` that left the block running wrote the tree that `TREE` holds. -/
theorem exec_tser_eq_serialized {d : Word} (hle : s.wptr.toNat ≤ bufBits s) (hf : s.faulted = false)
    (hheld : holdsTree s 0 tr) (h : exec (.tser d) s = .next t) (ht : t.faulted = false) :
    s.wptr.toNat + (treeBits tr).length ≤ bufBits s ∧ t = serialized s tr := by
  obtain ⟨tr', hheld', hfits, rfl⟩ := tree_of_exec_tser hle hf h ht
  obtain rfl := holdsTree_unique hheld hheld'
  exact ⟨hfits, rfl⟩

/-- `s` after `SETRP p` and `SETRL q` (42_bitstream.md R171, R172). -/
def windowed (s : State) (p q : Word) : State := complete { complete { s with rptr := p } with rlim := q }

@[simp] theorem windowed_faulted (s : State) (p q : Word) : (windowed s p q).faulted = s.faulted := rfl
@[simp] theorem windowed_params (s : State) (p q : Word) : (windowed s p q).params = s.params := rfl

/-- A read window inside `BUF`, and one command with it. -/
theorem runs_setrp_setrl_exec {i : Instr} {p q : Word} (hf : s.faulted = false) (hp : p.toNat ≤ bufBits s)
    (hq : q.toNat ≤ bufBits s) (h : exec i (windowed s p q) = .next t) (ht : t.faulted = false) :
    runs [.setrp p, .setrl q, i] s t :=
  ⟨_, exec_ok (u := { s with rptr := p }) rfl hf (if_neg (Nat.not_lt.2 hp)), hf,
    _, exec_ok (u := { complete { s with rptr := p } with rlim := q }) rfl hf (if_neg (Nat.not_lt.2 hq)), hf,
    t, h, ht, rfl⟩

/-- What `TSER` wrote is a serialized tree in the window from the old to the new `WPTR`. -/
theorem treeAtRptr_windowed_serialized (hfits : s.wptr.toNat + (treeBits tr).length ≤ bufBits s)
    (h32 : bufBits s < 2 ^ 32) (hroom : treeSize tr ≤ treeNodes s) :
    TreeAtRptr (windowed (serialized s tr) s.wptr (serialized s tr).wptr) tr where
  bits k hk := bitAt_writeBits_inside _ _ _ k hk
  limit := (toNat_wptr_appended h32 hfits).ge
  room := hroom

/-- `CGEN` makes the same table of the same tree, wherever `TREE` holds it (R198). -/
theorem exec_cgen_same_table {d : Word} (hfs : s.faulted = false) (hft : t.faulted = false) (hp : t.params = s.params)
    (hs : holdsTree s 0 tr) (ht : holdsTree t 0 tr) (h : exec (.cgen d) s = .next u) (hu : u.faulted = false) :
    ∃ z, exec (.cgen d) t = .next z ∧ z.faulted = false ∧ z.ct = u.ct ∧ z.ctn = u.ctn := by
  obtain ⟨tr', hs', hdepth, hnodup, hroom, rfl⟩ := tree_of_exec_cgen hfs h hu
  obtain rfl := holdsTree_unique hs hs'
  rw [← ctEntries_congr hp] at hroom
  exact ⟨_, exec_cgen d hft (cgenRows_of_holds ht hdepth hnodup hroom), hft, rfl, rfl⟩

/-- Settles O56: the bits that `TSER` wrote stand between the old and the new `WPTR`, and `TDES` reads them there. -/
theorem tdesInvertsTser : Obligations.TdesInvertsTser := by
  intro s u tr hi hf hheld hroom h hu
  obtain ⟨hfits, rfl⟩ := exec_tser_eq_serialized hi.wptrLe hf hheld h hu
  have htr := treeAtRptr_windowed_serialized hfits hi.bufBits_lt hroom
  have hfw : (windowed (serialized s tr) s.wptr (serialized s tr).wptr).faulted = false := by rw [windowed_faulted, hu]
  obtain ⟨nodes, hexec, hnodes⟩ := exec_tdes 0#32 hfw htr
  rw [← deserialized_faulted _ tr nodes] at hfw
  have hwptr : (serialized s tr).wptr.toNat ≤ bufBits (serialized s tr) := toNat_ofNat_le hfits
  have hx := holdsTree_deserialized (by simpa using hi.params) htr.room hnodes
  refine ⟨_, runs_setrp_setrl_exec hu hi.wptrLe hwptr hexec hfw, rfl, hx, hnodes, fun y hy hfy => ?table⟩
  case table => exact exec_cgen_same_table hf hfw (by simp) hheld hx hy hfy

/-! ### Where `TDES` stops -/

theorem desNode_at_end {depth : Nat} {k : DesScratch} (h : s.rlim.toNat ≤ k.p) :
    desNode s depth k = .error .malformedContainer := by
  cases depth <;> exact if_pos (Nat.lt_succ_of_le h)

theorem desNode_full {depth : Nat} {k : DesScratch} (hp : k.p < s.rlim.toNat) (hn : treeNodes s ≤ k.next) :
    desNode s depth k = .error .capacityExceeded := by
  cases depth with
  | zero => exact if_neg (Nat.not_lt.2 hp)
  | succ depth => exact (if_neg (Nat.not_lt.2 hp)).trans (if_pos hn)

theorem desNode_inside_leaf {depth : Nat} {k : DesScratch} (hp : k.p < s.rlim.toNat) (hn : k.next < treeNodes s)
    (hd : treeNodes s ≤ depth + k.next) (hb : bitAt s.buf k.p = true) (hl : s.rlim.toNat < k.p + 33) :
    desNode s depth k = .error .malformedContainer := by
  obtain ⟨d, rfl⟩ : ∃ d, depth = d + 1 := ⟨depth - 1, by omega⟩
  unfold desNode
  rw [if_neg (by omega), if_neg (by omega), if_pos hb, if_pos (by omega)]

/-- The nodes of a way stand at `RPTR` before `RLIM`, and there is room for them (R222). -/
structure WayAtRptr (s : State) (w : Way) : Prop where
  bits : ∀ k (h : k < (wayBits w).length), bitAt s.buf (s.rptr.toNat + k) = (wayBits w)[k]
  limit : s.rptr.toNat + (wayBits w).length ≤ s.rlim.toNat
  room : wayNodes w ≤ treeNodes s

/-- `TDES` ends in what `des` raises at the node after those of the way. -/
theorem exec_tdes_of_way {w : Way} {c : Cause} (d : Word) (hf : s.faulted = false) (hw : WayAtRptr s w)
    (hend : ∀ depth k, k.p = s.rptr.toNat + (wayBits w).length → k.next = wayNodes w →
      treeNodes s ≤ depth + k.next → desNode s depth k = .error c) :
    exec (.tdes d) s = .next (withFault s (causeCode c) (.tdes d)) := by
  refine exec_tdes_error d hf (desNode_of_way le_rfl hw.bits hw.limit (by simpa using hw.room) ?_)
  exact fun depth k hp hn => hend depth k hp (hn.trans (Nat.zero_add _))

theorem exec_tdes_full {w : Way} (d : Word) (hf : s.faulted = false) (hw : WayAtRptr s w)
    (hlt : s.rptr.toNat + (wayBits w).length < s.rlim.toNat) (hn : wayNodes w = treeNodes s) :
    exec (.tdes d) s = .next (withFault s 3#4 (.tdes d)) :=
  exec_tdes_of_way (c := .capacityExceeded) d hf hw fun _ _ hkp hkn _ => desNode_full (by omega) (by omega)

/-- Settles O59: `des` comes to the end of the way with its checks of the next node still to make; in a tree of too many
nodes the way leads to node number `TREE_NODES`. -/
theorem tdesFaultsWhereTheStreamBreaks : Obligations.TdesFaultsWhereTheStreamBreaks := by
  refine ⟨fun s d w hf hbits hroom => ⟨fun hend => ?marker, fun hlt hn => ?full, fun hlt hcut hn hb => ?symbol⟩,
    fun s d tr hf hbits hlimit hmany => ?tree⟩
  case marker =>
    exact exec_tdes_of_way (c := .malformedContainer) d hf ⟨hbits, hend.le, hroom⟩
      fun _ _ hp _ _ => desNode_at_end (hp.trans hend).ge
  case full => exact exec_tdes_full d hf ⟨hbits, hlt.le, hroom⟩ hlt hn
  case symbol =>
    refine exec_tdes_of_way (c := .malformedContainer) d hf ⟨hbits, hlt.le, hroom⟩ fun depth k hp hkn hd => ?_
    rw [← hp] at hlt hcut hb
    exact desNode_inside_leaf hlt (hkn.trans_lt hn) hd hb hcut
  case tree =>
    obtain ⟨w, rest, hn, hrest, htr⟩ := way_to_node hmany
    have hlen : (treeBits tr).length = (wayBits w).length + rest.length := by rw [htr, List.length_append]
    have hpos : 0 < rest.length := List.length_pos_of_ne_nil hrest
    have hway : ∀ k (h : k < (wayBits w).length), bitAt s.buf (s.rptr.toNat + k) = (wayBits w)[k] := fun k hk => by
      rw [hbits k (by omega)]
      simp only [htr, List.getElem_append_left hk]
    exact exec_tdes_full d hf ⟨hway, by omega, hn.le⟩ (by omega) hn

end Sys2Proof.Machine
end

section
/-! PROOFS. Steps without a command, the faulted block and fault entry (spec/60_exceptions.md R279, R280, R283;
spec/70_reset_and_hazards.md R301). -/

namespace Sys2Proof.Machine

variable {i : Instr} {s t : State}

/-! ### Nothing delivered, and reset -/

/-- Reset gives the state after power-on, but for `BUF`, the parameters and the deliveries, which it keeps (R37, R301). -/
theorem resetBlock_eq_powerOn (s : State) :
    resetBlock s = { State.powerOn s.params with buf := s.buf, inbox := s.inbox } := rfl

/-- Settles O6: the two cases of `step` that take no command. -/
theorem stepWithoutCommand : Obligations.StepWithoutCommand :=
  ⟨fun _ => step_idle, fun _ _ hb => by rw [step_reset hb, resetBlock_eq_powerOn]⟩

/-! ### The faulted block -/

theorem isRd_iff : isRd i = true ↔ ∃ sel d, i = .rd sel d := by
  cases i <;> simp [isRd]

/-- No register shows what the host has delivered (10_state.md R20, log 1). -/
theorem readReg_withInbox (s : State) (inbox : List Delivery) (r : Reg) : readReg { s with inbox } r = readReg s r := by
  cases r <;> rfl

/-- While faulted `RD` writes `OUT` and does not count (R122, R280). -/
theorem exec_rd_faulted (sel : Reg) (d : Word) (hf : s.faulted = true) :
    exec (.rd sel d) s = .next { s with out := readReg s sel } :=
  if_pos hf

/-- Settles O8, by what the delivered pair spells: `RD`, `SRST`, another command, or nothing. -/
theorem faultedBlockRunsOnlyRdAndSrst : Obligations.FaultedBlockRunsOnlyRdAndSrst := by
  refine fun s cmd data rest hf hb => ⟨fun sel d hd => ?rd, fun d hd => ?srst, fun hrd hsrst => ?other⟩
  case rd => rw [step_decoded hb hd, exec_rd_faulted (s := { s with inbox := rest }) sel d hf, readReg_withInbox]
  case srst => rw [step_decoded hb hd, exec, execSrst, resetBlock_eq_powerOn]
  case other =>
    cases hd : decode cmd data with
    | error e => exact (rejected_of_error hd s rest hb).2 hf
    | ok i =>
      have hs : isSrst i = false := Bool.eq_false_iff.2 fun h => by
        obtain ⟨d, rfl⟩ := isSrst_iff.1 h
        exact hsrst d hd
      have hr : isRd i = false := Bool.eq_false_iff.2 fun h => by
        obtain ⟨sel, d, rfl⟩ := isRd_iff.1 h
        exact hrd sel d hd
      exact (step_decoded hb hd).trans (exec_faulted hs hr hf)

/-! ### Fault entry -/

/-- A command that leaves a running block faulted has raised a cause and done nothing else (R279). -/
theorem raiseFault_of_exec (hf : s.faulted = false) (h : exec i s = .next t) (ht : t.faulted = true) :
    ∃ c, t = raiseFault c (encode i).1 (encode i).2 s := by
  rcases exec_cases h with ⟨-, rfl⟩ | ⟨hf', -⟩ | ⟨hf', -⟩ | ⟨-, -, u, hu, rfl⟩ | ⟨-, -, c, -, rfl⟩
  · simp at ht
  · simp [hf] at hf'
  · simp [hf] at hf'
  · obtain ⟨hfaulted, -⟩ := ruleOf_keeps hu
    simp [hfaulted, hf] at ht
  · exact ⟨c, rfl⟩

/-- Settles O9: an illegal pair records itself, and a command records its encoding, which is the delivered pair. -/
theorem faultEntryWritesOnlyTheRecord : Obligations.FaultEntryWritesOnlyTheRecord := by
  intro s t cmd data rest hf hb h ht
  cases hd : decode cmd data with
  | error e =>
    rw [(rejected_of_error hd s rest hb).1 hf, Host.Outcome.next.injEq] at h
    exact ⟨.illegalCommand, h.symm⟩
  | ok i =>
    rw [step_decoded hb hd] at h
    obtain ⟨c, rfl⟩ := raiseFault_of_exec (s := { s with inbox := rest }) hf h ht
    rw [encodeInvertsDecode cmd data i hd]
    exact ⟨c, rfl⟩

end Sys2Proof.Machine
end

section
/-! PROOFS. The faults of the walks over `TREE`: no tree, a bad node, a root that is its own child, the end of the stream
(spec/60_exceptions.md R272, R274, R277, R282). -/

namespace Sys2Proof.Machine

variable {s : State} {c : Cause} {m : Nat}

/-! ### What `CGEN` and `TSER` raise is what their walks raise -/

theorem exec_cgen_error (d : Word) (hf : s.faulted = false) (h : cgenRows s = .error c) :
    exec (.cgen d) s = .next (withFault s (causeCode c) (.cgen d)) :=
  exec_error rfl hf (by simp only [ruleOf, cgenRule, h])

theorem exec_tser_error (d : Word) (hf : s.faulted = false) (h : tserBits s = .error c) :
    exec (.tser d) s = .next (withFault s (causeCode c) (.tser d)) :=
  exec_error rfl hf (by simp only [ruleOf, tserRule, h])

/-! ### No tree, and no bits -/

/-- Settles O50: the walks look at the root first, and the bit readers test `RLIM` first; `DEC` does so once it has a
root. -/
theorem emptyTreeAndStreamEndFault : Obligations.EmptyTreeAndStreamEndFault := by
  refine fun s d hf => ⟨fun hx => ⟨?cgen, ?dec, ?tser⟩, fun hl => ⟨fun n hn => ?getbits, fun hx => ?decEnd, ?tdes⟩⟩
  case cgen => exact exec_cgen_error (c := .emptyAlphabet) d hf (by simp only [cgenRows, hx])
  case dec => exact exec_dec_error (c := .emptyAlphabet) d hf (by simp only [decSymbol, hx])
  case tser => exact exec_tser_error (c := .emptyAlphabet) d hf (by simp only [tserBits, hx])
  case getbits => exact exec_getbits_beyond d hf (by omega)
  case decEnd =>
    obtain ⟨x, hx⟩ := Option.ne_none_iff_exists'.1 hx
    exact exec_dec_error (c := .malformedContainer) d hf (decSymbol_at_end hx hl)
  case tdes => exact exec_tdes_error (c := .malformedContainer) d hf (desNode_at_end hl)

/-! ### A bad node -/

/-- What makes a child bad for `CGEN` when it has passed leaves with these symbols: it is invalid, or a leaf with one of them
(R198, R277). -/
def badChild (s : State) (m : Nat) (syms : List Word) : Prop :=
  nodeAt s m = none ∨ ∃ y ∈ syms, nodeAt s m = some (.leaf y)

theorem cgenChild_of_badChild {depth : Nat} {descend : Half → Half → Word → List CtEntry → Except Cause (List CtEntry)}
    {k : Half} {p : Word} {rows : List CtEntry} (h : badChild s k.toNat (rows.map (·.sym))) :
    cgenChild s depth descend k p rows = .error .badTree := by
  rcases h with hx | ⟨y, hy, hx⟩
  · simp only [cgenChild, hx]
  · have hany : rows.any (fun r => r.sym == y) = true := by simpa using hy
    simp only [cgenChild, hx, if_pos hany]

theorem exec_cgen_badTree {w : Way} (d : Word) (hf : s.faulted = false) (hw : w ≠ .here) (hl : leadsTo s w 0 m)
    (hdepth : wayDepth w ≤ 32) (hnodup : (waySyms w).Nodup) (hroom : (waySyms w).length ≤ ctEntries s)
    (hbad : badChild s m (waySyms w)) : exec (.cgen d) s = .next (withFault s 7#4 (.cgen d)) := by
  refine exec_cgen_error (c := .badTree) d hf (cgenRows_of_way hw hl hdepth hnodup hroom ?_)
  rintro rows depth descend k p hrows rfl
  exact cgenChild_of_badChild (hrows ▸ hbad)

theorem emitNodes_invalid {visits room : Nat} {pending : List Nat} (hx : nodeAt s m = none) (hv : 0 < visits) :
    emitNodes s visits room (m :: pending) = .error .badTree := by
  obtain ⟨v, rfl⟩ := Nat.exists_eq_succ_of_ne_zero hv.ne'
  simp only [emitNodes, hx]

theorem exec_tser_badTree {w : Way} (d : Word) (hf : s.faulted = false) (hw : w ≠ .here) (hl : leadsTo s w 0 m)
    (hx : nodeAt s m = none) (hfits : s.wptr.toNat + (wayBits w).length ≤ bufBits s) :
    exec (.tser d) s = .next (withFault s 7#4 (.tser d)) := by
  obtain ⟨a, b, hroot⟩ := nodeAt_of_leadsTo hl hw
  refine exec_tser_error (c := .badTree) d hf ?_
  simp only [tserBits, hroot]
  exact emitNodes_of_way hl (Nat.lt_succ_self _) (by omega) fun _ _ hv => emitNodes_invalid hx (by omega)

theorem exec_dec_badTree {bits : List Bool} (d : Word) (hf : s.faulted = false) (hne : bits ≠ [])
    (hbits : ∀ k (h : k < bits.length), bitAt s.buf (s.rptr.toNat + k) = bits[k])
    (hlimit : s.rptr.toNat + bits.length ≤ s.rlim.toNat) (hd : descendsTo s bits 0 m) (hx : nodeAt s m = none) :
    exec (.dec d) s = .next (withFault s 7#4 (.dec d)) := by
  obtain ⟨b, bits, rfl⟩ := List.exists_cons_of_ne_nil hne
  obtain ⟨l, r, hroot, -⟩ := id hd
  refine exec_dec_error (c := .badTree) d hf ?_
  simp only [decSymbol, hroot]
  exact (decWalk_of_descent hroot hbits (by omega) hd).1 hne hx

/-! ### A root that is its own child -/

section
variable (hx : nodeAt s 0 = some (.internal 0#16 0#16))
include hx

theorem cgenWalk_of_self_child (room : Nat) (path : Word) (rows : List CtEntry) :
    cgenWalk s room 0#16 0#16 path rows = .error .capacityExceeded := by
  induction room generalizing path rows with
  | zero => rfl
  | succ room ih => simp [cgenWalk, cgenChild, hx, ih]

theorem emitNodes_of_self_child (visits room : Nat) (pending : List Nat) :
    emitNodes s visits room (0 :: pending) = .error .capacityExceeded := by
  induction visits generalizing room pending with
  | zero => rfl
  | succ visits ih => simp [emitNodes, hx, ih]

theorem decWalk_of_self_child (avail p : Nat) : decWalk s avail p 0#16 0#16 = .error .malformedContainer := by
  induction avail generalizing p with
  | zero => rfl
  | succ avail ih => simp [decWalk, hx, ih]

end

/-- Settles O47: a walk answers at the end of its way what it raises at the node there, and on a root that is its own child
it goes on until its bound is used up. -/
theorem badTreesFaultByTheirCause : Obligations.BadTreesFaultByTheirCause := by
  refine ⟨fun s d w m hf hl hw => ⟨fun hdepth hnodup hroom => ⟨fun hx => ?invalid, fun y hx hy => ?duplicate⟩,
      exec_tser_badTree d hf hw hl⟩,
    fun s d bits m hf => exec_dec_badTree d hf, fun s d hf hx => ⟨?cgenLoop, ?tserLoop, ?decLoop⟩⟩
  case invalid => exact exec_cgen_badTree d hf hw hl hdepth hnodup hroom (.inl hx)
  case duplicate => exact exec_cgen_badTree d hf hw hl hdepth hnodup hroom (.inr ⟨y, hy, hx⟩)
  case cgenLoop =>
    exact exec_cgen_capacityExceeded d hf (by simp only [cgenRows, hx, cgenWalk_of_self_child hx])
  case tserLoop =>
    exact exec_tser_error (c := .capacityExceeded) d hf (by simp only [tserBits, hx, emitNodes_of_self_child hx])
  case decLoop =>
    exact exec_dec_error (c := .malformedContainer) d hf (by simp only [decSymbol, hx, decWalk_of_self_child hx])

end Sys2Proof.Machine
end
